-- ==== Sys2Proof/Word.lean ====
section
/-! DEFINITION. The word types of the block (rule R8): bytes, host words and the two 7-bit addresses. -/

namespace Sys2Proof

/-- A byte: a device register, a frame byte, a request or response byte. -/
abbrev Byte := BitVec 8

/-- A word of the host port and of the command register (rule R30, rule R70). -/
abbrev Word := BitVec 32

/-- A bus address, BUS_ADDR_BITS = 7 (rule R5). -/
abbrev BusAddr := BitVec 7

/-- A device register address, bits 6:0 of a request byte (rule R54). -/
abbrev RegAddr := BitVec 7

/-- A word address of the host port, HADDR[5:2]; the byte offset is four times it (rule R212). -/
abbrev HostAddr := BitVec 4

end Sys2Proof
end

