-- ==== Sys2Proof/Config.lean ====
section
/-! DEFINITION. What is fixed for the block: constants and parameters (rule R5, rule R6, rule R7), the answers the
environment gives (rule R12), and the free values: the pin stream nobody constrains, and the bytes of TR_WDATA
that no rule gives. -/

namespace Sys2Proof.Config

/-- FRAME_BITS (rule R5): data bits read by one single-wire read. -/
def frameBits : Nat := 40

/-- BURST_FLAG (rule R5): the bit of a request byte that asks for auto-increment. -/
def burstFlag : Byte := 0x80

/-- TENTHS_DIV (rule R5): divisor of tenths-coded values. -/
def tenthsDiv : Nat := 10

/-- The build-time parameters of rule R6. `tick` is T_TICK in microseconds. DESIGN CHOICE (note 27): a whole number of
microseconds, where rule R6 asks only that T_TICK be positive; no step reads it. Unsafe only for a statement about time. -/
structure Params where
  budget : Nat
  holdIdle : Nat
  holdLow : Nat
  holdGo : Nat
  tick : Nat
deriving DecidableEq, Repr

/-- The reference values of rule R6. -/
def Params.reference : Params :=
  { budget := 1000, holdIdle := 20000, holdLow := 20000, holdGo := 40, tick := 1 }

/-- Least length of the request phase in microseconds (rule R209). -/
def Params.requestMicros (p : Params) : Nat := (p.holdIdle + p.holdLow + p.holdGo) * p.tick

/-- Most microseconds one pulse-width measurement takes (rule R209). -/
def Params.measureMicros (p : Params) : Nat := p.budget * p.tick

/-- Most microseconds of a whole single-wire read, not counting the excess of the holds over their minima (rule R209). -/
def Params.readMicros (p : Params) : Nat := p.requestMicros + 82 * p.measureMicros

/-- The two candidate values of the open parameter FS_CONST (rule R7, rule R145, 90_conflicts.md C2). -/
inductive FsConst where
  | literal32678
  | power32768
deriving DecidableEq, Repr

/-- The integer a candidate of FS_CONST stands for (rule R145). -/
def FsConst.value : FsConst → Nat
  | .literal32678 => 32678
  | .power32768 => 32768

/-- One answer of the pin: PIN_IN and PIN_FAULT at the moment the primitive takes effect (rule R100). A drive answers
`Fault` when `fault` holds and `Ok` otherwise (rule R101); a sample answers `Fault` when `fault` holds, whatever the level
(rule R102), and `Level(level)` otherwise. -/
structure PinAnswer where
  level : Bool
  fault : Bool
deriving DecidableEq, Repr, Inhabited

/-- One answer of the transport: TR_FAIL and the 64-bit field TR_RDATA, byte k at bits 8k+7:8k (rule R53). `Fail` is
`fail = true`; otherwise the answer is `Ok` and a combined write-then-read takes its first m bytes (rule R51, U19). -/
structure BusAnswer where
  fail : Bool
  rdata : BitVec 64
deriving DecidableEq, Repr, Inhabited

/-- FREE VALUE (note 4): answer number n of the pin stream beyond the answers a state lists. Nothing constrains it
(rule R12, 93_implementation_defined.md U10). -/
opaque pinStream : Nat → PinAnswer

/-- FREE VALUE (note 28): what place k of TR_WDATA shows while the request's bytes end before place k. Rule R53 places only
the bytes to write and says nothing of the rest. -/
opaque unsentByte : List Byte → Nat → Byte

end Sys2Proof.Config
end

