-- ==== Sys2Proof/Syntax.lean ====
section
/-! DEFINITION. The commands of the block, one constructor per row of spec/opcode_table.json, with their operands. -/

namespace Sys2Proof

/-- Operand W: one byte or two (rule R73, rule R77). -/
inductive Width where
  | one
  | two
deriving DecidableEq, Repr

/-- Operand ORDER of UNPK: the byte order of a two-byte value (rule R55, rule R77). -/
inductive ByteOrder where
  | be
  | le
deriving DecidableEq, Repr

/-- Operand SIGN of UNPK: unsigned or two's complement (rule R77). -/
inductive Signedness where
  | unsigned
  | signed
deriving DecidableEq, Repr

/-- Operand and state field CONV: the conversion a value is meant for (rule R23, rule R80). -/
inductive Conv where
  | raw
  | tenths
  | sc1
  | sc2
deriving DecidableEq, Repr

/-- Operand SLOT of RMW: which scale store records the divisor (rule R76, rule R80). -/
inductive Slot where
  | none
  | s1
  | s2
deriving DecidableEq, Repr

/-- A command of the block. Operands stand in the order of the pseudocode of its rule. -/
inductive Instr where
  /-- Single-wire read (rule R118). -/
  | swrd
  /-- Read one register or two consecutive registers (rule R130). -/
  | rdreg (reg : RegAddr) (w : Width) (inc : Bool)
  /-- General write-then-read (rule R131). -/
  | xfer (nreq : BitVec 2) (nresp : BitVec 4)
  /-- Write one register (rule R132). -/
  | wrreg (reg : RegAddr) (value : Byte)
  /-- Read-modify-write of a bitfield (rule R133). -/
  | rmw (reg : RegAddr) (mask bits : Byte) (slot : Slot)
  /-- Unpack a value from the response buffer (rule R135). -/
  | unpk (off : BitVec 3) (w : Width) (order : ByteOrder) (sign : Signedness) (conv : Conv)
  /-- Connectivity check (rule R134). -/
  | idchk (reg : RegAddr) (expect : Byte)
deriving DecidableEq, Repr

end Sys2Proof
end

