-- ==== Sys2Proof/Machine/State.lean ====
section
/-! DEFINITION. The state of the block (rule R20 to rule R45), its reset value (rule R191), the inputs and outputs of a run,
and the two reason types of a step that stops. -/

namespace Sys2Proof.Machine

/-- PHASE, where in the running command the sequencer stands (rule R25). -/
inductive Phase where
  | idle
  | rqH1
  | rqL
  | rqH2
  | ackL
  | ackH
  | datL
  | datH
  | rcRd
  | rcWr
deriving DecidableEq, Repr

/-- The codes of PHASE (rule R25, rule R80). Codes 10 to 15 are never taken. -/
def Phase.code : Phase → BitVec 4
  | .idle => 0
  | .rqH1 => 1
  | .rqL => 2
  | .rqH2 => 3
  | .ackL => 4
  | .ackH => 5
  | .datL => 6
  | .datH => 7
  | .rcRd => 8
  | .rcWr => 9

/-- ERR, the outcome of the most recent command (rule R28). -/
inductive ErrCode where
  | none
  | bus
  | pin
  | timeout
  | crc
  | illcmd
deriving DecidableEq, Repr

/-- The codes of ERR (rule R28, rule R80). Codes 6 and 7 are never produced. -/
def ErrCode.code : ErrCode → BitVec 3
  | .none => 0
  | .bus => 1
  | .pin => 2
  | .timeout => 3
  | .crc => 4
  | .illcmd => 5

/-- PINMODE (rule R43). -/
inductive PinMode where
  | sample
  | drive
deriving DecidableEq, Repr

/-- A transport primitive with everything it presents at the port (rule R51, rule R52). -/
inductive Request where
  /-- `T_WTR(addr, bytes, count)`: write the bytes, then read `count` bytes. -/
  | writeThenRead (addr : BusAddr) (bytes : List Byte) (count : Nat)
  /-- `T_W(addr, bytes)`: write the bytes. -/
  | write (addr : BusAddr) (bytes : List Byte)
deriving DecidableEq, Repr

/-- What reaches the block from outside besides the answers of the environment, one entry a step (note 3). -/
inductive Input where
  /-- RST_N low (rule R190). -/
  | reset
  /-- The host reads the register at a word address (rule R212). -/
  | read (addr : HostAddr)
  /-- The host writes a word at a word address (rule R212). -/
  | write (addr : HostAddr) (word : Word)
  /-- No host access in this step: the sequencer moves. -/
  | none
deriving DecidableEq, Repr

/-- What the block shows to the outside (note 8): a primitive of rule R10, entered in the step that takes its answer, or
the word a host read returns. -/
inductive Output where
  /-- `PinDrive(level)`. -/
  | drive (level : Bool)
  /-- `PinSample()`. -/
  | sample
  /-- `PinRelease()`. -/
  | release
  /-- `Wait(ticks)`. -/
  | wait (ticks : Nat)
  /-- `T_WTR` or `T_W`. -/
  | transport (request : Request)
  /-- HRDATA of a host read (rule R212). -/
  | hostRead (addr : HostAddr) (word : Word)
deriving DecidableEq, Repr

/-- The state: first every element of rule R20, then the model's own fields (the parameters, the host's accesses, the two
answer streams of rule R12 and what the outside has seen). -/
structure State where
  /-- B[0..4] (rule R21). -/
  b : Vector Byte 5
  /-- BITCNT (rule R42). -/
  bitcnt : BitVec 6
  /-- RESP[0..7] (rule R22). -/
  resp : Vector Byte 8
  /-- RLEN (rule R22). -/
  rlen : BitVec 4
  /-- DATA (rule R23). -/
  data : Word
  /-- CONV (rule R23). -/
  conv : Conv
  /-- DDIV (rule R23). -/
  ddiv : Byte
  /-- DVALID (rule R23). -/
  dvalid : Bool
  /-- PHASE (rule R25). -/
  phase : Phase
  /-- STATUS.DONE (rule R27). -/
  done : Bool
  /-- STATUS.VALID (rule R27). -/
  valid : Bool
  /-- STATUS.IDOK (rule R27). -/
  idok : Bool
  /-- STATUS.REJ (rule R29). -/
  rej : Bool
  /-- STATUS.ERR (rule R28). -/
  err : ErrCode
  /-- CMD (rule R31). -/
  cmd : Word
  /-- ARG (rule R32). -/
  arg : Word
  /-- DEV_ADDR.ADDR (rule R34). -/
  devAddr : BusAddr
  /-- SCALE.S1 (rule R35). -/
  s1 : Byte
  /-- SCALE.S2 (rule R35). -/
  s2 : Byte
  /-- HUM_T (rule R38). -/
  humT : BitVec 12
  /-- TEMP_T (rule R38). -/
  tempT : BitVec 16
  /-- NEG (rule R38). -/
  neg : Bool
  /-- CNT, values 0 to BUDGET - 1 (rule R41). -/
  cnt : Nat
  /-- LOWDUR, values 0 to BUDGET - 1 (rule R41). -/
  lowdur : Nat
  /-- HOLD (rule R42). -/
  hold : Nat
  /-- PINMODE (rule R43). -/
  pinmode : PinMode
  /-- PINOUT (rule R43). -/
  pinout : Bool
  /-- NEWVAL (rule R44). -/
  newval : Byte
  /-- The build-time parameters of rule R6; no step changes them (note 7). -/
  params : Config.Params
  /-- Host accesses and resets still to come, in time order (note 3). -/
  inputs : List Input
  /-- The listed beginning of the pin stream (note 4). -/
  pin : List Config.PinAnswer
  /-- How many pin answers have been taken (note 4). -/
  pinIndex : Nat
  /-- Transport answers still to come; empty: none has arrived (note 5). -/
  bus : List Config.BusAnswer
  /-- What the outside has seen, newest first (note 8). -/
  out : List Output
deriving DecidableEq, Repr

/-- The state after reset: every element 0 (rule R191). The model's own fields hold nothing (note 26). -/
def State.reset : State :=
  { b := #v[0, 0, 0, 0, 0]
    bitcnt := 0
    resp := #v[0, 0, 0, 0, 0, 0, 0, 0]
    rlen := 0
    data := 0
    conv := .raw
    ddiv := 0
    dvalid := false
    phase := .idle
    done := false
    valid := false
    idok := false
    rej := false
    err := .none
    cmd := 0
    arg := 0
    devAddr := 0
    s1 := 0
    s2 := 0
    humT := 0
    tempT := 0
    neg := false
    cnt := 0
    lowdur := 0
    hold := 0
    pinmode := .sample
    pinout := false
    newval := 0
    params := .reference
    inputs := []
    pin := []
    pinIndex := 0
    bus := []
    out := [] }

/-- Why a step stops. Both reasons arise only in states that no run from reset reaches (Safety.lean, `Inv`), where the
spec has no rule to follow. -/
inductive Fault where
  /-- The step tables of rule R120 and rule R147 have no row for this PHASE, command, BITCNT and CNT. Raised by the seven
  meanings. Safe: the model stops where the spec says nothing (note 12). -/
  | noRow
  /-- PHASE is not IDLE although CMD holds no legal command. Raised by the sequencer. Safe, as `noRow` (note 12). -/
  | runningWordIllegal
deriving DecidableEq, Repr

/-- Why a command has no meaning in the model. -/
inductive Refusal where
  /-- The command has no meaning in the model yet. Raised by `exec` alone; no command is in this case. Safe. -/
  | notModelled (mnemonic : String)
deriving DecidableEq, Repr

/-- The outcome of a step of the block. -/
abbrev Result := Host.Outcome State Fault Refusal

end Sys2Proof.Machine
end

