-- ==== Sys2Proof/Machine/Flags.lean ====
section
/-! DEFINITION. Flags and the one-bit decisions: BUSY, REJ, the checksum, the comparators (rule R27 to rule R29, rule R106,
rule R110, rule R134). -/

namespace Sys2Proof.Machine

/-- BUSY = 1 exactly when PHASE ≠ 0 (rule R27). -/
def State.busy (s : State) : Bool := decide (s.phase ≠ .idle)

/-- The next REJ when a reject (`set`) and a clear are presented: the set wins (rule R29). -/
def rejNext (set clear rej : Bool) : Bool := set || (rej && !clear)

/-- The pulse-width comparator: 1 when the high duration exceeds the low one, else 0 (rule R106). -/
def pulseBit (low high : Nat) : Bool := decide (low < high)

/-- SUM, the low byte of the sum of the first four frame bytes (rule R110). -/
def checksum (b : Vector Byte 5) : Byte :=
  BitVec.ofNat 8 (b[0].toNat + b[1].toNat + b[2].toNat + b[3].toNat)

/-- The checksum of the frame matches its fifth byte (rule R110). -/
def checksumOk (b : Vector Byte 5) : Bool := checksum b == b[4]

/-- The identity comparison, all eight bits (rule R134). -/
def identityOk (got expect : Byte) : Bool := got == expect

/-- PHASE belongs to the single-wire unit, that is, the running command is SWRD (rule R25, rule R120). -/
def Phase.singleWire : Phase → Bool
  | .idle => false
  | .rqH1 => true
  | .rqL => true
  | .rqH2 => true
  | .ackL => true
  | .ackH => true
  | .datL => true
  | .datH => true
  | .rcRd => false
  | .rcWr => false

end Sys2Proof.Machine
end

