-- ==== Sys2Proof/WellFormed.lean ====
section
/-! DEFINITION. The operand conditions of rule R82 that a command word must meet whatever the state. The one condition on
state, UNPK against RLEN (rule R77), is checked at the accept (Machine/Unpack.lean). -/

namespace Sys2Proof

/-- The operands of a command are ones its rule calls legal (rule R74, rule R76, rule R77, rule R82). -/
def Instr.wellFormed : Instr → Bool
  | .swrd => true
  | .rdreg _ _ _ => true
  | .xfer nreq nresp => nreq != 0 && nresp != 0 && decide (nresp.toNat ≤ 8)
  | .wrreg _ _ => true
  | .rmw _ mask bits _ => bits &&& ~~~mask == 0
  | .unpk _ w order _ _ => w == .two || order == .be
  | .idchk _ _ => true

end Sys2Proof
end

