-- ==== Sys2Proof/Decode.lean ====
section
/-! DEFINITION. The decoder of 32-bit command words (rule R70 to rule R78, rule R81, rule R82), total and rejecting by name,
and after it the encoder written from the same table. -/

namespace Sys2Proof

/-- Why a word is no legal command, whatever the state (rule R81, rule R82). All have one effect (rule R71). -/
inductive Illegal where
  /-- OPC is 0 or 8 to 15 (rule R81). -/
  | reservedOpcode
  /-- A bit the command's rule calls "must be 0" is 1 (rule R82). -/
  | mustBeZero
  /-- NREQ = 0 in XFER (rule R74). -/
  | requestCount
  /-- NRESP is 0 or above 8 in XFER (rule R74). -/
  | responseCount
  /-- SLOT = 3 in RMW (rule R76). -/
  | reservedSlot
  /-- A bit of C outside B in RMW (rule R76). -/
  | strayBits
  /-- ORDER = 1 with W = 0 in UNPK (rule R77). -/
  | orderOfOneByte
deriving DecidableEq, Repr

/-- OPC = w[31:28] (rule R70). -/
def opcOf (w : Word) : BitVec 4 := w.extractLsb' 28 4

/-- AUX = w[27:24] (rule R70). -/
def auxOf (w : Word) : BitVec 4 := w.extractLsb' 24 4

/-- A = w[23:16] (rule R70). -/
def aOf (w : Word) : Byte := w.extractLsb' 16 8

/-- B = w[15:8] (rule R70). -/
def bOf (w : Word) : Byte := w.extractLsb' 8 8

/-- C = w[7:0] (rule R70). -/
def cOf (w : Word) : Byte := w.extractLsb' 0 8

/-- The code of W (rule R73, rule R77). -/
def widthOf (bit : Bool) : Width := if bit then .two else .one

/-- The code of ORDER (rule R77). -/
def byteOrderOf (bit : Bool) : ByteOrder := if bit then .le else .be

/-- The code of SIGN (rule R77). -/
def signOf (bit : Bool) : Signedness := if bit then .signed else .unsigned

/-- The code of CONV (rule R80). -/
def convOf (c : BitVec 2) : Conv :=
  if c = 0 then .raw else if c = 1 then .tenths else if c = 2 then .sc1 else .sc2

/-- The code of SLOT; 3 is no slot (rule R76). -/
def slotOf (c : BitVec 2) : Option Slot :=
  if c = 0 then some .none else if c = 1 then some .s1 else if c = 2 then some .s2 else none

/-- The register operand A[6:0] (rule R73). -/
def regOf (w : Word) : RegAddr := (aOf w).extractLsb' 0 7

/-- Rule R72. -/
def decodeSwrd (w : Word) : Except Illegal Instr :=
  if auxOf w ≠ 0 ∨ aOf w ≠ 0 ∨ bOf w ≠ 0 ∨ cOf w ≠ 0 then .error .mustBeZero else .ok .swrd

/-- Rule R73. -/
def decodeRdreg (w : Word) : Except Illegal Instr :=
  if (auxOf w).extractLsb' 2 2 ≠ 0 ∨ (aOf w).getLsbD 7 ∨ bOf w ≠ 0 ∨ cOf w ≠ 0 then .error .mustBeZero
  else .ok (.rdreg (regOf w) (widthOf ((auxOf w).getLsbD 1)) ((auxOf w).getLsbD 0))

/-- Rule R74. -/
def decodeXfer (w : Word) : Except Illegal Instr :=
  if (auxOf w).extractLsb' 2 2 ≠ 0 ∨ (aOf w).extractLsb' 4 4 ≠ 0 ∨ bOf w ≠ 0 ∨ cOf w ≠ 0 then .error .mustBeZero
  else if (auxOf w).extractLsb' 0 2 = 0 then .error .requestCount
  else if (aOf w).extractLsb' 0 4 = 0 ∨ 8 < ((aOf w).extractLsb' 0 4).toNat then .error .responseCount
  else .ok (.xfer ((auxOf w).extractLsb' 0 2) ((aOf w).extractLsb' 0 4))

/-- Rule R75. -/
def decodeWrreg (w : Word) : Except Illegal Instr :=
  if auxOf w ≠ 0 ∨ (aOf w).getLsbD 7 ∨ cOf w ≠ 0 then .error .mustBeZero
  else .ok (.wrreg (regOf w) (bOf w))

/-- Rule R76. -/
def decodeRmw (w : Word) : Except Illegal Instr :=
  if (auxOf w).extractLsb' 2 2 ≠ 0 ∨ (aOf w).getLsbD 7 then .error .mustBeZero
  else
    match slotOf ((auxOf w).extractLsb' 0 2) with
    | none => .error .reservedSlot
    | some slot =>
      if cOf w &&& ~~~(bOf w) ≠ 0 then .error .strayBits else .ok (.rmw (regOf w) (bOf w) (cOf w) slot)

/-- Rule R77, but for its condition on RLEN. -/
def decodeUnpk (w : Word) : Except Illegal Instr :=
  if (auxOf w).getLsbD 3 ∨ (aOf w).extractLsb' 3 5 ≠ 0 ∨ (bOf w).extractLsb' 2 6 ≠ 0 ∨ cOf w ≠ 0 then
    .error .mustBeZero
  else if (auxOf w).getLsbD 2 = false ∧ (auxOf w).getLsbD 1 = true then .error .orderOfOneByte
  else .ok (.unpk ((aOf w).extractLsb' 0 3) (widthOf ((auxOf w).getLsbD 2)) (byteOrderOf ((auxOf w).getLsbD 1))
    (signOf ((auxOf w).getLsbD 0)) (convOf ((bOf w).extractLsb' 0 2)))

/-- Rule R78. -/
def decodeIdchk (w : Word) : Except Illegal Instr :=
  if auxOf w ≠ 0 ∨ (aOf w).getLsbD 7 ∨ cOf w ≠ 0 then .error .mustBeZero
  else .ok (.idchk (regOf w) (bOf w))

/-- The decoder: every word is one legal command or illegal (rule R71). -/
def decode (w : Word) : Except Illegal Instr :=
  if opcOf w = 1 then decodeSwrd w
  else if opcOf w = 2 then decodeRdreg w
  else if opcOf w = 3 then decodeXfer w
  else if opcOf w = 4 then decodeWrreg w
  else if opcOf w = 5 then decodeRmw w
  else if opcOf w = 6 then decodeUnpk w
  else if opcOf w = 7 then decodeIdchk w
  else .error .reservedOpcode

/-- The word with the five fields of rule R70. -/
def mkWord (opc aux : BitVec 4) (a b c : Byte) : Word := opc ++ aux ++ a ++ b ++ c

/-- The bit of W (rule R73). -/
def Width.bit : Width → Bool
  | .one => false
  | .two => true

/-- The bit of ORDER (rule R77). -/
def ByteOrder.bit : ByteOrder → Bool
  | .be => false
  | .le => true

/-- The bit of SIGN (rule R77). -/
def Signedness.bit : Signedness → Bool
  | .unsigned => false
  | .signed => true

/-- The code of CONV (rule R80). -/
def Conv.code : Conv → BitVec 2
  | .raw => 0
  | .tenths => 1
  | .sc1 => 2
  | .sc2 => 3

/-- The code of SLOT (rule R80). -/
def Slot.code : Slot → BitVec 2
  | .none => 0
  | .s1 => 1
  | .s2 => 2

/-- Field A of a command whose operand is a register address: A[7] is 0 (rule R73). -/
def regField (reg : RegAddr) : Byte := 0#1 ++ reg

/-- The word of a command, from the summary table of rule R72 to rule R78. -/
def encode : Instr → Word
  | .swrd => mkWord 1 0 0 0 0
  | .rdreg reg w inc => mkWord 2 (0#2 ++ BitVec.ofBool w.bit ++ BitVec.ofBool inc) (regField reg) 0 0
  | .xfer nreq nresp => mkWord 3 (0#2 ++ nreq) (0#4 ++ nresp) 0 0
  | .wrreg reg value => mkWord 4 0 (regField reg) value 0
  | .rmw reg mask bits slot => mkWord 5 (0#2 ++ slot.code) (regField reg) mask bits
  | .unpk off w order sign conv =>
    mkWord 6 (0#1 ++ BitVec.ofBool w.bit ++ BitVec.ofBool order.bit ++ BitVec.ofBool sign.bit) (0#5 ++ off)
      (0#6 ++ conv.code) 0
  | .idchk reg expect => mkWord 7 0 (regField reg) expect 0

/-- The word whose bits are the lowest `nbits` bits of `w`, as spec/opcode_table.json numbers them; bits above are 0. -/
def tableWord (nbits w : Nat) : Word := BitVec.ofNat 32 (w % 2 ^ nbits)

/-- The instruction the decoder reads from a word of the opcode table. -/
def decodeTableWord (nbits w : Nat) : Option Instr :=
  match decode (tableWord nbits w) with
  | .ok i => some i
  | .error _ => none

end Sys2Proof
end

