-- ==== Sys2Proof/Machine/Operands.lean ====
section
/-! DEFINITION. Operand forms: how operands become bytes on the transport (rule R79), how answers fill RESP (rule R22), how
received bits fill B (rule R109), and the values computed from them (rule R111, rule R133, rule R136). -/

namespace Sys2Proof.Machine

/-- The request byte of a register read, reg with the burst flag in bit 7 when asked for (rule R54, rule R79 (a)). -/
def requestByte (reg : RegAddr) (inc : Bool) : Byte := BitVec.ofBool inc ++ reg

/-- The three request bytes that ARG holds, low byte first (rule R32, rule R79 (b)). -/
def argBytes (arg : Word) : List Byte :=
  [arg.extractLsb' 0 8, arg.extractLsb' 8 8, arg.extractLsb' 16 8]

/-- The divisor operand of RMW, ARG[7:0] (rule R76). -/
def argDivisor (arg : Word) : Byte := arg.extractLsb' 0 8

/-- n = 1 + W (rule R77, rule R130). -/
def widthBytes : Width → Nat
  | .one => 1
  | .two => 2

/-- Byte k of an answer's TR_RDATA field (rule R53). -/
def answerByte (rdata : BitVec 64) (k : Nat) : Byte := rdata.extractLsb' (8 * k) 8

/-- RESP after an answer of m bytes: RESP[k] is byte k of the answer for k < m, the others stay (rule R22, rule R130). -/
def fillResp (m : Nat) (rdata : BitVec 64) (resp : Vector Byte 8) : Vector Byte 8 :=
  Vector.ofFn fun k => if k.val < m then answerByte rdata k.val else resp[k]

/-- RESP[k]; every k a legal command asks for is below 8 (rule R135). -/
def respByte (resp : Vector Byte 8) (k : Nat) : Byte := resp[k]?.getD 0

/-- `T_WTR(ADDR, [q], m)` of RDREG (rule R130). -/
def rdregRequest (addr : BusAddr) (reg : RegAddr) (w : Width) (inc : Bool) : Request :=
  .writeThenRead addr [requestByte reg inc] (widthBytes w)

/-- `T_WTR(ADDR, req, NRESP)` of XFER (rule R131). -/
def xferRequest (addr : BusAddr) (arg : Word) (nreq : BitVec 2) (nresp : BitVec 4) : Request :=
  .writeThenRead addr ((argBytes arg).take nreq.toNat) nresp.toNat

/-- `T_WTR(ADDR, [zext_8(reg)], 1)` of RMW and IDCHK (rule R133, rule R134). -/
def readRequest (addr : BusAddr) (reg : RegAddr) : Request :=
  .writeThenRead addr [requestByte reg false] 1

/-- `T_W(ADDR, [zext_8(reg), value])` of WRREG and RMW (rule R132, rule R133). -/
def writeRequest (addr : BusAddr) (reg : RegAddr) (value : Byte) : Request :=
  .write addr [requestByte reg false, value]

/-- NEWVAL, the old value with the bits under the mask replaced (rule R133). -/
def mergeBits (old mask bits : Byte) : Byte := (old &&& ~~~mask) ||| bits

/-- `Assemble(bytes, ORDER, SIGN)` of one byte or two (rule R136). -/
def assemble (w : Width) (first second : Byte) (order : ByteOrder) (sign : Signedness) : Word :=
  match w, order, sign with
  | .one, _, .unsigned => first.setWidth 32
  | .one, _, .signed => first.signExtend 32
  | .two, .be, .unsigned => (first ++ second).setWidth 32
  | .two, .be, .signed => (first ++ second).signExtend 32
  | .two, .le, .unsigned => (second ++ first).setWidth 32
  | .two, .le, .signed => (second ++ first).signExtend 32

/-- The divisor UNPK copies: the slot its conversion names, else 0 (rule R135). -/
def divisorOf (conv : Conv) (s1 s2 : Byte) : Byte :=
  match conv with
  | .raw => 0
  | .tenths => 0
  | .sc1 => s1
  | .sc2 => s2

/-- The bytes an UNPK asks for have been received: OFF + n ≤ RLEN (rule R77). RLEN never exceeds 8, and a byte beyond
RESP[7] is always refused (rule R135). -/
def unpackInRange (off : BitVec 3) (w : Width) (rlen : BitVec 4) : Bool :=
  decide (off.toNat + widthBytes w ≤ rlen.toNat ∧ off.toNat + widthBytes w ≤ 8)

/-- B after data bit number k: byte k div 8 is shifted left and receives the bit (rule R109). -/
def shiftIn (b : Vector Byte 5) (k : Nat) (bit : Bool) : Vector Byte 5 :=
  Vector.ofFn fun i => if i.val = k / 8 then (b[i] <<< 1) ||| (BitVec.ofBool bit).setWidth 8 else b[i]

/-- HUM_T = 10 × u(B[0]) + u(B[1]) (rule R111). -/
def humidityOf (b : Vector Byte 5) : BitVec 12 := BitVec.ofNat 12 (10 * b[0].toNat + b[1].toNat)

/-- MAG = 10 × u(B[2] & 0x7F) + u(B[3]) (rule R111). -/
def magnitudeOf (b : Vector Byte 5) : Nat := 10 * (b[2] &&& 0x7F).toNat + b[3].toNat

/-- NEG = B[2][7] (rule R111). -/
def negOf (b : Vector Byte 5) : Bool := b[2].getLsbD 7

/-- TEMP_T: MAG, negated when NEG = 1, as a 16-bit two's-complement value (rule R111). -/
def temperatureOf (b : Vector Byte 5) : BitVec 16 :=
  BitVec.ofInt 16 (if negOf b then -(magnitudeOf b : Int) else (magnitudeOf b : Int))

end Sys2Proof.Machine
end

