-- ==== Sys2Proof/Machine/Ops.lean ====
section
/-! DEFINITION. The named operations over the state: the primitives of rule R10, completion, refusal, and the abort that
ends a command with an error (rule R170), with the accept that clears the error again (rule R172). -/

namespace Sys2Proof.Machine

/-- Enter an output, newest first (note 8). -/
def emit (o : Output) (s : State) : State := { s with out := o :: s.out }

/-- The next pin answer: the head of the listed answers, or the free value of that position (rule R12, note 4). -/
def pinAnswer (s : State) : Config.PinAnswer :=
  match s.pin with
  | a :: _ => a
  | [] => Config.pinStream s.pinIndex

/-- `Wait(n)`: HOLD counts n ticks down to 0; nothing else changes (rule R104, note 9). -/
def wait (n : Nat) (s : State) : State := { s with hold := 0, out := .wait n :: s.out }

/-- `PinRelease()` (rule R103). -/
def pinRelease (s : State) : State := { s with pinmode := .sample, out := .release :: s.out }

/-- `PinDrive(l)`: the mode and level change, then one answer is taken (rule R101). The answer is `pinAnswer s`. -/
def pinDrive (l : Bool) (s : State) : State :=
  { s with pinmode := .drive, pinout := l, pin := s.pin.tail, pinIndex := s.pinIndex + 1, out := .drive l :: s.out }

/-- `PinSample()`: one answer is taken (rule R102). The answer is `pinAnswer s`. -/
def pinSample (s : State) : State :=
  { s with pin := s.pin.tail, pinIndex := s.pinIndex + 1, out := .sample :: s.out }

/-- Successful completion: ERR <- 0, DONE <- 1, PHASE <- IDLE (rule R26). -/
def complete (s : State) : State := { s with err := .none, done := true, phase := .idle }

/-- A command ends with error E (rule R170): ERR <- code(E), DONE <- 1, PHASE <- IDLE, and if the command is SWRD the pin
is released first. Nothing is saved and control goes nowhere. -/
def abort (e : ErrCode) (s : State) : State :=
  if s.phase.singleWire then { pinRelease s with err := e, done := true, phase := .idle }
  else { s with err := e, done := true, phase := .idle }

/-- An illegal command is refused: ERR <- 5, DONE <- 1, nothing else changes (rule R26, rule R164). -/
def refuse (s : State) : State := { s with err := .illcmd, done := true }

/-- The first part of an accept: CMD <- w, DONE <- 0, ERR <- 0 (rule R26). This is also all there is of a return from an
error: the next accept clears it (rule R172). -/
def acceptWord (w : Word) (s : State) : State := { s with cmd := w, done := false, err := .none }

/-- The accept actions shared by RDREG, XFER, RMW and IDCHK: RESP[0..7] <- 0, RLEN <- 0, PHASE <- RC_RD (rule R22). -/
def beginRead (s : State) : State :=
  { s with resp := #v[0, 0, 0, 0, 0, 0, 0, 0], rlen := 0, phase := .rcRd }

/-- An answer of m bytes is stored: RESP[k] for k < m, RLEN <- m (rule R22). -/
def storeResponse (m : Nat) (rdata : BitVec 64) (s : State) : State :=
  { s with resp := fillResp m rdata s.resp, rlen := BitVec.ofNat 4 m }

/-- One transport primitive: the request is answered by the next transport answer; `Fail` raises BusError (rule R51, rule
R52, rule R160), `Ok` goes on with `onOk`. While no answer has arrived nothing changes (rule R147, note 5). -/
def transact (r : Request) (onOk : BitVec 64 → State → State) (s : State) : Result :=
  match s.bus with
  | [] => .next s
  | a :: rest =>
    if a.fail then .next (abort .bus { s with bus := rest, out := .transport r :: s.out })
    else .next (onOk a.rdata { s with bus := rest, out := .transport r :: s.out })

/-- A command whose operands are illegal is refused, any other starts (rule R71, rule R82). -/
def startIf (legal : Bool) (start : State → State) (s : State) : Result :=
  if legal then .next (start s) else .next (refuse s)

end Sys2Proof.Machine
end

