-- ==== Sys2Proof/Machine/RegisterCodec.lean ====
section
/-! DEFINITION. The transport commands of the register codec engine: RDREG, XFER, WRREG, RMW, IDCHK (rule R130 to rule R134,
phases by rule R147). -/

namespace Sys2Proof.Machine

/-- RDREG (rule R130): the accept in IDLE, the `T_WTR` in RC_RD. -/
def execRdreg (reg : RegAddr) (w : Width) (inc : Bool) (s : State) : Result :=
  match s.phase with
  | .idle => .next (beginRead s)
  | .rcRd =>
    transact (rdregRequest s.devAddr reg w inc) (fun d t => complete (storeResponse (widthBytes w) d t)) s
  | .rqH1 | .rqL | .rqH2 | .ackL | .ackH | .datL | .datH | .rcWr => .fault .noRow

/-- XFER (rule R131): refused at the accept when a count is out of range, else the `T_WTR` in RC_RD. -/
def execXfer (nreq : BitVec 2) (nresp : BitVec 4) (s : State) : Result :=
  match s.phase with
  | .idle => startIf (Instr.xfer nreq nresp).wellFormed beginRead s
  | .rcRd =>
    transact (xferRequest s.devAddr s.arg nreq nresp) (fun d t => complete (storeResponse nresp.toNat d t)) s
  | .rqH1 | .rqL | .rqH2 | .ackL | .ackH | .datL | .datH | .rcWr => .fault .noRow

/-- WRREG (rule R132): the accept in IDLE, the `T_W` in RC_WR. -/
def execWrreg (reg : RegAddr) (value : Byte) (s : State) : Result :=
  match s.phase with
  | .idle => .next { s with phase := .rcWr }
  | .rcWr => transact (writeRequest s.devAddr reg value) (fun _ t => complete t) s
  | .rqH1 | .rqL | .rqH2 | .ackL | .ackH | .datL | .datH | .rcRd => .fault .noRow

/-- The read of RMW has answered: old to RESP[0], RLEN <- 1, NEWVAL computed, PHASE <- RC_WR (rule R133 step 2). -/
def rmwMerge (mask bits : Byte) (d : BitVec 64) (s : State) : State :=
  { storeResponse 1 d s with newval := mergeBits (answerByte d 0) mask bits, phase := .rcWr }

/-- The write of RMW has answered `Ok`: the divisor is recorded in the slot (rule R133 step 3, rule R146). -/
def recordDivisor (slot : Slot) (s : State) : State :=
  match slot with
  | .none => s
  | .s1 => { s with s1 := argDivisor s.arg }
  | .s2 => { s with s2 := argDivisor s.arg }

/-- RMW (rule R133): refused at the accept when a bit lies outside the mask, else `T_WTR` in RC_RD and `T_W` in RC_WR. -/
def execRmw (reg : RegAddr) (mask bits : Byte) (slot : Slot) (s : State) : Result :=
  match s.phase with
  | .idle => startIf (Instr.rmw reg mask bits slot).wellFormed beginRead s
  | .rcRd => transact (readRequest s.devAddr reg) (rmwMerge mask bits) s
  | .rcWr => transact (writeRequest s.devAddr reg s.newval) (fun _ t => complete (recordDivisor slot t)) s
  | .rqH1 | .rqL | .rqH2 | .ackL | .ackH | .datL | .datH => .fault .noRow

/-- The read of IDCHK has answered: the byte to RESP[0], RLEN <- 1, IDOK by the comparison (rule R134). -/
def idchkJudge (expect : Byte) (d : BitVec 64) (s : State) : State :=
  { storeResponse 1 d s with idok := identityOk (answerByte d 0) expect }

/-- IDCHK (rule R134): the accept in IDLE clears IDOK, the `T_WTR` in RC_RD decides it. -/
def execIdchk (reg : RegAddr) (expect : Byte) (s : State) : Result :=
  match s.phase with
  | .idle => .next { beginRead s with idok := false }
  | .rcRd => transact (readRequest s.devAddr reg) (fun d t => complete (idchkJudge expect d t)) s
  | .rqH1 | .rqL | .rqH2 | .ackL | .ackH | .datL | .datH | .rcWr => .fault .noRow

end Sys2Proof.Machine
end

