-- ==== Sys2Proof/Machine/SingleWire.lean ====
section
/-! DEFINITION. The single-wire unit: SWRD step by step, the rows of the table of rule R120. -/

namespace Sys2Proof.Machine

/-- Step 1 of SWRD, done at the accept (rule R118). -/
def swrdAccept (s : State) : State :=
  { s with
    valid := false, humT := 0, tempT := 0, neg := false, b := #v[0, 0, 0, 0, 0], bitcnt := 0, cnt := 0, lowdur := 0,
    phase := .rqH1 }

/-- A row of the request phase: drive the level; `Fault` aborts with PinError, `Ok` holds and goes on (rule R107). -/
def requestStep (l : Bool) (onOk : State → State) (s : State) : Result :=
  if (pinAnswer s).fault then .next (abort .pin (pinDrive l s)) else .next (onOk (pinDrive l s))

/-- A row of a measurement at level l: one sample, looked at in the order fault, level, budget (rule R105, rule R168).
`onEdge` is what the sample at the other level does. -/
def measureStep (l : Bool) (onEdge : State → Result) (s : State) : Result :=
  if (pinAnswer s).fault then .next (abort .pin (pinSample s))
  else if (pinAnswer s).level ≠ l then onEdge (pinSample s)
  else if s.cnt + 1 < s.params.budget then .next { wait 1 (pinSample s) with cnt := s.cnt + 1 }
  else if s.cnt + 1 = s.params.budget then .next (abort .timeout (wait 1 (pinSample s)))
  else .fault .noRow

/-- The low measurement ends: LOWDUR <- CNT, CNT <- 0, and the high measurement starts (rule R106). -/
def lowEnds (next : Phase) (s : State) : Result := .next { s with lowdur := s.cnt, cnt := 0, phase := next }

/-- The acknowledgement bit ends: it is discarded (rule R108). -/
def ackEnds (s : State) : Result := .next { s with cnt := 0, phase := .datL }

/-- Shift the bit just decoded into B and count it (rule R106, rule R109). -/
def shiftBit (s : State) : State :=
  { s with b := shiftIn s.b s.bitcnt.toNat (pulseBit s.lowdur s.cnt), bitcnt := s.bitcnt + 1 }

/-- The results of a good frame, written in one step (rule R111, rule R118 step 7). -/
def publish (s : State) : State :=
  { s with humT := humidityOf s.b, tempT := temperatureOf s.b, neg := negOf s.b, valid := true }

/-- Step 7 of SWRD: the checksum gates the results (rule R113, rule R118). -/
def finish (s : State) : State :=
  if checksumOk s.b then complete (publish s) else abort .crc s

/-- A data bit ends: the next bit follows, or after bit 39 the frame is judged (rule R120). -/
def dataEnds (s : State) : Result :=
  if s.bitcnt.toNat < 39 then .next { shiftBit s with cnt := 0, phase := .datL }
  else if s.bitcnt.toNat = 39 then .next (finish (shiftBit s))
  else .fault .noRow

/-- SWRD: the accept in IDLE, and one row of rule R120 in each later phase (rule R118). -/
def execSwrd (s : State) : Result :=
  match s.phase with
  | .idle => .next (swrdAccept s)
  | .rqH1 => requestStep true (fun t => { wait t.params.holdIdle t with phase := .rqL }) s
  | .rqL => requestStep false (fun t => { wait t.params.holdLow t with phase := .rqH2 }) s
  | .rqH2 => requestStep true (fun t => { pinRelease (wait t.params.holdGo t) with cnt := 0, phase := .ackL }) s
  | .ackL => measureStep false (lowEnds .ackH) s
  | .ackH => measureStep true ackEnds s
  | .datL => measureStep false (lowEnds .datH) s
  | .datH => measureStep true dataEnds s
  | .rcRd => .fault .noRow
  | .rcWr => .fault .noRow

end Sys2Proof.Machine
end

