-- ==== Sys2Proof/Machine/Unpack.lean ====
section
/-! DEFINITION. UNPK, the byte unpacker (rule R135): it uses no primitive and completes in its accept step. -/

namespace Sys2Proof.Machine

/-- The effect of a legal UNPK (rule R135). -/
def unpack (off : BitVec 3) (w : Width) (order : ByteOrder) (sign : Signedness) (conv : Conv) (s : State) : State :=
  { s with
    data := assemble w (respByte s.resp off.toNat) (respByte s.resp (off.toNat + 1)) order sign
    conv := conv
    ddiv := divisorOf conv s.s1 s.s2
    dvalid := true
    err := .none
    done := true }

/-- UNPK (rule R135): refused when the bytes asked for have not been received or a one-byte value is given an order. -/
def execUnpk (off : BitVec 3) (w : Width) (order : ByteOrder) (sign : Signedness) (conv : Conv) (s : State) : Result :=
  match s.phase with
  | .idle =>
    startIf ((Instr.unpk off w order sign conv).wellFormed && unpackInRange off w s.rlen)
      (unpack off w order sign conv) s
  | .rqH1 | .rqL | .rqH2 | .ackL | .ackH | .datL | .datH | .rcRd | .rcWr => .fault .noRow

end Sys2Proof.Machine
end

