-- ==== Sys2Proof/Machine/Dispatch.lean ====
section
/-! DEFINITION. One step of a command: its accept when PHASE is IDLE, else its next primitive (note 1). -/

namespace Sys2Proof.Machine

def exec (i : Instr) (s : State) : Host.Outcome State Fault Refusal :=
  match i with
  | .swrd => Sys2Proof.Machine.execSwrd s
  | .rdreg reg w inc => Sys2Proof.Machine.execRdreg reg w inc s
  | .xfer nreq nresp => Sys2Proof.Machine.execXfer nreq nresp s
  | .wrreg reg value => Sys2Proof.Machine.execWrreg reg value s
  | .rmw reg mask bits slot => Sys2Proof.Machine.execRmw reg mask bits slot s
  | .unpk off w order sign conv => Sys2Proof.Machine.execUnpk off w order sign conv s
  | .idchk reg expect => Sys2Proof.Machine.execIdchk reg expect s

end Sys2Proof.Machine
end

