-- ==== Sys2Proof/Machine/Registers.lean ====
section
/-! DEFINITION. The host's view of the state: the thirteen registers of rule R30 as words, and what a host read returns. -/

namespace Sys2Proof.Machine

/-- STATUS (rule R33): PHASE 15:12, RLEN 11:8, REJ 7, IDOK 6, VALID 5, ERR 4:2, DONE 1, BUSY 0. -/
def State.statusWord (s : State) : Word :=
  0#16 ++ s.phase.code ++ s.rlen ++ BitVec.ofBool s.rej ++ BitVec.ofBool s.idok ++ BitVec.ofBool s.valid ++ s.err.code ++
    BitVec.ofBool s.done ++ BitVec.ofBool s.busy

/-- DEV_ADDR (rule R34). -/
def State.devAddrWord (s : State) : Word := s.devAddr.setWidth 32

/-- SCALE (rule R35): S2 15:8, S1 7:0. -/
def State.scaleWord (s : State) : Word := 0#16 ++ s.s2 ++ s.s1

/-- DATA_META (rule R36): DVALID 31, DDIV 15:8, CONV 1:0. -/
def State.metaWord (s : State) : Word := BitVec.ofBool s.dvalid ++ 0#15 ++ s.ddiv ++ 0#6 ++ s.conv.code

/-- RESP_LO (rule R37). -/
def State.respLoWord (s : State) : Word := s.resp[3] ++ s.resp[2] ++ s.resp[1] ++ s.resp[0]

/-- RESP_HI (rule R37). -/
def State.respHiWord (s : State) : Word := s.resp[7] ++ s.resp[6] ++ s.resp[5] ++ s.resp[4]

/-- SW_HUM (rule R38). -/
def State.humWord (s : State) : Word := s.humT.setWidth 32

/-- SW_TEMP (rule R38): NEG 16, TEMP_T 15:0. -/
def State.tempWord (s : State) : Word := 0#15 ++ BitVec.ofBool s.neg ++ s.tempT

/-- SW_FRAME_LO (rule R39). -/
def State.frameLoWord (s : State) : Word := s.b[3] ++ s.b[2] ++ s.b[1] ++ s.b[0]

/-- SW_FRAME_HI (rule R39): BITCNT 13:8, B[4] 7:0. -/
def State.frameHiWord (s : State) : Word := 0#18 ++ s.bitcnt ++ s.b[4]

/-- HRDATA of a read at a word address (rule R30, rule R40): offset = 4 × address; reserved offsets read 0. -/
def hostRead (addr : HostAddr) (s : State) : Word :=
  match addr.toNat with
  | 0 => s.cmd
  | 1 => s.arg
  | 2 => s.statusWord
  | 3 => s.devAddrWord
  | 4 => s.scaleWord
  | 5 => s.data
  | 6 => s.metaWord
  | 7 => s.respLoWord
  | 8 => s.respHiWord
  | 9 => s.humWord
  | 10 => s.tempWord
  | 11 => s.frameLoWord
  | 12 => s.frameHiWord
  | _ => 0

end Sys2Proof.Machine
end

