-- ==== Sys2Proof/Machine/HostPort.lean ====
section
/-! DEFINITION. What moves the block: a host write, a host read, reset, or the sequencer (rule R11, rule R26, rule R29, rule
R40, rule R64, rule R190). Fetching a command is the accept: the word comes from the host's write, and while the command
runs it is CMD (rule R20, rule R26). -/

namespace Sys2Proof.Machine

/-- The accept of a word (rule R26): it is stored, then decoded; an illegal word is refused, a legal one starts. -/
def accept (w : Word) (s : State) : Result :=
  match decode w with
  | .ok i => exec i (acceptWord w s)
  | .error _ => .next (refuse (acceptWord w s))

/-- A host write dropped because a command runs (rule R29). -/
def reject (s : State) : State := { s with rej := rejNext true false s.rej }

/-- A host write to CMD (rule R31, rule R167). -/
def writeCmd (w : Word) (s : State) : Result := if s.busy then .next (reject s) else accept w s

/-- A host write to ARG (rule R32). -/
def writeArg (w : Word) (s : State) : State := if s.busy then reject s else { s with arg := w }

/-- A host write to STATUS: bit 7 equal to 1 clears REJ, nothing else happens (rule R29). -/
def writeStatus (w : Word) (s : State) : State := { s with rej := rejNext false (w.getLsbD 7) s.rej }

/-- A host write to DEV_ADDR: only bits 6:0 are stored (rule R34). -/
def writeDevAddr (w : Word) (s : State) : State :=
  if s.busy then reject s else { s with devAddr := w.extractLsb' 0 7 }

/-- A host write at a word address; read-only and reserved offsets change nothing (rule R40). -/
def hostWrite (addr : HostAddr) (w : Word) (s : State) : Result :=
  if addr = 0 then writeCmd w s
  else if addr = 1 then .next (writeArg w s)
  else if addr = 2 then .next (writeStatus w s)
  else if addr = 3 then .next (writeDevAddr w s)
  else .next s

/-- RST_N: every element takes its reset value; what is outside the block stays (rule R190, rule R193, rule R194). -/
def resetBlock (s : State) : State :=
  { State.reset with
    params := s.params, inputs := s.inputs, pin := s.pin, pinIndex := s.pinIndex, bus := s.bus, out := s.out }

/-- One move of the sequencer: none while idle (rule R192), else the next step of the command in CMD (rule R120, rule
R147). -/
def sequencerStep (s : State) : Result :=
  if s.phase = .idle then .next s
  else
    match decode s.cmd with
    | .ok i => exec i s
    | .error _ => .fault .runningWordIllegal

/-- What one input does (rule R64). -/
def takeInput (i : Input) (s : State) : Result :=
  match i with
  | .reset => .next (resetBlock s)
  | .read addr => .next (emit (.hostRead addr (hostRead addr s)) s)
  | .write addr w => hostWrite addr w s
  | .none => sequencerStep s

end Sys2Proof.Machine
end

