-- ==== Sys2Proof/Machine/Step.lean ====
section
/-! DEFINITION. One step of the block: the next input is served, and with none left the sequencer moves (note 3). -/

namespace Sys2Proof.Machine

/-- One step (rule R64): an input is taken from the list and served; when the list is empty the sequencer moves. -/
def step (s : State) : Host.Outcome State Fault Refusal :=
  match s.inputs with
  | [] => sequencerStep s
  | i :: rest => takeInput i { s with inputs := rest }

/-- `s` with the host about to write the table's word to CMD while the block is idle, so that the next step accepts it
(note 2). -/
def State.withFetchWord (s : State) (nbits w : Nat) : State :=
  { s with phase := .idle, inputs := .write 0 (tableWord nbits w) :: s.inputs }

end Sys2Proof.Machine
end

