-- ==== Sys2Proof/Machine/Assembler.lean ====
section
/-! DEFINITION. The assembler syntax and the host pseudo-operations (rule R84 to rule R87): the word each command line
assembles to, and the host accesses each line stands for. They belong to the host; the block sees only the accesses. -/

namespace Sys2Proof.Machine

/-- A command line as written, operands as numbers (rule R85). -/
inductive CommandLine where
  | swrd
  | rdreg (reg n inc : Nat)
  | xfer (nreq nresp : Nat)
  | wrreg (reg value : Nat)
  | rmw (reg mask bits slot : Nat)
  | unpk (off n : Nat) (order : ByteOrder) (sign : Signedness) (conv : Conv)
  | idchk (reg expect : Nat)
  /-- `.word x`, an arbitrary 32-bit word, for testing refusals. -/
  | word (x : Nat)
deriving DecidableEq, Repr

/-- n in 1, 2 as W = n - 1 (rule R85). -/
def widthOfCount (n : Nat) : Option Width := if n = 1 then some .one else if n = 2 then some .two else none

/-- The word a line assembles to; operand values outside the stated sets or the field are refused (rule R85). -/
def CommandLine.word? : CommandLine → Option Word
  | .swrd => some (encode .swrd)
  | .rdreg reg n inc =>
    match widthOfCount n with
    | none => none
    | some w => if reg < 128 ∧ inc < 2 then some (encode (.rdreg (BitVec.ofNat 7 reg) w (inc == 1))) else none
  | .xfer nreq nresp =>
    if nreq < 4 ∧ nresp < 16 then some (encode (.xfer (BitVec.ofNat 2 nreq) (BitVec.ofNat 4 nresp))) else none
  | .wrreg reg value =>
    if reg < 128 ∧ value < 256 then some (encode (.wrreg (BitVec.ofNat 7 reg) (BitVec.ofNat 8 value))) else none
  | .rmw reg mask bits slot =>
    match slotOf (BitVec.ofNat 2 slot) with
    | none => none
    | some sl =>
      if reg < 128 ∧ mask < 256 ∧ bits < 256 ∧ slot < 3 then
        some (encode (.rmw (BitVec.ofNat 7 reg) (BitVec.ofNat 8 mask) (BitVec.ofNat 8 bits) sl))
      else none
  | .unpk off n order sign conv =>
    match widthOfCount n with
    | none => none
    | some w => if off < 8 then some (encode (.unpk (BitVec.ofNat 3 off) w order sign conv)) else none
  | .idchk reg expect =>
    if reg < 128 ∧ expect < 256 then some (encode (.idchk (BitVec.ofNat 7 reg) (BitVec.ofNat 8 expect))) else none
  | .word x => if x < 2 ^ 32 then some (BitVec.ofNat 32 x) else none

/-- A line whose whole effect on the block is a fixed list of accesses (rule R86). -/
inductive HostLine where
  /-- A command line; the accesses end with the CMD write (the polling that follows it is `waitOver`). -/
  | issue (line : CommandLine)
  /-- `SETADDR a`. -/
  | setaddr (a : BusAddr)
  /-- `LDARG x`. -/
  | ldarg (x : Word)
  /-- `LDARG b0, b1, b2`. -/
  | ldargBytes (b0 b1 b2 : Byte)
  /-- `CLRREJ`. -/
  | clrrej
  /-- `RD name`, the register given by its word address. -/
  | rd (addr : HostAddr)
deriving DecidableEq, Repr

/-- The host accesses of a line; `none` when the assembler refuses it (rule R86). -/
def HostLine.accesses : HostLine → Option (List Input)
  | .issue line =>
    match line.word? with
    | none => none
    | some w => some [.write 0 w]
  | .setaddr a => some [.write 3 (a.setWidth 32)]
  | .ldarg x => some [.write 1 x]
  | .ldargBytes b0 b1 b2 => some [.write 1 (0#8 ++ b2 ++ b1 ++ b0)]
  | .clrrej => some [.write 2 0x80]
  | .rd addr => some [.read addr]

/-- `WAIT` is over when the STATUS just read has DONE = 1 (rule R86). -/
def waitOver (status : Word) : Bool := status.getLsbD 1

/-- `IFERR` jumps when ERR ≠ 0 in the last STATUS read (rule R86). -/
def ifErrJumps (status : Word) : Bool := status.extractLsb' 2 3 != 0

/-- `IFNOK` jumps when IDOK = 0 in the last STATUS read (rule R86). -/
def ifNokJumps (status : Word) : Bool := !status.getLsbD 6

/-- `RD16 reg, order, sign, conv` (rule R87). -/
def rd16 (reg : Nat) (order : ByteOrder) (sign : Signedness) (conv : Conv) : List HostLine :=
  [.issue (.rdreg reg 2 1), .issue (.unpk 0 2 order sign conv)]

/-- `RD8 reg, sign, conv` (rule R87). -/
def rd8 (reg : Nat) (sign : Signedness) (conv : Conv) : List HostLine :=
  [.issue (.rdreg reg 1 0), .issue (.unpk 0 1 .be sign conv)]

/-- `SETFSR reg, mask, bits, slot, div` (rule R87). -/
def setfsr (reg mask bits slot : Nat) (div : Byte) : List HostLine :=
  [.ldarg (div.setWidth 32), .issue (.rmw reg mask bits slot)]

/-- `RDA`, sensor A's read (rule R87, rule R60). -/
def rda : List HostLine := [.ldargBytes 0x03 0x00 0x04, .issue (.xfer 3 8)]

end Sys2Proof.Machine
end

