-- ==== Sys2Proof/Machine/Physical.lean ====
section
/-! DEFINITION. Physical values as exact rationals of the host-visible fields (rule R112, rule R143 to rule R145). They are
formed outside the block; FS_CONST is an argument (rule R7). -/

namespace Sys2Proof.Machine

/-- Relative humidity in percent, defined only when VALID = 1 (rule R112). -/
def State.humidityPercent (s : State) : Option Rat :=
  if s.valid then some ((s.humT.toNat : Rat) / Config.tenthsDiv) else none

/-- Temperature in degrees Celsius, defined only when VALID = 1 (rule R112). -/
def State.temperatureCelsius (s : State) : Option Rat :=
  if s.valid then some ((s.tempT.toInt : Rat) / Config.tenthsDiv) else none

/-- The physical value of (DATA, CONV, DDIV), with r = s_32(DATA): r, r / 10, or r × DDIV / FS_CONST (rule R143, rule R144,
rule R145). -/
def physicalValue (fs : Config.FsConst) (data : Word) (conv : Conv) (ddiv : Byte) : Rat :=
  match conv with
  | .raw => (data.toInt : Rat)
  | .tenths => (data.toInt : Rat) / Config.tenthsDiv
  | .sc1 => (data.toInt : Rat) * ddiv.toNat / fs.value
  | .sc2 => (data.toInt : Rat) * ddiv.toNat / fs.value

/-- The register-codec Measurement's value, read while DVALID = 1 (rule R143). -/
def State.measurement (fs : Config.FsConst) (s : State) : Option Rat :=
  if s.dvalid then some (physicalValue fs s.data s.conv s.ddiv) else none

end Sys2Proof.Machine
end

