-- ==== Sys2Proof/Machine/Ports.lean ====
section
/-! DEFINITION. The output signals of the two ports, as functions of the state (rule R44, rule R53, rule R100). -/

namespace Sys2Proof.Machine

/-- PIN_OE (rule R100). -/
def State.pinOe (s : State) : Bool := decide (s.pinmode = .drive)

/-- PIN_OUT (rule R100). -/
def State.pinOut (s : State) : Bool := s.pinout

/-- The request presented in RC_RD by the command in CMD (rule R44, rule R147). -/
def readRequestOf (i : Instr) (s : State) : Option Request :=
  match i with
  | .swrd => none
  | .rdreg reg w inc => some (rdregRequest s.devAddr reg w inc)
  | .xfer nreq nresp => some (xferRequest s.devAddr s.arg nreq nresp)
  | .wrreg _ _ => none
  | .rmw reg _ _ _ => some (readRequest s.devAddr reg)
  | .unpk _ _ _ _ _ => none
  | .idchk reg _ => some (readRequest s.devAddr reg)

/-- The request presented in RC_WR by the command in CMD (rule R44, rule R147). -/
def writeRequestOf (i : Instr) (s : State) : Option Request :=
  match i with
  | .swrd => none
  | .rdreg _ _ _ => none
  | .xfer _ _ => none
  | .wrreg reg value => some (writeRequest s.devAddr reg value)
  | .rmw reg _ _ _ => some (writeRequest s.devAddr reg s.newval)
  | .unpk _ _ _ _ _ => none
  | .idchk _ _ => none

/-- The outstanding transport request, described fully by CMD, ARG, DEV_ADDR, PHASE and NEWVAL (rule R44). -/
def State.request (s : State) : Option Request :=
  match decode s.cmd with
  | .error _ => none
  | .ok i =>
    match s.phase with
    | .rcRd => readRequestOf i s
    | .rcWr => writeRequestOf i s
    | .idle | .rqH1 | .rqL | .rqH2 | .ackL | .ackH | .datL | .datH => none

/-- TR_REQ (rule R53), as seen in the states between steps. DESIGN CHOICE (note 29): the drop after an answer falls inside the
step that takes it, so between the two transfers of RMW no state shows TR_REQ = 0, and RC_WR presents its request at once.
Unsafe for a statement on the clocks between the two requests, which rule R210 leaves unfixed. -/
def State.trReq (s : State) : Bool := s.request.isSome

/-- TR_KIND: 0 for `T_WTR`, 1 for `T_W` (rule R53). -/
def Request.kind : Request → Bool
  | .writeThenRead _ _ _ => false
  | .write _ _ => true

/-- TR_ADDR[6:0] (rule R53). -/
def Request.addr : Request → BusAddr
  | .writeThenRead addr _ _ => addr
  | .write addr _ => addr

/-- The bytes to write, first sent first. -/
def Request.bytes : Request → List Byte
  | .writeThenRead _ bytes _ => bytes
  | .write _ bytes => bytes

/-- TR_WLEN[1:0] (rule R53). -/
def Request.writeLength (r : Request) : BitVec 2 := BitVec.ofNat 2 r.bytes.length

/-- TR_WDATA[23:0], byte k at bits 8k+7:8k (rule R53). The places beyond TR_WLEN bytes show a free value (note 28). -/
def Request.writeData (r : Request) : BitVec 24 :=
  r.bytes.getD 2 (Config.unsentByte r.bytes 2) ++ r.bytes.getD 1 (Config.unsentByte r.bytes 1) ++
    r.bytes.getD 0 (Config.unsentByte r.bytes 0)

/-- TR_RLEN[3:0], 0 for `T_W` (rule R53). -/
def Request.readLength : Request → BitVec 4
  | .writeThenRead _ _ count => BitVec.ofNat 4 count
  | .write _ _ => 0

end Sys2Proof.Machine
end

