-- ==== Sys2Proof/Machine/Reference.lean ====
section
/-! DEFINITION. The single-wire read as the pseudocode of rule R105, rule R106 and rule R118 gives it, over a stream of pin
answers: the clear form that the step table of rule R120 is to agree with. -/

namespace Sys2Proof.Machine

/-- The pin stream from this state on (rule R12): the listed answers, then the free values (note 4). -/
def State.stream (s : State) (k : Nat) : Config.PinAnswer := s.pin[k]?.getD (Config.pinStream (s.pinIndex + k))

/-- The loop of `Measure(l)`: `fuel` samples are left, `c` is the index of the next one, `p` its position in the stream. The
result is the duration or the error, and the position after the last sample taken (rule R105). -/
def measureFrom (stream : Nat → Config.PinAnswer) (l : Bool) : Nat → Nat → Nat → Except ErrCode Nat × Nat
  | 0, _, p => (.error .timeout, p)
  | fuel + 1, c, p =>
    if (stream p).fault then (.error .pin, p + 1)
    else if (stream p).level ≠ l then (.ok c, p + 1)
    else measureFrom stream l fuel (c + 1) (p + 1)

/-- `Measure(l)` from position p (rule R105). -/
def measure (budget : Nat) (stream : Nat → Config.PinAnswer) (l : Bool) (p : Nat) : Except ErrCode Nat × Nat :=
  measureFrom stream l budget 0 p

/-- `ReadBit()` from position p (rule R106). -/
def readBit (budget : Nat) (stream : Nat → Config.PinAnswer) (p : Nat) : Except ErrCode Bool × Nat :=
  match measure budget stream false p with
  | (.error e, q) => (.error e, q)
  | (.ok low, q) =>
    match measure budget stream true q with
    | (.error e, r) => (.error e, r)
    | (.ok high, r) => (.ok (pulseBit low high), r)

/-- What is left after some part of a read: the frame bytes, BITCNT, the number of answers taken, and the error if any. -/
structure ReadSoFar where
  b : Vector Byte 5
  bits : Nat
  taken : Nat
  err : ErrCode
deriving DecidableEq, Repr

/-- The data phase with `fuel` bits to go, from bit k at position p (rule R109). -/
def dataPhase (budget : Nat) (stream : Nat → Config.PinAnswer) : Nat → Nat → Vector Byte 5 → Nat → ReadSoFar
  | 0, k, b, p => { b := b, bits := k, taken := p, err := .none }
  | fuel + 1, k, b, p =>
    match readBit budget stream p with
    | (.error e, q) => { b := b, bits := k, taken := q, err := e }
    | (.ok bit, q) => dataPhase budget stream fuel (k + 1) (shiftIn b k bit) q

/-- Steps 1 to 6 of SWRD: the three drives, the acknowledgement bit, the data phase (rule R107, rule R108, rule R118). -/
def readFrame (budget : Nat) (stream : Nat → Config.PinAnswer) : ReadSoFar :=
  if (stream 0).fault then { b := #v[0, 0, 0, 0, 0], bits := 0, taken := 1, err := .pin }
  else if (stream 1).fault then { b := #v[0, 0, 0, 0, 0], bits := 0, taken := 2, err := .pin }
  else if (stream 2).fault then { b := #v[0, 0, 0, 0, 0], bits := 0, taken := 3, err := .pin }
  else
    match readBit budget stream 3 with
    | (.error e, q) => { b := #v[0, 0, 0, 0, 0], bits := 0, taken := q, err := e }
    | (.ok _, q) => dataPhase budget stream Config.frameBits 0 #v[0, 0, 0, 0, 0] q

/-- The outcome of a whole read: step 7 adds the checksum's verdict (rule R110, rule R118). -/
def readOutcome (budget : Nat) (stream : Nat → Config.PinAnswer) : ReadSoFar :=
  let r := readFrame budget stream
  if r.err = .none ∧ checksumOk r.b = false then { r with err := .crc } else r

end Sys2Proof.Machine
end

