-- ==== Sys2Proof/Safety.lean ====
section
/-! DEFINITION. What holds in every state a run from reset can reach (`Inv`), clause by clause with its rule, and the words
statements use about runs. -/

namespace Sys2Proof.Machine

/-- The phases a command passes through after its accept (rule R120, rule R147). -/
def runsIn (i : Instr) (p : Phase) : Bool :=
  match i with
  | .swrd => p.singleWire
  | .rdreg _ _ _ => p == .rcRd
  | .xfer _ _ => p == .rcRd
  | .wrreg _ _ => p == .rcWr
  | .rmw _ _ _ _ => p == .rcRd || p == .rcWr
  | .unpk _ _ _ _ _ => false
  | .idchk _ _ => p == .rcRd

/-- PHASE is one of those before the first data bit of SWRD (rule R107, rule R108). -/
def Phase.beforeData (p : Phase) : Bool :=
  p == .rqH1 || p == .rqL || p == .rqH2 || p == .ackL || p == .ackH

/-- PHASE is one of the data phase of SWRD (rule R109). -/
def Phase.inData (p : Phase) : Bool := p == .datL || p == .datH

/-- PHASE is one in which the pin is driven, the request phase after its first drive (rule R107, rule R103). -/
def Phase.drives (p : Phase) : Bool := p == .rqL || p == .rqH2

/-- The invariant of the machine. -/
structure Inv (s : State) : Prop where
  /-- BUDGET is at least 1 (rule R6). -/
  budget : 1 ≤ s.params.budget
  /-- CNT is 0 to BUDGET - 1 (rule R41). -/
  cnt : s.cnt < s.params.budget
  /-- LOWDUR is 0 to BUDGET - 1 (rule R41). -/
  lowdur : s.lowdur < s.params.budget
  /-- Between steps no hold is running (rule R104, note 9). -/
  hold : s.hold = 0
  /-- RLEN is 0 to 8 (rule R22). -/
  rlen : s.rlen.toNat ≤ 8
  /-- RESP[k] is 0 for k ≥ RLEN (rule R22). -/
  respTail : ∀ (k : Nat) (h : k < 8), s.rlen.toNat ≤ k → s.resp[k] = 0
  /-- BITCNT is 0 to 40 (rule R42). -/
  bitcnt : s.bitcnt.toNat ≤ 40
  /-- B holds the BITCNT bits shifted so far and nothing else (rule R39, rule R109, rule R119). -/
  frame : ∀ (k : Nat) (h : k < 5), s.b[k].toNat < 2 ^ min 8 (s.bitcnt.toNat - 8 * k)
  /-- While PHASE ≠ 0 CMD holds the legal command that runs (rule R25, rule R67). -/
  command : s.phase ≠ .idle → ∃ i, decode s.cmd = .ok i ∧ runsIn i s.phase = true
  /-- A running command has no outcome yet (rule R26). -/
  running : s.phase ≠ .idle → s.done = false
  /-- Without DONE there is no error (rule R26, rule R28). -/
  outcome : s.done = false → s.err = .none
  /-- The pin is driven exactly inside the request phase (rule R103). -/
  pinDriven : s.pinmode = .drive ↔ s.phase.drives = true
  /-- BITCNT stays 0 until the first data bit (rule R108). -/
  beforeData : s.phase.beforeData = true → s.bitcnt = 0
  /-- In the data phase fewer than 40 bits have been read (rule R109). -/
  inData : s.phase.inData = true → s.bitcnt.toNat < 40
  /-- No Measurement while SWRD runs (rule R118). -/
  noneYet : s.phase.singleWire = true → s.valid = false
  /-- VALID = 1 only with a complete frame whose checksum matched, and the results are that frame's (rule R111, rule R113). -/
  results : s.valid = true → s.bitcnt = 40 ∧ checksumOk s.b = true ∧ s.humT = humidityOf s.b ∧
    s.tempT = temperatureOf s.b ∧ s.neg = negOf s.b
  /-- VALID = 0 leaves all three results 0 (rule R38). -/
  noResults : s.valid = false → s.humT = 0 ∧ s.tempT = 0 ∧ s.neg = false
  /-- While a read is outstanding RLEN is 0 (rule R22). -/
  reading : s.phase = .rcRd → s.rlen = 0
  /-- While the write of RMW is outstanding NEWVAL is the merge of the byte read (rule R133). -/
  writing : ∀ reg mask bits slot, s.phase = .rcWr → decode s.cmd = .ok (.rmw reg mask bits slot) →
    s.rlen = 1 ∧ s.newval = mergeBits s.resp[0] mask bits
  /-- IDOK is 0 while IDCHK runs (rule R27, rule R134). -/
  checking : ∀ reg expect, s.phase = .rcRd → decode s.cmd = .ok (.idchk reg expect) → s.idok = false
  /-- DDIV is 0 when CONV is raw or tenths (rule R23). -/
  snapshot : s.conv = .raw ∨ s.conv = .tenths → s.ddiv = 0
  /-- Before the first UNPK there is no value (rule R191, rule R201). -/
  noValue : s.dvalid = false → s.data = 0 ∧ s.conv = .raw ∧ s.ddiv = 0

/-- `k` steps, stopping at the first that gives no next state (as Host.Core.run does for `core`). -/
def run : Nat → State → Result
  | 0, s => .next s
  | k + 1, s =>
    match step s with
    | .next t => run k t
    | .fault r => .fault r
    | .refused r => .refused r

/-- The most sequencer steps a whole SWRD takes after its accept: 3 drives and 82 measurements (rule R114 (d), rule R121). -/
def readBound (budget : Nat) : Nat := 3 + 82 * budget

end Sys2Proof.Machine
end

