-- ==== Sys2Proof/Certificates/Slice0/Obligations.lean ====
section
/-! DEFINITION. The statements for the provers, one definition each, in the order of OBLIGATIONS.json. -/

open Sys2Proof Sys2Proof.Machine

/-! Encoding -/

/-- Every well-formed command is what its word decodes to (30_encoding.md section 1). -/
def Obligations.DecodeOfEncodeIsIdentity : Prop :=
  ∀ i : Instr, i.wellFormed = true → decode (encode i) = .ok i

/-- A word that decodes is the word of the command it decodes to, and that command is well-formed: no word has two meanings
and no legal command has two words (30_encoding.md section 1). -/
def Obligations.EncodeOfDecodeIsIdentity : Prop :=
  ∀ (w : Word) (i : Instr), decode w = .ok i → i.wellFormed = true ∧ encode i = w

/-- The seven rows of the opcode table, with their conditions and the place of every operand (rule R72 to rule R78; the
condition of UNPK on RLEN is in `UnpkExecutes`). -/
def Obligations.OpcodeTableRowsAreExact : Prop :=
  ∀ w : Word,
    (decode w = .ok .swrd ↔ w = 0x10000000) ∧
    (∀ reg v inc, decode w = .ok (.rdreg reg v inc) ↔
      w &&& 0xFC80FFFF = 0x20000000 ∧ w.extractLsb' 16 7 = reg ∧ w.getLsbD 25 = (v == .two) ∧ w.getLsbD 24 = inc) ∧
    (∀ nreq nresp, decode w = .ok (.xfer nreq nresp) ↔
      w &&& 0xFCF0FFFF = 0x30000000 ∧ w.extractLsb' 24 2 = nreq ∧ w.extractLsb' 16 4 = nresp ∧
      1 ≤ nreq.toNat ∧ 1 ≤ nresp.toNat ∧ nresp.toNat ≤ 8) ∧
    (∀ reg value, decode w = .ok (.wrreg reg value) ↔
      w &&& 0xFF8000FF = 0x40000000 ∧ w.extractLsb' 16 7 = reg ∧ w.extractLsb' 8 8 = value) ∧
    (∀ reg mask bits slot, decode w = .ok (.rmw reg mask bits slot) ↔
      w &&& 0xFC800000 = 0x50000000 ∧ w.extractLsb' 16 7 = reg ∧ w.extractLsb' 8 8 = mask ∧ w.extractLsb' 0 8 = bits ∧
      w.extractLsb' 24 2 = slot.code ∧ bits &&& ~~~mask = 0) ∧
    (∀ off v order sign conv, decode w = .ok (.unpk off v order sign conv) ↔
      w &&& 0xF8F8FCFF = 0x60000000 ∧ w.extractLsb' 16 3 = off ∧ w.getLsbD 26 = (v == .two) ∧
      w.getLsbD 25 = (order == .le) ∧ w.getLsbD 24 = (sign == .signed) ∧ w.extractLsb' 8 2 = conv.code ∧
      (v = .one → order = .be)) ∧
    (∀ reg expect, decode w = .ok (.idchk reg expect) ↔
      w &&& 0xFF8000FF = 0x70000000 ∧ w.extractLsb' 16 7 = reg ∧ w.extractLsb' 8 8 = expect)

/-- A word with OPC 0 or 8 to 15 is refused, the all-zero word, which CMD holds after reset, among them (rule R81). -/
def Obligations.ReservedOpcodesAreRefused : Prop :=
  (∀ (w : Word) (s : State) (rest : List Input),
    (w.extractLsb' 28 4).toNat = 0 ∨ 8 ≤ (w.extractLsb' 28 4).toNat →
    s.phase = .idle → s.inputs = .write 0 w :: rest →
    step s = .next { s with inputs := rest, cmd := w, done := true, err := .illcmd }) ∧
  ((0 : Word).extractLsb' 28 4).toNat = 0 ∧ State.reset.cmd = 0

/-- An illegal word, or an UNPK that asks for bytes beyond RLEN, is refused at the accept: only CMD, ERR and DONE change
(rule R164). -/
def Obligations.IllegalCommandIsRefused : Prop :=
  ∀ (w : Word) (s : State) (rest : List Input),
    (∀ i, decode w = .ok i → ∃ off v order sign conv, i = .unpk off v order sign conv ∧
      s.rlen.toNat < off.toNat + (if v = .two then 2 else 1)) →
    s.phase = .idle → s.inputs = .write 0 w :: rest →
    step s = .next { s with inputs := rest, cmd := w, done := true, err := .illcmd }

/-- Words written out from the encoding rules decode to the commands they stand for (30_encoding.md section 4). -/
def Obligations.SampleWordsDecode : Prop :=
  decode 0x10000000 = .ok .swrd ∧
  decode 0x23280000 = .ok (.rdreg 0x28 .two true) ∧
  decode 0x33080000 = .ok (.xfer 3 8) ∧
  decode 0x40205700 = .ok (.wrreg 0x20 0x57) ∧
  decode 0x51213820 = .ok (.rmw 0x21 0x38 0x20 .s1) ∧
  decode 0x65040100 = .ok (.unpk 4 .two .be .signed .tenths) ∧
  decode 0x67000200 = .ok (.unpk 0 .two .le .signed .sc1) ∧
  decode 0x700F4900 = .ok (.idchk 0x0F 0x49) ∧
  decode 0x5020070B = .error .strayBits ∧
  decode 0x53200703 = .error .reservedSlot ∧
  decode 0x33090000 = .error .responseCount ∧
  decode 0x62000000 = .error .orderOfOneByte

/-! Life cycle and host port -/

/-- A step runs the decoded command: at the accept it is `exec` after CMD, DONE and ERR have been set, while a command runs
it is `exec` of the command in CMD; either way one input is taken if there is one (10_state.md section 3). -/
def Obligations.StepRunsTheDecodedCommand : Prop :=
  (∀ (s : State) (w : Word) (i : Instr) (rest : List Input),
    s.inputs = .write 0 w :: rest → s.phase = .idle → decode w = .ok i →
    step s = exec i { s with inputs := rest, cmd := w, done := false, err := .none }) ∧
  (∀ (s : State) (i : Instr), s.inputs = [] → s.phase ≠ .idle → decode s.cmd = .ok i → step s = exec i s) ∧
  (∀ (s : State) (i : Instr) (rest : List Input),
    s.inputs = .none :: rest → s.phase ≠ .idle → decode s.cmd = .ok i → step s = exec i { s with inputs := rest })

/-- The tests at a write to CMD are, in order, busy, illegal, start (rule R167). -/
def Obligations.CmdWritePriority : Prop :=
  ∀ (s : State) (w : Word) (rest : List Input), s.inputs = .write 0 w :: rest → s.rlen.toNat ≤ 8 →
    (s.phase ≠ .idle → step s = .next { s with inputs := rest, rej := true }) ∧
    (s.phase = .idle →
      (∀ i, decode w = .ok i → ∃ off v order sign conv, i = .unpk off v order sign conv ∧
        s.rlen.toNat < off.toNat + (if v = .two then 2 else 1)) →
      step s = .next { s with inputs := rest, cmd := w, done := true, err := .illcmd }) ∧
    (s.phase = .idle →
      (∃ i, decode w = .ok i ∧ ∀ off v order sign conv, i = .unpk off v order sign conv →
        off.toNat + (if v = .two then 2 else 1) ≤ s.rlen.toNat) →
      ∃ t, step s = .next t ∧ t.cmd = w ∧ t.err = .none ∧ (t.phase ≠ .idle ∨ t.done = true))

/-- REJ: what sets it, what clears it, and that nothing else does (rule R29). -/
def Obligations.RejectFlagRules : Prop :=
  (∀ (s : State) (a : HostAddr) (w : Word) (rest : List Input),
    a = 0 ∨ a = 1 ∨ a = 3 → s.phase ≠ .idle → s.inputs = .write a w :: rest →
    step s = .next { s with inputs := rest, rej := true }) ∧
  (∀ (s : State) (w : Word) (rest : List Input), s.inputs = .write 2 w :: rest →
    step s = .next { s with inputs := rest, rej := if w.getLsbD 7 then false else s.rej }) ∧
  (∀ s t : State, s.rej = true → step s = .next t →
    t.rej = true ∨ (∃ rest, s.inputs = .reset :: rest) ∨
    ∃ w rest, s.inputs = .write 2 w :: rest ∧ w.getLsbD 7 = true) ∧
  (∀ r : Bool, rejNext true true r = true) ∧
  State.reset.rej = false

/-- While the block is idle a write to ARG stores the word and a write to DEV_ADDR its bits 6:0 (10_state.md section 5). -/
def Obligations.OperandRegisterWrites : Prop :=
  ∀ (s : State) (w : Word) (rest : List Input), s.phase = .idle →
    (s.inputs = .write 1 w :: rest → step s = .next { s with inputs := rest, arg := w }) ∧
    (s.inputs = .write 3 w :: rest → step s = .next { s with inputs := rest, devAddr := w.extractLsb' 0 7 })

/-- Reserved offsets read 0, writes to them and to read-only registers change nothing, and a read changes no register (rule
R40). -/
def Obligations.ReadOnlyAndReservedAccesses : Prop :=
  (∀ (s : State) (a : HostAddr), 13 ≤ a.toNat → hostRead a s = 0) ∧
  (∀ (s : State) (a : HostAddr) (w : Word) (rest : List Input), 4 ≤ a.toNat → s.inputs = .write a w :: rest →
    step s = .next { s with inputs := rest }) ∧
  (∀ (s : State) (a : HostAddr) (rest : List Input), s.inputs = .read a :: rest →
    step s = .next { s with inputs := rest, out := .hostRead a (hostRead a { s with inputs := rest }) :: s.out })

/-- The fields of the registers the host reads (rule R33, rule R37; the other registers by 10_state.md section 5). -/
def Obligations.RegisterMapFields : Prop :=
  ∀ s : State,
    hostRead 0 s = s.cmd ∧ hostRead 1 s = s.arg ∧ hostRead 5 s = s.data ∧
    ((hostRead 2 s).getLsbD 0 = decide (s.phase ≠ .idle) ∧ (hostRead 2 s).getLsbD 1 = s.done ∧
      (hostRead 2 s).extractLsb' 2 3 = s.err.code ∧ (hostRead 2 s).getLsbD 5 = s.valid ∧
      (hostRead 2 s).getLsbD 6 = s.idok ∧ (hostRead 2 s).getLsbD 7 = s.rej ∧
      (hostRead 2 s).extractLsb' 8 4 = s.rlen ∧ (hostRead 2 s).extractLsb' 12 4 = s.phase.code ∧
      (hostRead 2 s).extractLsb' 16 16 = 0) ∧
    ((hostRead 3 s).extractLsb' 0 7 = s.devAddr ∧ (hostRead 3 s).extractLsb' 7 25 = 0) ∧
    ((hostRead 4 s).extractLsb' 0 8 = s.s1 ∧ (hostRead 4 s).extractLsb' 8 8 = s.s2 ∧
      (hostRead 4 s).extractLsb' 16 16 = 0) ∧
    ((hostRead 6 s).extractLsb' 0 2 = s.conv.code ∧ (hostRead 6 s).extractLsb' 2 6 = 0 ∧
      (hostRead 6 s).extractLsb' 8 8 = s.ddiv ∧ (hostRead 6 s).extractLsb' 16 15 = 0 ∧
      (hostRead 6 s).getLsbD 31 = s.dvalid) ∧
    (∀ (k : Nat) (h : k < 4), (hostRead 7 s).extractLsb' (8 * k) 8 = s.resp[k] ∧
      (hostRead 8 s).extractLsb' (8 * k) 8 = s.resp[k + 4] ∧ (hostRead 11 s).extractLsb' (8 * k) 8 = s.b[k]) ∧
    ((hostRead 9 s).extractLsb' 0 12 = s.humT ∧ (hostRead 9 s).extractLsb' 12 20 = 0) ∧
    ((hostRead 10 s).extractLsb' 0 16 = s.tempT ∧ (hostRead 10 s).getLsbD 16 = s.neg ∧
      (hostRead 10 s).extractLsb' 17 15 = 0) ∧
    ((hostRead 12 s).extractLsb' 0 8 = s.b[4] ∧ (hostRead 12 s).extractLsb' 8 6 = s.bitcnt ∧
      (hostRead 12 s).extractLsb' 14 18 = 0) ∧
    (∀ a : HostAddr, hostRead a State.reset = 0)

/-- The reset value of every state element (rule R191). -/
def Obligations.ResetValues : Prop :=
  let s := State.reset
  s.cmd = 0 ∧ s.arg = 0 ∧ s.busy = false ∧ s.done = false ∧ s.err = .none ∧ s.valid = false ∧ s.idok = false ∧
  s.rej = false ∧ s.rlen = 0 ∧ s.phase = .idle ∧ s.statusWord = 0 ∧ s.devAddr = 0 ∧ s.s1 = 0 ∧ s.s2 = 0 ∧ s.data = 0 ∧
  s.conv = .raw ∧ s.ddiv = 0 ∧ s.dvalid = false ∧ s.resp = Vector.replicate 8 0 ∧ s.humT = 0 ∧ s.tempT = 0 ∧
  s.neg = false ∧ s.b = Vector.replicate 5 0 ∧ s.bitcnt = 0 ∧ s.cnt = 0 ∧ s.lowdur = 0 ∧ s.hold = 0 ∧ s.newval = 0 ∧
  s.pinmode = .sample ∧ s.pinout = false

/-- Reset at any time, also while a command runs, gives every element its reset value and withdraws the request; what lies
outside the block stays (70_reset_and_hazards.md section 1). That the parameters, the inputs, the answer streams and the
outputs ride in the state is the model's choice (notes 3, 4, 5, 7, 8). -/
def Obligations.ResetAtAnyTime : Prop :=
  ∀ (s : State) (rest : List Input), s.inputs = .reset :: rest →
    ∃ t, step s = .next t ∧
      t = { State.reset with
        params := s.params, inputs := rest, pin := s.pin, pinIndex := s.pinIndex, bus := s.bus, out := s.out } ∧
      t.trReq = false ∧ t.pinOe = false

/-- An idle block does nothing until the host acts (70_reset_and_hazards.md section 1). -/
def Obligations.IdleBlockDoesNothing : Prop :=
  ∀ (s : State) (n : Nat), s.phase = .idle → s.inputs = [] → run n s = .next s

/-! The single-wire unit -/

/-- The accept of SWRD (40_single_wire.md section 4, step 1): through `exec`, and through a write of its word. -/
def Obligations.SwrdAccept : Prop :=
  ∀ s : State, s.phase = .idle →
    exec .swrd s = .next
      { s with
        valid := false, humT := 0, tempT := 0, neg := false, b := Vector.replicate 5 0, bitcnt := 0, cnt := 0,
        lowdur := 0, phase := .rqH1 } ∧
    ∀ rest, s.inputs = .write 0 0x10000000 :: rest →
      step s = .next
        { s with
          inputs := rest, cmd := 0x10000000, done := false, err := .none, valid := false, humT := 0, tempT := 0,
          neg := false, b := Vector.replicate 5 0, bitcnt := 0, cnt := 0, lowdur := 0, phase := .rqH1 }

/-- The step table of SWRD, row by row (40_single_wire.md section 5). HOLD is back at 0 after each `Wait` (note 9); CNT after the
last bit and PINOUT after a failed drive keep what they had (note 14). -/
def Obligations.SwrdStepTable : Prop :=
  ∀ s : State,
    -- RQ_H1, RQ_L, RQ_H2 answered Ok
    (s.phase = .rqH1 → (pinAnswer s).fault = false → exec .swrd s = .next
      { s with
        pinmode := .drive, pinout := true, pin := s.pin.tail, pinIndex := s.pinIndex + 1, hold := 0, phase := .rqL,
        out := .wait s.params.holdIdle :: .drive true :: s.out }) ∧
    (s.phase = .rqL → (pinAnswer s).fault = false → exec .swrd s = .next
      { s with
        pinmode := .drive, pinout := false, pin := s.pin.tail, pinIndex := s.pinIndex + 1, hold := 0, phase := .rqH2,
        out := .wait s.params.holdLow :: .drive false :: s.out }) ∧
    (s.phase = .rqH2 → (pinAnswer s).fault = false → exec .swrd s = .next
      { s with
        pinmode := .sample, pinout := true, pin := s.pin.tail, pinIndex := s.pinIndex + 1, hold := 0, cnt := 0,
        phase := .ackL, out := .release :: .wait s.params.holdGo :: .drive true :: s.out }) ∧
    -- the three drives answered Fault
    (s.phase = .rqH1 ∨ s.phase = .rqL ∨ s.phase = .rqH2 → (pinAnswer s).fault = true → exec .swrd s = .next
      { s with
        pinmode := .sample, pinout := decide (s.phase ≠ .rqL), pin := s.pin.tail, pinIndex := s.pinIndex + 1,
        err := .pin, done := true, phase := .idle, out := .release :: .drive (decide (s.phase ≠ .rqL)) :: s.out }) ∧
    -- any sample answered Fault
    (s.phase = .ackL ∨ s.phase = .ackH ∨ s.phase = .datL ∨ s.phase = .datH → (pinAnswer s).fault = true →
      exec .swrd s = .next
        { s with
          pinmode := .sample, pin := s.pin.tail, pinIndex := s.pinIndex + 1, err := .pin, done := true, phase := .idle,
          out := .release :: .sample :: s.out }) ∧
    -- X_L, Level(1)
    (s.phase = .ackL ∨ s.phase = .datL → (pinAnswer s).fault = false → (pinAnswer s).level = true →
      exec .swrd s = .next
        { s with
          pin := s.pin.tail, pinIndex := s.pinIndex + 1, lowdur := s.cnt, cnt := 0,
          phase := if s.phase = .ackL then .ackH else .datH, out := .sample :: s.out }) ∧
    -- X_L, Level(0) and X_H, Level(1), below the budget
    (((s.phase = .ackL ∨ s.phase = .datL) ∧ (pinAnswer s).level = false ∨
        (s.phase = .ackH ∨ s.phase = .datH) ∧ (pinAnswer s).level = true) →
      (pinAnswer s).fault = false → s.cnt + 1 < s.params.budget → exec .swrd s = .next
        { s with
          pin := s.pin.tail, pinIndex := s.pinIndex + 1, cnt := s.cnt + 1, hold := 0,
          out := .wait 1 :: .sample :: s.out }) ∧
    -- the same at CNT = BUDGET - 1
    (((s.phase = .ackL ∨ s.phase = .datL) ∧ (pinAnswer s).level = false ∨
        (s.phase = .ackH ∨ s.phase = .datH) ∧ (pinAnswer s).level = true) →
      (pinAnswer s).fault = false → s.cnt + 1 = s.params.budget → exec .swrd s = .next
        { s with
          pinmode := .sample, pin := s.pin.tail, pinIndex := s.pinIndex + 1, hold := 0, err := .timeout, done := true,
          phase := .idle, out := .release :: .wait 1 :: .sample :: s.out }) ∧
    -- ACK_H, Level(0)
    (s.phase = .ackH → (pinAnswer s).fault = false → (pinAnswer s).level = false → exec .swrd s = .next
      { s with
        pin := s.pin.tail, pinIndex := s.pinIndex + 1, cnt := 0, phase := .datL, out := .sample :: s.out }) ∧
    -- DAT_H, Level(0), BITCNT < 39
    (s.phase = .datH → (pinAnswer s).fault = false → (pinAnswer s).level = false → s.bitcnt.toNat < 39 →
      exec .swrd s = .next
        { s with
          pin := s.pin.tail, pinIndex := s.pinIndex + 1, b := shiftIn s.b s.bitcnt.toNat (decide (s.lowdur < s.cnt)),
          bitcnt := s.bitcnt + 1, cnt := 0, phase := .datL, out := .sample :: s.out }) ∧
    -- DAT_H, Level(0), BITCNT = 39: step 7 of rule R118
    (s.phase = .datH → (pinAnswer s).fault = false → (pinAnswer s).level = false → s.bitcnt.toNat = 39 →
      let b := shiftIn s.b 39 (decide (s.lowdur < s.cnt))
      exec .swrd s = .next
        (if (b[0].toNat + b[1].toNat + b[2].toNat + b[3].toNat) % 256 = b[4].toNat then
          { s with
            pin := s.pin.tail, pinIndex := s.pinIndex + 1, b := b, bitcnt := 40,
            humT := BitVec.ofNat 12 (10 * b[0].toNat + b[1].toNat), tempT := temperatureOf b, neg := b[2].getLsbD 7,
            valid := true, err := .none, done := true, phase := .idle, out := .sample :: s.out }
        else
          { s with
            pin := s.pin.tail, pinIndex := s.pinIndex + 1, b := b, bitcnt := 40, pinmode := .sample, err := .crc,
            done := true, phase := .idle, out := .release :: .sample :: s.out }))

/-- Within one sample: fault first, then level, then budget (rule R168). A change of level on the last allowed sample is
success, a fault on it is PinError. -/
def Obligations.SampleTestOrder : Prop :=
  ∀ s : State, s.err = .none →
    ∀ l : Bool, ((s.phase = .ackL ∨ s.phase = .datL) ∧ l = false ∨ (s.phase = .ackH ∨ s.phase = .datH) ∧ l = true) →
    s.bitcnt.toNat < 40 → s.cnt < s.params.budget →
    ((pinAnswer s).fault = true → ∃ t, exec .swrd s = .next t ∧ t.err = .pin ∧ t.done = true ∧ t.phase = .idle) ∧
    ((pinAnswer s).fault = false → (pinAnswer s).level ≠ l →
      ∃ t, exec .swrd s = .next t ∧ t.err ≠ .timeout ∧ t.err ≠ .pin ∧ t.phase ≠ s.phase) ∧
    ((pinAnswer s).fault = false → (pinAnswer s).level = l → s.cnt + 1 = s.params.budget →
      ∃ t, exec .swrd s = .next t ∧ t.err = .timeout ∧ t.done = true ∧ t.phase = .idle) ∧
    ((pinAnswer s).fault = false → (pinAnswer s).level = l → s.cnt + 1 < s.params.budget →
      ∃ t, exec .swrd s = .next t ∧ t.err = .none ∧ t.phase = s.phase ∧ t.cnt = s.cnt + 1)

/-- The extractor and the validator are exact integer arithmetic: no value wraps but the checksum, which may as well be added
byte by byte (40_single_wire.md section 3 and section 4). -/
def Obligations.FrameArithmeticIsExact : Prop :=
  ∀ b : Vector Byte 5,
    (humidityOf b).toNat = 10 * b[0].toNat + b[1].toNat ∧ (humidityOf b).toNat ≤ 2805 ∧
    (temperatureOf b).toInt =
      (if b[2].getLsbD 7 then -((10 * (b[2].toNat % 128) + b[3].toNat : Nat) : Int)
       else ((10 * (b[2].toNat % 128) + b[3].toNat : Nat) : Int)) ∧
    (temperatureOf b).toInt ≤ 1525 ∧ -1525 ≤ (temperatureOf b).toInt ∧
    (checksum b).toNat = (b[0].toNat + b[1].toNat + b[2].toNat + b[3].toNat) % 256 ∧
    checksum b = b[0] + b[1] + b[2] + b[3]

/-- Forty bits shifted into cleared bytes stand most significant first: bit k read is bit 7 - (k mod 8) of B[k div 8]
(40_single_wire.md section 3). -/
def Obligations.BitsStandMostSignificantFirst : Prop :=
  ∀ (f : Nat → Bool) (k : Nat) (h : k < 40),
    (((List.range 40).foldl (fun b j => shiftIn b j (f j)) (Vector.replicate 5 0))[k / 8]'(by omega)).getLsbD
      (7 - k % 8) = f k

/-- `Measure` returns the index of the first sample at the other level, times out exactly when BUDGET samples in a row show
the level, and ends with PinError at a fault before either (40_single_wire.md section 2). -/
def Obligations.MeasureReturnsTheFirstEdge : Prop :=
  ∀ (budget : Nat) (stream : Nat → Config.PinAnswer) (l : Bool) (p q : Nat),
    let same := fun k => (stream (p + k)).fault = false ∧ (stream (p + k)).level = l
    (∀ c, measure budget stream l p = (.ok c, q) ↔
      c < budget ∧ (∀ k < c, same k) ∧ (stream (p + c)).fault = false ∧ (stream (p + c)).level ≠ l ∧ q = p + c + 1) ∧
    (measure budget stream l p = (.error .timeout, q) ↔ (∀ k < budget, same k) ∧ q = p + budget) ∧
    (measure budget stream l p = (.error .pin, q) ↔
      ∃ c < budget, (∀ k < c, same k) ∧ (stream (p + c)).fault = true ∧ q = p + c + 1)

/-- After a measurement that ended on a low sample, m more low samples, then n + 1 high ones, then a low one decode as 1
exactly when n + 1 exceeds m + 1: both durations are one less than the samples at that level (40_single_wire.md section
3). -/
def Obligations.PulseWidthsDecideTheBit : Prop :=
  ∀ (budget : Nat) (stream : Nat → Config.PinAnswer) (p m n : Nat), m < budget → n < budget →
    (∀ k ≤ m + n + 1, (stream (p + k)).fault = false) →
    (∀ k < m, (stream (p + k)).level = false) → (∀ k ≤ n, (stream (p + m + k)).level = true) →
    (stream (p + m + n + 1)).level = false →
    measure budget stream false p = (.ok m, p + m + 1) ∧
    measure budget stream true (p + m + 1) = (.ok n, p + m + n + 2) ∧
    readBit budget stream p = (.ok (decide (m + 1 < n + 1)), p + m + n + 2)

/-- The step table and the pseudocode are the same behaviour: a SWRD accepted in any state, whatever the pin answers, ends
with the error code, the frame bytes, BITCNT and the results that the pseudocode gives on the same answers, takes exactly
those answers, and touches nothing of the engine (40_single_wire.md section 2 to section 5). -/
def Obligations.SwrdRefinesPseudocode : Prop :=
  ∀ s : State, s.phase = .idle → 1 ≤ s.params.budget → s.inputs = [.write 0 0x10000000] →
    let r := readOutcome s.params.budget s.stream
    ∃ t, run (1 + readBound s.params.budget) s = .next t ∧
      t.phase = .idle ∧ t.done = true ∧ t.err = r.err ∧ t.b = r.b ∧ t.bitcnt.toNat = r.bits ∧
      t.pinIndex = s.pinIndex + r.taken ∧ t.pin = s.pin.drop r.taken ∧
      (r.err = .none → t.valid = true ∧ t.humT = humidityOf r.b ∧ t.tempT = temperatureOf r.b ∧ t.neg = negOf r.b) ∧
      (r.err ≠ .none → t.valid = false ∧ t.humT = 0 ∧ t.tempT = 0 ∧ t.neg = false) ∧
      (r.err ≠ .none → t.pinmode = .sample) ∧
      t.cmd = 0x10000000 ∧ t.resp = s.resp ∧ t.rlen = s.rlen ∧ t.data = s.data ∧ t.conv = s.conv ∧ t.ddiv = s.ddiv ∧
      t.dvalid = s.dvalid ∧ t.s1 = s.s1 ∧ t.s2 = s.s2 ∧ t.idok = s.idok ∧ t.rej = s.rej ∧ t.arg = s.arg ∧
      t.devAddr = s.devAddr ∧ t.newval = s.newval ∧ t.bus = s.bus

/-- Every SWRD completes within 3 + 82 × BUDGET steps of the sequencer, from its accept or from any point of its run,
whatever the answers are; then PHASE = 0, PINMODE = SAMPLE, and the block takes no step until the next accept
(40_single_wire.md section 5). -/
def Obligations.SwrdTerminates : Prop :=
  ∀ s : State, Inv s → s.phase.singleWire = true → s.inputs = [] →
    ∃ t, (∀ n, readBound s.params.budget ≤ n → run n s = .next t) ∧ t.phase = .idle ∧ t.done = true ∧ t.pinmode = .sample

/-- SWRD touches no register of the engine and no host-written register (40_single_wire.md section 4). -/
def Obligations.SwrdFrame : Prop :=
  ∀ s t : State, exec .swrd s = .next t →
    t.resp = s.resp ∧ t.rlen = s.rlen ∧ t.data = s.data ∧ t.conv = s.conv ∧ t.ddiv = s.ddiv ∧ t.dvalid = s.dvalid ∧
    t.s1 = s.s1 ∧ t.s2 = s.s2 ∧ t.idok = s.idok ∧ t.rej = s.rej ∧ t.cmd = s.cmd ∧ t.arg = s.arg ∧
    t.devAddr = s.devAddr ∧ t.newval = s.newval ∧ t.params = s.params ∧ t.inputs = s.inputs ∧ t.bus = s.bus

/-- SWRD reads neither ARG nor DEV_ADDR: two runs that differ only in these differ only in these (40_single_wire.md section
4). -/
def Obligations.SwrdIgnoresOperandRegisters : Prop :=
  ∀ (s t : State) (arg : Word) (addr : BusAddr), exec .swrd s = .next t →
    exec .swrd { s with arg := arg, devAddr := addr } = .next { t with arg := arg, devAddr := addr }

/-- The results and VALID are written only when the checksum matches, by a complete frame, and hold that frame's values; at
the accept they become 0, and on every other step they keep what they had (40_single_wire.md section 3). -/
def Obligations.ChecksumGatesResults : Prop :=
  ∀ s t : State, exec .swrd s = .next t →
    (s.phase = .idle ∧ t.valid = false ∧ t.humT = 0 ∧ t.tempT = 0 ∧ t.neg = false) ∨
    (s.phase ≠ .idle ∧ t.valid = s.valid ∧ t.humT = s.humT ∧ t.tempT = s.tempT ∧ t.neg = s.neg) ∨
    (s.phase = .datH ∧ t.bitcnt = 40 ∧ checksum t.b = t.b[4] ∧ t.valid = true ∧ t.humT = humidityOf t.b ∧
      t.tempT = temperatureOf t.b ∧ t.neg = negOf t.b)

/-! The register codec engine, whole commands from the CMD write to completion -/

/-- RDREG (rule R130): the state after the accept, and after the answer. -/
def Obligations.RdregWholeCommand : Prop :=
  ∀ (s : State) (reg : RegAddr) (v : Width) (inc : Bool) (a : Config.BusAnswer) (rest : List Config.BusAnswer),
    s.phase = .idle → s.inputs = [.write 0 (encode (.rdreg reg v inc))] → s.bus = a :: rest →
    let m := if v = .two then 2 else 1
    let q : Byte := if inc then reg.setWidth 8 ||| 0x80 else reg.setWidth 8
    run 1 s = .next
      { s with
        inputs := [], cmd := encode (.rdreg reg v inc), done := false, err := .none, resp := Vector.replicate 8 0, rlen := 0
        phase := .rcRd } ∧
    run 2 s = .next
      { s with
        inputs := [], bus := rest, cmd := encode (.rdreg reg v inc), done := true,
        err := if a.fail then .bus else .none
        resp := if a.fail then Vector.replicate 8 0
          else Vector.ofFn fun k => if k.val < m then a.rdata.extractLsb' (8 * k.val) 8 else 0
        rlen := if a.fail then 0 else BitVec.ofNat 4 m
        out := .transport (.writeThenRead s.devAddr [q] m) :: s.out }

/-- XFER (rule R131): the state after the accept and after the answer, the refusal for counts out of range, and the transfer it
shares with RDREG. -/
def Obligations.XferWholeCommand : Prop :=
  (∀ (s : State) (nreq : BitVec 2) (nresp : BitVec 4) (a : Config.BusAnswer) (rest : List Config.BusAnswer),
    nreq ≠ 0 → nresp ≠ 0 → nresp.toNat ≤ 8 →
    s.phase = .idle → s.inputs = [.write 0 (encode (.xfer nreq nresp))] → s.bus = a :: rest →
    let req := [s.arg.extractLsb' 0 8, s.arg.extractLsb' 8 8, s.arg.extractLsb' 16 8].take nreq.toNat
    run 1 s = .next
      { s with
        inputs := [], cmd := encode (.xfer nreq nresp), done := false, err := .none, resp := Vector.replicate 8 0, rlen := 0
        phase := .rcRd } ∧
    run 2 s = .next
      { s with
        inputs := [], bus := rest, cmd := encode (.xfer nreq nresp), done := true,
        err := if a.fail then .bus else .none
        resp := if a.fail then Vector.replicate 8 0
          else Vector.ofFn fun k => if k.val < nresp.toNat then a.rdata.extractLsb' (8 * k.val) 8 else 0
        rlen := if a.fail then 0 else nresp
        out := .transport (.writeThenRead s.devAddr req nresp.toNat) :: s.out }) ∧
  (∀ (s : State) (nreq : BitVec 2) (nresp : BitVec 4), nreq = 0 ∨ nresp = 0 ∨ 8 < nresp.toNat →
    s.phase = .idle → s.inputs = [.write 0 (encode (.xfer nreq nresp))] →
    run 2 s = .next { s with inputs := [], cmd := encode (.xfer nreq nresp), done := true, err := .illcmd }) ∧
  (∀ (addr : BusAddr) (arg : Word) (reg : RegAddr) (v : Width) (inc : Bool), arg.extractLsb' 0 8 = requestByte reg inc →
    xferRequest addr arg 1 (BitVec.ofNat 4 (widthBytes v)) = rdregRequest addr reg v inc)

/-- WRREG (41_register_codec.md section 1). The two bytes of the write and their order are the spec's own general knowledge (G1,
note 20). -/
def Obligations.WrregWholeCommand : Prop :=
  ∀ (s : State) (reg : RegAddr) (value : Byte) (a : Config.BusAnswer) (rest : List Config.BusAnswer),
    s.phase = .idle → s.inputs = [.write 0 (encode (.wrreg reg value))] → s.bus = a :: rest →
    run 1 s = .next
      { s with
        inputs := [], cmd := encode (.wrreg reg value), done := false, err := .none, phase := .rcWr } ∧
    run 2 s = .next
      { s with
        inputs := [], bus := rest, cmd := encode (.wrreg reg value), done := true
        err := if a.fail then .bus else .none
        out := .transport (.write s.devAddr [reg.setWidth 8, value]) :: s.out }

/-- RMW (41_register_codec.md section 1): success, failed read, failed write, and the refusal of bits outside the mask. The two
bytes of the write and their order are the spec's own general knowledge (G1, note 20). -/
def Obligations.RmwWholeCommand : Prop :=
  ∀ (s : State) (reg : RegAddr) (mask bits : Byte) (slot : Slot),
    s.phase = .idle → s.inputs = [.write 0 (encode (.rmw reg mask bits slot))] →
    (bits &&& ~~~mask = 0 → ∀ (a b : Config.BusAnswer) (rest : List Config.BusAnswer), s.bus = a :: b :: rest →
      a.fail = false →
      let old : Byte := a.rdata.extractLsb' 0 8
      let new : Byte := (old &&& ~~~mask) ||| bits
      run 3 s = .next
        { s with
          inputs := [], bus := rest, cmd := encode (.rmw reg mask bits slot), done := true
          err := if b.fail then .bus else .none
          resp := #v[old, 0, 0, 0, 0, 0, 0, 0], rlen := 1, newval := new
          s1 := if b.fail = false ∧ slot = .s1 then s.arg.extractLsb' 0 8 else s.s1
          s2 := if b.fail = false ∧ slot = .s2 then s.arg.extractLsb' 0 8 else s.s2
          out := .transport (.write s.devAddr [reg.setWidth 8, new]) ::
            .transport (.writeThenRead s.devAddr [reg.setWidth 8] 1) :: s.out }) ∧
    (bits &&& ~~~mask = 0 → ∀ (a : Config.BusAnswer) (rest : List Config.BusAnswer), s.bus = a :: rest →
      a.fail = true →
      run 3 s = .next
        { s with
          inputs := [], bus := rest, cmd := encode (.rmw reg mask bits slot), done := true, err := .bus
          resp := Vector.replicate 8 0, rlen := 0
          out := .transport (.writeThenRead s.devAddr [reg.setWidth 8] 1) :: s.out }) ∧
    (bits &&& ~~~mask ≠ 0 →
      run 3 s = .next
        { s with inputs := [], cmd := encode (.rmw reg mask bits slot), done := true, err := .illcmd })

/-- IDCHK (rule R134): the state after the accept, and after the answer. -/
def Obligations.IdchkWholeCommand : Prop :=
  ∀ (s : State) (reg : RegAddr) (expect : Byte) (a : Config.BusAnswer) (rest : List Config.BusAnswer),
    s.phase = .idle → s.inputs = [.write 0 (encode (.idchk reg expect))] → s.bus = a :: rest →
    let got : Byte := a.rdata.extractLsb' 0 8
    run 1 s = .next
      { s with
        inputs := [], cmd := encode (.idchk reg expect), done := false, err := .none, idok := false
        resp := Vector.replicate 8 0, rlen := 0, phase := .rcRd } ∧
    run 2 s = .next
      { s with
        inputs := [], bus := rest, cmd := encode (.idchk reg expect), done := true
        err := if a.fail then .bus else .none
        idok := decide (a.fail = false ∧ got = expect)
        resp := #v[if a.fail then 0 else got, 0, 0, 0, 0, 0, 0, 0]
        rlen := if a.fail then 0 else 1
        out := .transport (.writeThenRead s.devAddr [reg.setWidth 8] 1) :: s.out }

/-- UNPK (rule R135): it completes in its accept step, or is refused and keeps the former value. -/
def Obligations.UnpkExecutes : Prop :=
  ∀ (s : State) (off : BitVec 3) (v : Width) (order : ByteOrder) (sign : Signedness) (conv : Conv),
    s.phase = .idle → s.rlen.toNat ≤ 8 →
    let n := if v = .two then 2 else 1
    (off.toNat + n ≤ s.rlen.toNat → (v = .two ∨ order = .be) →
      exec (.unpk off v order sign conv) s = .next
        { s with
          data := assemble v (s.resp[off.toNat]?.getD 0) (s.resp[off.toNat + 1]?.getD 0) order sign
          conv := conv
          ddiv := if conv = .sc1 then s.s1 else if conv = .sc2 then s.s2 else 0
          dvalid := true, err := .none, done := true }) ∧
    (s.rlen.toNat < off.toNat + n ∨ (v = .one ∧ order = .le) →
      exec (.unpk off v order sign conv) s = .next { s with err := .illcmd, done := true })

/-- `Assemble` as integers (rule R136): the unsigned result is the integer of the bytes in their order, the signed result its
two's-complement reading. -/
def Obligations.AssembleGivesTheInteger : Prop :=
  ∀ (x y : Byte) (order : ByteOrder),
    (assemble .one x y order .unsigned).toNat = x.toNat ∧
    (assemble .one x y order .signed).toInt = (x.toNat : Int) - (if x.getLsbD 7 then 256 else 0) ∧
    (assemble .two x y .be .unsigned).toNat = 256 * x.toNat + y.toNat ∧
    (assemble .two x y .le .unsigned).toNat = 256 * y.toNat + x.toNat ∧
    (assemble .two x y .be .signed).toInt = 256 * (x.toNat : Int) + y.toNat - (if x.getLsbD 7 then 65536 else 0) ∧
    (assemble .two x y .le .signed).toInt = 256 * (y.toNat : Int) + x.toNat - (if y.getLsbD 7 then 65536 else 0)

/-! The register codec engine, step by step -/

/-- What the accept of each transport command does (41_register_codec.md section 1, step 1 of each pseudocode). -/
def Obligations.TransportCommandsStart : Prop :=
  ∀ s : State, s.phase = .idle →
    (∀ reg v inc, exec (.rdreg reg v inc) s = .next { s with resp := Vector.replicate 8 0, rlen := 0, phase := .rcRd }) ∧
    (∀ nreq nresp, nreq ≠ 0 → nresp ≠ 0 → nresp.toNat ≤ 8 →
      exec (.xfer nreq nresp) s = .next { s with resp := Vector.replicate 8 0, rlen := 0, phase := .rcRd }) ∧
    (∀ reg value, exec (.wrreg reg value) s = .next { s with phase := .rcWr }) ∧
    (∀ reg mask bits slot, bits &&& ~~~mask = 0 →
      exec (.rmw reg mask bits slot) s = .next { s with resp := Vector.replicate 8 0, rlen := 0, phase := .rcRd }) ∧
    (∀ reg expect, exec (.idchk reg expect) s = .next
      { s with idok := false, resp := Vector.replicate 8 0, rlen := 0, phase := .rcRd })

/-- What the answer `Ok` does to each transport command (41_register_codec.md section 1, steps 2 and 3). Bytes of RESP beyond
those answered stay as they are, which is 0 in every state a run reaches (note 15). -/
def Obligations.TransportCommandsComplete : Prop :=
  ∀ (s : State) (a : Config.BusAnswer) (rest : List Config.BusAnswer), s.bus = a :: rest → a.fail = false →
    let resp := fun m : Nat =>
      (Vector.ofFn fun k => if k.val < m then a.rdata.extractLsb' (8 * k.val) 8 else s.resp[k] : Vector Byte 8)
    let got : Byte := a.rdata.extractLsb' 0 8
    (s.phase = .rcRd →
      (∀ reg v inc, exec (.rdreg reg v inc) s = .next
        { s with
          bus := rest, resp := resp (widthBytes v), rlen := BitVec.ofNat 4 (widthBytes v), err := .none, done := true,
          phase := .idle, out := .transport (.writeThenRead s.devAddr [requestByte reg inc] (widthBytes v)) :: s.out }) ∧
      (∀ nreq nresp, exec (.xfer nreq nresp) s = .next
        { s with
          bus := rest, resp := resp nresp.toNat, rlen := nresp, err := .none, done := true, phase := .idle,
          out := .transport (.writeThenRead s.devAddr ((argBytes s.arg).take nreq.toNat) nresp.toNat) :: s.out }) ∧
      (∀ reg mask bits slot, exec (.rmw reg mask bits slot) s = .next
        { s with
          bus := rest, resp := resp 1, rlen := 1, newval := (got &&& ~~~mask) ||| bits, phase := .rcWr,
          out := .transport (.writeThenRead s.devAddr [requestByte reg false] 1) :: s.out }) ∧
      (∀ reg expect, exec (.idchk reg expect) s = .next
        { s with
          bus := rest, resp := resp 1, rlen := 1, idok := decide (got = expect), err := .none, done := true,
          phase := .idle, out := .transport (.writeThenRead s.devAddr [requestByte reg false] 1) :: s.out })) ∧
    (s.phase = .rcWr →
      (∀ reg value, exec (.wrreg reg value) s = .next
        { s with
          bus := rest, err := .none, done := true, phase := .idle,
          out := .transport (.write s.devAddr [requestByte reg false, value]) :: s.out }) ∧
      (∀ reg mask bits slot, exec (.rmw reg mask bits slot) s = .next
        { s with
          bus := rest, err := .none, done := true, phase := .idle,
          s1 := if slot = .s1 then s.arg.extractLsb' 0 8 else s.s1,
          s2 := if slot = .s2 then s.arg.extractLsb' 0 8 else s.s2,
          out := .transport (.write s.devAddr [requestByte reg false, s.newval]) :: s.out }))

/-- `Fail` raises BusError in every transport command, in that one step, and nothing the command writes on success is
written; in RMW RLEN then tells which of the two transfers failed (rule R160). -/
def Obligations.TransportFailureIsBusError : Prop :=
  ∀ (s : State) (a : Config.BusAnswer) (rest : List Config.BusAnswer), s.bus = a :: rest → a.fail = true →
    let failed := fun r : Request => Host.Outcome.next
      { s with bus := rest, err := .bus, done := true, phase := .idle, out := .transport r :: s.out }
    (s.phase = .rcRd →
      (∀ reg v inc, exec (.rdreg reg v inc) s =
        failed (rdregRequest s.devAddr reg v inc)) ∧
      (∀ nreq nresp, exec (.xfer nreq nresp) s =
        failed (xferRequest s.devAddr s.arg nreq nresp)) ∧
      (∀ reg mask bits slot, exec (.rmw reg mask bits slot) s =
        failed (readRequest s.devAddr reg)) ∧
      (∀ reg expect, exec (.idchk reg expect) s = failed (readRequest s.devAddr reg))) ∧
    (s.phase = .rcWr →
      (∀ reg value, exec (.wrreg reg value) s = failed (writeRequest s.devAddr reg value)) ∧
      (∀ reg mask bits slot, exec (.rmw reg mask bits slot) s =
        failed (writeRequest s.devAddr reg s.newval))) ∧
    (∀ reg mask bits slot, Inv s → decode s.cmd = .ok (.rmw reg mask bits slot) →
      (s.phase = .rcRd → s.rlen = 0) ∧ (s.phase = .rcWr → s.rlen = 1))

/-- A request that the transport never answers leaves the block where it is, for any number of steps; reset ends it
(41_register_codec.md section 5). -/
def Obligations.UnansweredTransportIsStuck : Prop :=
  ∀ s : State, Inv s → s.phase = .rcRd ∨ s.phase = .rcWr → s.bus = [] →
    (s.inputs = [] → ∀ n, run n s = .next s) ∧
    (∀ rest, s.inputs = .reset :: rest → ∃ t, step s = .next t ∧ t.phase = .idle)

/-- The byte RMW will write keeps every bit outside the mask from the byte read and takes every bit inside the mask from the
operand (41_register_codec.md section 1). -/
def Obligations.RmwKeepsBitsOutsideMask : Prop :=
  ∀ (s t : State) (reg : RegAddr) (mask bits : Byte) (slot : Slot) (a : Config.BusAnswer) (rest : List Config.BusAnswer),
    bits &&& ~~~mask = 0 → s.phase = .rcRd → s.bus = a :: rest → a.fail = false →
    exec (.rmw reg mask bits slot) s = .next t →
    ∀ k : Nat, k < 8 → t.newval.getLsbD k = if mask.getLsbD k then bits.getLsbD k else a.rdata.getLsbD k

/-- SCALE changes only when the write of an RMW with a slot is answered `Ok`, and by reset (41_register_codec.md section
4). -/
def Obligations.ScaleIsWrittenOnlyByRmw : Prop :=
  ∀ s t : State, step s = .next t →
    (t.s1 = s.s1 ∧ t.s2 = s.s2) ∨ (∃ rest, s.inputs = .reset :: rest) ∨
    (∃ reg mask bits slot a rest, s.phase = .rcWr ∧ decode s.cmd = .ok (.rmw reg mask bits slot) ∧
      s.bus = a :: rest ∧ a.fail = false ∧
      (slot = .s1 ∧ t.s1 = s.arg.extractLsb' 0 8 ∧ t.s2 = s.s2 ∨
        slot = .s2 ∧ t.s1 = s.s1 ∧ t.s2 = s.arg.extractLsb' 0 8))

/-- DATA, CONV, DDIV and DVALID change only when an UNPK is accepted, and by reset: a later RMW does not alter the divisor
copied with a value (10_state.md section 2). -/
def Obligations.MeasurementSnapshotIsStable : Prop :=
  ∀ s t : State, step s = .next t →
    (t.data = s.data ∧ t.conv = s.conv ∧ t.ddiv = s.ddiv ∧ t.dvalid = s.dvalid) ∨
    (∃ rest, s.inputs = .reset :: rest) ∨
    (∃ w rest off v order sign conv, s.inputs = .write 0 w :: rest ∧ s.phase = .idle ∧
      decode w = .ok (.unpk off v order sign conv))

/-- RESP and RLEN change only at the accept of RDREG, XFER, RMW or IDCHK, when the read of one of these answers, and by
reset (10_state.md section 2). -/
def Obligations.ResponseBufferWriters : Prop :=
  ∀ s t : State, step s = .next t →
    (t.resp = s.resp ∧ t.rlen = s.rlen) ∨ (∃ rest, s.inputs = .reset :: rest) ∨
    (s.phase = .rcRd ∧ ∃ a rest, s.bus = a :: rest ∧ a.fail = false ∧ t.bus = rest) ∨
    (t.resp = Vector.replicate 8 0 ∧ t.rlen = 0 ∧ t.phase = .rcRd ∧
      ∃ w rest i, s.inputs = .write 0 w :: rest ∧ s.phase = .idle ∧ decode w = .ok i ∧ runsIn i .rcRd = true)

/-- VALID belongs to SWRD and IDOK to IDCHK: no other command and no host access but reset changes them (10_state.md section
4). -/
def Obligations.FlagOwners : Prop :=
  ∀ s t : State, step s = .next t →
    (t.valid = s.valid ∨ (∃ rest, s.inputs = .reset :: rest) ∨
      (t.valid = false ∧ ∃ w rest, s.inputs = .write 0 w :: rest ∧ s.phase = .idle ∧ decode w = .ok .swrd) ∨
      (t.valid = true ∧ s.phase = .datH ∧ decode s.cmd = .ok .swrd)) ∧
    (t.idok = s.idok ∨ (∃ rest, s.inputs = .reset :: rest) ∨
      (t.idok = false ∧ ∃ w rest reg expect, s.inputs = .write 0 w :: rest ∧ s.phase = .idle ∧
        decode w = .ok (.idchk reg expect)) ∨
      (s.phase = .rcRd ∧ ∃ reg expect, decode s.cmd = .ok (.idchk reg expect)))

/-- While a command runs nothing but reset changes CMD, ARG or DEV_ADDR, and no command ever writes them (20_memory.md
section 6). -/
def Obligations.OperandsCannotChangeUnderACommand : Prop :=
  (∀ s t : State, s.phase ≠ .idle → step s = .next t →
    (t.cmd = s.cmd ∧ t.arg = s.arg ∧ t.devAddr = s.devAddr) ∨ ∃ rest, s.inputs = .reset :: rest) ∧
  (∀ (i : Instr) (s t : State), exec i s = .next t → t.cmd = s.cmd ∧ t.arg = s.arg ∧ t.devAddr = s.devAddr)

/-- The engine's commands touch nothing of the single-wire unit, no pin answer and no pin signal, not REJ, and no parameter
or input (41_register_codec.md section 1 and section 2, 40_single_wire.md section 4). -/
def Obligations.EngineFrame : Prop :=
  ∀ (i : Instr) (s t : State), i ≠ .swrd → exec i s = .next t →
    t.b = s.b ∧ t.bitcnt = s.bitcnt ∧ t.humT = s.humT ∧ t.tempT = s.tempT ∧ t.neg = s.neg ∧ t.valid = s.valid ∧
    t.cnt = s.cnt ∧ t.lowdur = s.lowdur ∧ t.hold = s.hold ∧ t.pinmode = s.pinmode ∧ t.pinout = s.pinout ∧
    t.pin = s.pin ∧ t.pinIndex = s.pinIndex ∧ t.rej = s.rej ∧ t.params = s.params ∧ t.inputs = s.inputs

/-! Ports, outputs, host side -/

/-- The transport port presents a request exactly in RC_RD and RC_WR, and the primitive performed is the one presented
(20_memory.md section 1, 10_state.md section 6). TR_REQ is seen in the states between steps only, which is the model's choice
(note 29). -/
def Obligations.PortShowsTheRequestPerformed : Prop :=
  ∀ s : State, Inv s →
    (s.trReq = true ↔ s.phase = .rcRd ∨ s.phase = .rcWr) ∧
    (∀ (t : State) (a : Config.BusAnswer) (rest : List Config.BusAnswer), s.phase = .rcRd ∨ s.phase = .rcWr →
      s.inputs = [] → s.bus = a :: rest → step s = .next t →
      t.bus = rest ∧ ∃ r, s.request = some r ∧ t.out = .transport r :: s.out)

/-- What leaves the block only grows, by at most three entries a step, and an idle block with no host access shows nothing
(20_memory.md section 6, and the rows of 40_single_wire.md section 5; notes 1, 8). -/
def Obligations.OutputsOnlyGrow : Prop :=
  ∀ s t : State, step s = .next t →
    (∃ new, t.out = new ++ s.out ∧ new.length ≤ 3) ∧
    (s.phase = .idle → s.inputs = [] → t.out = s.out) ∧
    (s.phase = .idle → ∀ a w rest, s.inputs = .write a w :: rest → t.out = s.out)

/-- The signals of the transport port for the requests of this block (20_memory.md section 1). Nothing is said of the places of
TR_WDATA beyond the bytes to write (note 28). -/
def Obligations.PortSignalsSpellTheRequest : Prop :=
  ∀ (addr : BusAddr) (x y z : Byte) (m : Nat), m ≤ 8 →
    (let r := Request.writeThenRead addr [x] m
     r.kind = false ∧ r.addr = addr ∧ r.writeLength = 1 ∧ r.writeData.extractLsb' 0 8 = x ∧ r.readLength.toNat = m) ∧
    (let r := Request.writeThenRead addr [x, y, z] m
     r.kind = false ∧ r.addr = addr ∧ r.writeLength = 3 ∧ r.writeData.extractLsb' 0 8 = x ∧
      r.writeData.extractLsb' 8 8 = y ∧ r.writeData.extractLsb' 16 8 = z ∧ r.readLength.toNat = m) ∧
    (let r := Request.write addr [x, y]
     r.kind = true ∧ r.addr = addr ∧ r.writeLength = 2 ∧ r.writeData.extractLsb' 0 8 = x ∧
      r.writeData.extractLsb' 8 8 = y ∧ r.readLength = 0)

/-- The words the assembler gives for the examples of 30_encoding.md section 4, and two lines it refuses. -/
def Obligations.AssemblerExamples : Prop :=
  CommandLine.swrd.word? = some 0x10000000 ∧
  (CommandLine.rdreg 0x28 2 1).word? = some 0x23280000 ∧
  (CommandLine.xfer 3 8).word? = some 0x33080000 ∧
  (CommandLine.wrreg 0x20 0x57).word? = some 0x40205700 ∧
  (CommandLine.rmw 0x21 0x38 0x20 1).word? = some 0x51213820 ∧
  (CommandLine.unpk 4 2 .be .signed .tenths).word? = some 0x65040100 ∧
  (CommandLine.unpk 0 2 .le .signed .sc1).word? = some 0x67000200 ∧
  (CommandLine.idchk 0x0F 0x49).word? = some 0x700F4900 ∧
  (CommandLine.rdreg 0x28 3 1).word? = none ∧
  (CommandLine.rmw 0x21 0x38 0x20 3).word? = none

/-- Physical values: tenths and scaled values as exact rationals, for both candidates of FS_CONST (41_register_codec.md
section 3). -/
def Obligations.PhysicalValues : Prop :=
  (∀ (fs : Config.FsConst) (data : Word) (ddiv : Byte),
    physicalValue fs data .raw ddiv = (data.toInt : Rat) ∧
    physicalValue fs data .tenths ddiv * 10 = (data.toInt : Rat) ∧
    physicalValue fs data .sc1 ddiv * (fs.value : Rat) = (data.toInt : Rat) * (ddiv.toNat : Rat) ∧
    physicalValue fs data .sc2 ddiv * (fs.value : Rat) = (data.toInt : Rat) * (ddiv.toNat : Rat) ∧
    physicalValue fs data .sc1 0 = 0) ∧
  physicalValue .power32768 0x00000101 .tenths 0 = 257 / 10 ∧
  physicalValue .power32768 0xFFFFF800 .sc1 16 = -1 ∧
  physicalValue .literal32678 0xFFFFF800 .sc1 16 = -16384 / 16339

/-! Invariants and the whole machine -/

/-- The state after reset meets the invariant. -/
def Obligations.ResetMeetsTheInvariant : Prop := Inv State.reset

/-- Every step, whatever the host and the environment do, keeps the invariant. -/
def Obligations.StepKeepsTheInvariant : Prop := ∀ s t : State, Inv s → step s = .next t → Inv t

/-- A state that meets the invariant never stops: the machine has no fault and no refusal there. -/
def Obligations.InvariantStatesNeverStop : Prop := ∀ s : State, Inv s → ∃ t, step s = .next t

/-- Whatever the host does and whatever the environment answers, every run from reset goes on for ever and meets the
invariant after every step (70_reset_and_hazards.md section 1, 40_single_wire.md section 5, 41_register_codec.md section 5). -/
def Obligations.EveryRunFromResetGoesOn : Prop :=
  ∀ (params : Config.Params) (inputs : List Input) (pin : List Config.PinAnswer) (bus : List Config.BusAnswer) (n : Nat),
    1 ≤ params.budget →
    ∃ t, run n { State.reset with params := params, inputs := inputs, pin := pin, bus := bus } = .next t ∧ Inv t ∧
      t.params = params

/-- No step changes the build-time parameters (00_scope.md section 3). -/
def Obligations.StepKeepsTheParameters : Prop := ∀ s t : State, step s = .next t → t.params = s.params
end

