-- ==== Sys2Proof/Laws/Encoding.lean ====
section
/-! SUPPORT. The fields of a word made from fields, and the codes of the operands: what decoding an encoded word rests on. -/

namespace Sys2Proof

/-- Bit i of a word made of fields (rule R70). -/
theorem getLsbD_mkWord (o x : BitVec 4) (a b c : Byte) (i : Nat) :
    (mkWord o x a b c).getLsbD i =
      if i < 8 then c.getLsbD i else if i < 16 then b.getLsbD (i - 8) else if i < 24 then a.getLsbD (i - 16)
      else if i < 28 then x.getLsbD (i - 24) else o.getLsbD (i - 28) := by
  change BitVec.getLsbD (w := 4 + 4 + 8 + 8 + 8) (o ++ x ++ a ++ b ++ c) i = _
  simp only [BitVec.getLsbD_append, Nat.sub_sub]
  split_ifs <;> first | rfl | omega

@[simp] theorem opcOf_mkWord (o x : BitVec 4) (a b c : Byte) : opcOf (mkWord o x a b c) = o := by
  ext i hi
  simp only [opcOf, ← BitVec.getLsbD_eq_getElem, BitVec.getLsbD_extractLsb', getLsbD_mkWord]
  simp [hi, show ¬(28 + i < 8) by omega, show ¬(28 + i < 16) by omega, show ¬(28 + i < 24) by omega, show ¬(28 + i < 28) by omega, show 28 + i - 28 = i by omega]

@[simp] theorem auxOf_mkWord (o x : BitVec 4) (a b c : Byte) : auxOf (mkWord o x a b c) = x := by
  ext i hi
  simp only [auxOf, ← BitVec.getLsbD_eq_getElem, BitVec.getLsbD_extractLsb', getLsbD_mkWord]
  simp [hi, show ¬(24 + i < 8) by omega, show ¬(24 + i < 16) by omega, show ¬(24 + i < 24) by omega, show 24 + i < 28 by omega, show 24 + i - 24 = i by omega]

@[simp] theorem aOf_mkWord (o x : BitVec 4) (a b c : Byte) : aOf (mkWord o x a b c) = a := by
  ext i hi
  simp only [aOf, ← BitVec.getLsbD_eq_getElem, BitVec.getLsbD_extractLsb', getLsbD_mkWord]
  simp [hi, show ¬(16 + i < 8) by omega, show ¬(16 + i < 16) by omega, show 16 + i < 24 by omega, show 16 + i - 16 = i by omega]

@[simp] theorem bOf_mkWord (o x : BitVec 4) (a b c : Byte) : bOf (mkWord o x a b c) = b := by
  ext i hi
  simp only [bOf, ← BitVec.getLsbD_eq_getElem, BitVec.getLsbD_extractLsb', getLsbD_mkWord]
  simp [hi, show ¬(8 + i < 8) by omega, show 8 + i < 16 by omega, show 8 + i - 8 = i by omega]

@[simp] theorem cOf_mkWord (o x : BitVec 4) (a b c : Byte) : cOf (mkWord o x a b c) = c := by
  ext i hi
  simp only [cOf, ← BitVec.getLsbD_eq_getElem, BitVec.getLsbD_extractLsb', getLsbD_mkWord]
  simp [hi]

/-- A word is made of its five fields. -/
theorem mkWord_fields (w : Word) : mkWord (opcOf w) (auxOf w) (aOf w) (bOf w) (cOf w) = w := by
  ext i hi
  rw [← BitVec.getLsbD_eq_getElem, getLsbD_mkWord, ← BitVec.getLsbD_eq_getElem]
  simp only [opcOf, auxOf, aOf, bOf, cOf, BitVec.getLsbD_extractLsb']
  split_ifs with h1 h2 h3 h4
  · simp [h1]
  · rw [show 8 + (i - 8) = i by omega]
    simp
    omega
  · rw [show 16 + (i - 16) = i by omega]
    simp
    omega
  · rw [show 24 + (i - 24) = i by omega]
    simp
    omega
  · rw [show 28 + (i - 28) = i by omega]
    simp
    omega

@[simp] theorem widthOf_bit (w : Width) : widthOf w.bit = w := by cases w <;> rfl

@[simp] theorem bit_widthOf (x : Bool) : (widthOf x).bit = x := by cases x <;> rfl

@[simp] theorem byteOrderOf_bit (o : ByteOrder) : byteOrderOf o.bit = o := by cases o <;> rfl

@[simp] theorem bit_byteOrderOf (x : Bool) : (byteOrderOf x).bit = x := by cases x <;> rfl

@[simp] theorem signOf_bit (g : Signedness) : signOf g.bit = g := by cases g <;> rfl

@[simp] theorem bit_signOf (x : Bool) : (signOf x).bit = x := by cases x <;> rfl

@[simp] theorem convOf_code (c : Conv) : convOf c.code = c := by cases c <;> rfl

@[simp] theorem code_convOf (c : BitVec 2) : (convOf c).code = c := by revert c; decide

@[simp] theorem slotOf_code (x : Slot) : slotOf x.code = some x := by cases x <;> rfl

theorem code_of_slotOf {c : BitVec 2} {x : Slot} (h : slotOf c = some x) : x.code = c := by
  revert h
  revert c
  cases x <;> decide

theorem regField_top (r : RegAddr) : (regField r).getLsbD 7 = false := by revert r; decide

@[simp] theorem regField_bit7 (r : RegAddr) : (regField r)[7] = false := by revert r; decide

@[simp] theorem regField_low (r : RegAddr) : (regField r).extractLsb' 0 7 = r := by revert r; decide

theorem regField_of_top {a : Byte} (h : a.getLsbD 7 = false) : regField (a.extractLsb' 0 7) = a := by
  revert h
  revert a
  decide

end Sys2Proof
end

