-- ==== Sys2Proof/Laws/State.lean ====
section
/-! SUPPORT. For each named operation and each field of the state, what the operation leaves in the field. -/

namespace Sys2Proof.Machine

/-! `emit` -/

@[simp] theorem emit_b (o : Output) (s : State) : (emit o s).b = s.b := rfl
@[simp] theorem emit_bitcnt (o : Output) (s : State) : (emit o s).bitcnt = s.bitcnt := rfl
@[simp] theorem emit_resp (o : Output) (s : State) : (emit o s).resp = s.resp := rfl
@[simp] theorem emit_rlen (o : Output) (s : State) : (emit o s).rlen = s.rlen := rfl
@[simp] theorem emit_data (o : Output) (s : State) : (emit o s).data = s.data := rfl
@[simp] theorem emit_conv (o : Output) (s : State) : (emit o s).conv = s.conv := rfl
@[simp] theorem emit_ddiv (o : Output) (s : State) : (emit o s).ddiv = s.ddiv := rfl
@[simp] theorem emit_dvalid (o : Output) (s : State) : (emit o s).dvalid = s.dvalid := rfl
@[simp] theorem emit_phase (o : Output) (s : State) : (emit o s).phase = s.phase := rfl
@[simp] theorem emit_done (o : Output) (s : State) : (emit o s).done = s.done := rfl
@[simp] theorem emit_valid (o : Output) (s : State) : (emit o s).valid = s.valid := rfl
@[simp] theorem emit_idok (o : Output) (s : State) : (emit o s).idok = s.idok := rfl
@[simp] theorem emit_rej (o : Output) (s : State) : (emit o s).rej = s.rej := rfl
@[simp] theorem emit_err (o : Output) (s : State) : (emit o s).err = s.err := rfl
@[simp] theorem emit_cmd (o : Output) (s : State) : (emit o s).cmd = s.cmd := rfl
@[simp] theorem emit_arg (o : Output) (s : State) : (emit o s).arg = s.arg := rfl
@[simp] theorem emit_devAddr (o : Output) (s : State) : (emit o s).devAddr = s.devAddr := rfl
@[simp] theorem emit_s1 (o : Output) (s : State) : (emit o s).s1 = s.s1 := rfl
@[simp] theorem emit_s2 (o : Output) (s : State) : (emit o s).s2 = s.s2 := rfl
@[simp] theorem emit_humT (o : Output) (s : State) : (emit o s).humT = s.humT := rfl
@[simp] theorem emit_tempT (o : Output) (s : State) : (emit o s).tempT = s.tempT := rfl
@[simp] theorem emit_neg (o : Output) (s : State) : (emit o s).neg = s.neg := rfl
@[simp] theorem emit_cnt (o : Output) (s : State) : (emit o s).cnt = s.cnt := rfl
@[simp] theorem emit_lowdur (o : Output) (s : State) : (emit o s).lowdur = s.lowdur := rfl
@[simp] theorem emit_hold (o : Output) (s : State) : (emit o s).hold = s.hold := rfl
@[simp] theorem emit_pinmode (o : Output) (s : State) : (emit o s).pinmode = s.pinmode := rfl
@[simp] theorem emit_pinout (o : Output) (s : State) : (emit o s).pinout = s.pinout := rfl
@[simp] theorem emit_newval (o : Output) (s : State) : (emit o s).newval = s.newval := rfl
@[simp] theorem emit_params (o : Output) (s : State) : (emit o s).params = s.params := rfl
@[simp] theorem emit_inputs (o : Output) (s : State) : (emit o s).inputs = s.inputs := rfl
@[simp] theorem emit_pin (o : Output) (s : State) : (emit o s).pin = s.pin := rfl
@[simp] theorem emit_pinIndex (o : Output) (s : State) : (emit o s).pinIndex = s.pinIndex := rfl
@[simp] theorem emit_bus (o : Output) (s : State) : (emit o s).bus = s.bus := rfl
@[simp] theorem emit_out (o : Output) (s : State) : (emit o s).out = o :: s.out := rfl

/-! `wait` -/

@[simp] theorem wait_b (n : Nat) (s : State) : (wait n s).b = s.b := rfl
@[simp] theorem wait_bitcnt (n : Nat) (s : State) : (wait n s).bitcnt = s.bitcnt := rfl
@[simp] theorem wait_resp (n : Nat) (s : State) : (wait n s).resp = s.resp := rfl
@[simp] theorem wait_rlen (n : Nat) (s : State) : (wait n s).rlen = s.rlen := rfl
@[simp] theorem wait_data (n : Nat) (s : State) : (wait n s).data = s.data := rfl
@[simp] theorem wait_conv (n : Nat) (s : State) : (wait n s).conv = s.conv := rfl
@[simp] theorem wait_ddiv (n : Nat) (s : State) : (wait n s).ddiv = s.ddiv := rfl
@[simp] theorem wait_dvalid (n : Nat) (s : State) : (wait n s).dvalid = s.dvalid := rfl
@[simp] theorem wait_phase (n : Nat) (s : State) : (wait n s).phase = s.phase := rfl
@[simp] theorem wait_done (n : Nat) (s : State) : (wait n s).done = s.done := rfl
@[simp] theorem wait_valid (n : Nat) (s : State) : (wait n s).valid = s.valid := rfl
@[simp] theorem wait_idok (n : Nat) (s : State) : (wait n s).idok = s.idok := rfl
@[simp] theorem wait_rej (n : Nat) (s : State) : (wait n s).rej = s.rej := rfl
@[simp] theorem wait_err (n : Nat) (s : State) : (wait n s).err = s.err := rfl
@[simp] theorem wait_cmd (n : Nat) (s : State) : (wait n s).cmd = s.cmd := rfl
@[simp] theorem wait_arg (n : Nat) (s : State) : (wait n s).arg = s.arg := rfl
@[simp] theorem wait_devAddr (n : Nat) (s : State) : (wait n s).devAddr = s.devAddr := rfl
@[simp] theorem wait_s1 (n : Nat) (s : State) : (wait n s).s1 = s.s1 := rfl
@[simp] theorem wait_s2 (n : Nat) (s : State) : (wait n s).s2 = s.s2 := rfl
@[simp] theorem wait_humT (n : Nat) (s : State) : (wait n s).humT = s.humT := rfl
@[simp] theorem wait_tempT (n : Nat) (s : State) : (wait n s).tempT = s.tempT := rfl
@[simp] theorem wait_neg (n : Nat) (s : State) : (wait n s).neg = s.neg := rfl
@[simp] theorem wait_cnt (n : Nat) (s : State) : (wait n s).cnt = s.cnt := rfl
@[simp] theorem wait_lowdur (n : Nat) (s : State) : (wait n s).lowdur = s.lowdur := rfl
@[simp] theorem wait_hold (n : Nat) (s : State) : (wait n s).hold = 0 := rfl
@[simp] theorem wait_pinmode (n : Nat) (s : State) : (wait n s).pinmode = s.pinmode := rfl
@[simp] theorem wait_pinout (n : Nat) (s : State) : (wait n s).pinout = s.pinout := rfl
@[simp] theorem wait_newval (n : Nat) (s : State) : (wait n s).newval = s.newval := rfl
@[simp] theorem wait_params (n : Nat) (s : State) : (wait n s).params = s.params := rfl
@[simp] theorem wait_inputs (n : Nat) (s : State) : (wait n s).inputs = s.inputs := rfl
@[simp] theorem wait_pin (n : Nat) (s : State) : (wait n s).pin = s.pin := rfl
@[simp] theorem wait_pinIndex (n : Nat) (s : State) : (wait n s).pinIndex = s.pinIndex := rfl
@[simp] theorem wait_bus (n : Nat) (s : State) : (wait n s).bus = s.bus := rfl
@[simp] theorem wait_out (n : Nat) (s : State) : (wait n s).out = .wait n :: s.out := rfl

/-! `pinRelease` -/

@[simp] theorem pinRelease_b (s : State) : (pinRelease s).b = s.b := rfl
@[simp] theorem pinRelease_bitcnt (s : State) : (pinRelease s).bitcnt = s.bitcnt := rfl
@[simp] theorem pinRelease_resp (s : State) : (pinRelease s).resp = s.resp := rfl
@[simp] theorem pinRelease_rlen (s : State) : (pinRelease s).rlen = s.rlen := rfl
@[simp] theorem pinRelease_data (s : State) : (pinRelease s).data = s.data := rfl
@[simp] theorem pinRelease_conv (s : State) : (pinRelease s).conv = s.conv := rfl
@[simp] theorem pinRelease_ddiv (s : State) : (pinRelease s).ddiv = s.ddiv := rfl
@[simp] theorem pinRelease_dvalid (s : State) : (pinRelease s).dvalid = s.dvalid := rfl
@[simp] theorem pinRelease_phase (s : State) : (pinRelease s).phase = s.phase := rfl
@[simp] theorem pinRelease_done (s : State) : (pinRelease s).done = s.done := rfl
@[simp] theorem pinRelease_valid (s : State) : (pinRelease s).valid = s.valid := rfl
@[simp] theorem pinRelease_idok (s : State) : (pinRelease s).idok = s.idok := rfl
@[simp] theorem pinRelease_rej (s : State) : (pinRelease s).rej = s.rej := rfl
@[simp] theorem pinRelease_err (s : State) : (pinRelease s).err = s.err := rfl
@[simp] theorem pinRelease_cmd (s : State) : (pinRelease s).cmd = s.cmd := rfl
@[simp] theorem pinRelease_arg (s : State) : (pinRelease s).arg = s.arg := rfl
@[simp] theorem pinRelease_devAddr (s : State) : (pinRelease s).devAddr = s.devAddr := rfl
@[simp] theorem pinRelease_s1 (s : State) : (pinRelease s).s1 = s.s1 := rfl
@[simp] theorem pinRelease_s2 (s : State) : (pinRelease s).s2 = s.s2 := rfl
@[simp] theorem pinRelease_humT (s : State) : (pinRelease s).humT = s.humT := rfl
@[simp] theorem pinRelease_tempT (s : State) : (pinRelease s).tempT = s.tempT := rfl
@[simp] theorem pinRelease_neg (s : State) : (pinRelease s).neg = s.neg := rfl
@[simp] theorem pinRelease_cnt (s : State) : (pinRelease s).cnt = s.cnt := rfl
@[simp] theorem pinRelease_lowdur (s : State) : (pinRelease s).lowdur = s.lowdur := rfl
@[simp] theorem pinRelease_hold (s : State) : (pinRelease s).hold = s.hold := rfl
@[simp] theorem pinRelease_pinmode (s : State) : (pinRelease s).pinmode = .sample := rfl
@[simp] theorem pinRelease_pinout (s : State) : (pinRelease s).pinout = s.pinout := rfl
@[simp] theorem pinRelease_newval (s : State) : (pinRelease s).newval = s.newval := rfl
@[simp] theorem pinRelease_params (s : State) : (pinRelease s).params = s.params := rfl
@[simp] theorem pinRelease_inputs (s : State) : (pinRelease s).inputs = s.inputs := rfl
@[simp] theorem pinRelease_pin (s : State) : (pinRelease s).pin = s.pin := rfl
@[simp] theorem pinRelease_pinIndex (s : State) : (pinRelease s).pinIndex = s.pinIndex := rfl
@[simp] theorem pinRelease_bus (s : State) : (pinRelease s).bus = s.bus := rfl
@[simp] theorem pinRelease_out (s : State) : (pinRelease s).out = .release :: s.out := rfl

/-! `pinDrive` -/

@[simp] theorem pinDrive_b (l : Bool) (s : State) : (pinDrive l s).b = s.b := rfl
@[simp] theorem pinDrive_bitcnt (l : Bool) (s : State) : (pinDrive l s).bitcnt = s.bitcnt := rfl
@[simp] theorem pinDrive_resp (l : Bool) (s : State) : (pinDrive l s).resp = s.resp := rfl
@[simp] theorem pinDrive_rlen (l : Bool) (s : State) : (pinDrive l s).rlen = s.rlen := rfl
@[simp] theorem pinDrive_data (l : Bool) (s : State) : (pinDrive l s).data = s.data := rfl
@[simp] theorem pinDrive_conv (l : Bool) (s : State) : (pinDrive l s).conv = s.conv := rfl
@[simp] theorem pinDrive_ddiv (l : Bool) (s : State) : (pinDrive l s).ddiv = s.ddiv := rfl
@[simp] theorem pinDrive_dvalid (l : Bool) (s : State) : (pinDrive l s).dvalid = s.dvalid := rfl
@[simp] theorem pinDrive_phase (l : Bool) (s : State) : (pinDrive l s).phase = s.phase := rfl
@[simp] theorem pinDrive_done (l : Bool) (s : State) : (pinDrive l s).done = s.done := rfl
@[simp] theorem pinDrive_valid (l : Bool) (s : State) : (pinDrive l s).valid = s.valid := rfl
@[simp] theorem pinDrive_idok (l : Bool) (s : State) : (pinDrive l s).idok = s.idok := rfl
@[simp] theorem pinDrive_rej (l : Bool) (s : State) : (pinDrive l s).rej = s.rej := rfl
@[simp] theorem pinDrive_err (l : Bool) (s : State) : (pinDrive l s).err = s.err := rfl
@[simp] theorem pinDrive_cmd (l : Bool) (s : State) : (pinDrive l s).cmd = s.cmd := rfl
@[simp] theorem pinDrive_arg (l : Bool) (s : State) : (pinDrive l s).arg = s.arg := rfl
@[simp] theorem pinDrive_devAddr (l : Bool) (s : State) : (pinDrive l s).devAddr = s.devAddr := rfl
@[simp] theorem pinDrive_s1 (l : Bool) (s : State) : (pinDrive l s).s1 = s.s1 := rfl
@[simp] theorem pinDrive_s2 (l : Bool) (s : State) : (pinDrive l s).s2 = s.s2 := rfl
@[simp] theorem pinDrive_humT (l : Bool) (s : State) : (pinDrive l s).humT = s.humT := rfl
@[simp] theorem pinDrive_tempT (l : Bool) (s : State) : (pinDrive l s).tempT = s.tempT := rfl
@[simp] theorem pinDrive_neg (l : Bool) (s : State) : (pinDrive l s).neg = s.neg := rfl
@[simp] theorem pinDrive_cnt (l : Bool) (s : State) : (pinDrive l s).cnt = s.cnt := rfl
@[simp] theorem pinDrive_lowdur (l : Bool) (s : State) : (pinDrive l s).lowdur = s.lowdur := rfl
@[simp] theorem pinDrive_hold (l : Bool) (s : State) : (pinDrive l s).hold = s.hold := rfl
@[simp] theorem pinDrive_pinmode (l : Bool) (s : State) : (pinDrive l s).pinmode = .drive := rfl
@[simp] theorem pinDrive_pinout (l : Bool) (s : State) : (pinDrive l s).pinout = l := rfl
@[simp] theorem pinDrive_newval (l : Bool) (s : State) : (pinDrive l s).newval = s.newval := rfl
@[simp] theorem pinDrive_params (l : Bool) (s : State) : (pinDrive l s).params = s.params := rfl
@[simp] theorem pinDrive_inputs (l : Bool) (s : State) : (pinDrive l s).inputs = s.inputs := rfl
@[simp] theorem pinDrive_pin (l : Bool) (s : State) : (pinDrive l s).pin = s.pin.tail := rfl
@[simp] theorem pinDrive_pinIndex (l : Bool) (s : State) : (pinDrive l s).pinIndex = s.pinIndex + 1 := rfl
@[simp] theorem pinDrive_bus (l : Bool) (s : State) : (pinDrive l s).bus = s.bus := rfl
@[simp] theorem pinDrive_out (l : Bool) (s : State) : (pinDrive l s).out = .drive l :: s.out := rfl

/-! `pinSample` -/

@[simp] theorem pinSample_b (s : State) : (pinSample s).b = s.b := rfl
@[simp] theorem pinSample_bitcnt (s : State) : (pinSample s).bitcnt = s.bitcnt := rfl
@[simp] theorem pinSample_resp (s : State) : (pinSample s).resp = s.resp := rfl
@[simp] theorem pinSample_rlen (s : State) : (pinSample s).rlen = s.rlen := rfl
@[simp] theorem pinSample_data (s : State) : (pinSample s).data = s.data := rfl
@[simp] theorem pinSample_conv (s : State) : (pinSample s).conv = s.conv := rfl
@[simp] theorem pinSample_ddiv (s : State) : (pinSample s).ddiv = s.ddiv := rfl
@[simp] theorem pinSample_dvalid (s : State) : (pinSample s).dvalid = s.dvalid := rfl
@[simp] theorem pinSample_phase (s : State) : (pinSample s).phase = s.phase := rfl
@[simp] theorem pinSample_done (s : State) : (pinSample s).done = s.done := rfl
@[simp] theorem pinSample_valid (s : State) : (pinSample s).valid = s.valid := rfl
@[simp] theorem pinSample_idok (s : State) : (pinSample s).idok = s.idok := rfl
@[simp] theorem pinSample_rej (s : State) : (pinSample s).rej = s.rej := rfl
@[simp] theorem pinSample_err (s : State) : (pinSample s).err = s.err := rfl
@[simp] theorem pinSample_cmd (s : State) : (pinSample s).cmd = s.cmd := rfl
@[simp] theorem pinSample_arg (s : State) : (pinSample s).arg = s.arg := rfl
@[simp] theorem pinSample_devAddr (s : State) : (pinSample s).devAddr = s.devAddr := rfl
@[simp] theorem pinSample_s1 (s : State) : (pinSample s).s1 = s.s1 := rfl
@[simp] theorem pinSample_s2 (s : State) : (pinSample s).s2 = s.s2 := rfl
@[simp] theorem pinSample_humT (s : State) : (pinSample s).humT = s.humT := rfl
@[simp] theorem pinSample_tempT (s : State) : (pinSample s).tempT = s.tempT := rfl
@[simp] theorem pinSample_neg (s : State) : (pinSample s).neg = s.neg := rfl
@[simp] theorem pinSample_cnt (s : State) : (pinSample s).cnt = s.cnt := rfl
@[simp] theorem pinSample_lowdur (s : State) : (pinSample s).lowdur = s.lowdur := rfl
@[simp] theorem pinSample_hold (s : State) : (pinSample s).hold = s.hold := rfl
@[simp] theorem pinSample_pinmode (s : State) : (pinSample s).pinmode = s.pinmode := rfl
@[simp] theorem pinSample_pinout (s : State) : (pinSample s).pinout = s.pinout := rfl
@[simp] theorem pinSample_newval (s : State) : (pinSample s).newval = s.newval := rfl
@[simp] theorem pinSample_params (s : State) : (pinSample s).params = s.params := rfl
@[simp] theorem pinSample_inputs (s : State) : (pinSample s).inputs = s.inputs := rfl
@[simp] theorem pinSample_pin (s : State) : (pinSample s).pin = s.pin.tail := rfl
@[simp] theorem pinSample_pinIndex (s : State) : (pinSample s).pinIndex = s.pinIndex + 1 := rfl
@[simp] theorem pinSample_bus (s : State) : (pinSample s).bus = s.bus := rfl
@[simp] theorem pinSample_out (s : State) : (pinSample s).out = .sample :: s.out := rfl

/-! `complete` -/

@[simp] theorem complete_b (s : State) : (complete s).b = s.b := rfl
@[simp] theorem complete_bitcnt (s : State) : (complete s).bitcnt = s.bitcnt := rfl
@[simp] theorem complete_resp (s : State) : (complete s).resp = s.resp := rfl
@[simp] theorem complete_rlen (s : State) : (complete s).rlen = s.rlen := rfl
@[simp] theorem complete_data (s : State) : (complete s).data = s.data := rfl
@[simp] theorem complete_conv (s : State) : (complete s).conv = s.conv := rfl
@[simp] theorem complete_ddiv (s : State) : (complete s).ddiv = s.ddiv := rfl
@[simp] theorem complete_dvalid (s : State) : (complete s).dvalid = s.dvalid := rfl
@[simp] theorem complete_phase (s : State) : (complete s).phase = .idle := rfl
@[simp] theorem complete_done (s : State) : (complete s).done = true := rfl
@[simp] theorem complete_valid (s : State) : (complete s).valid = s.valid := rfl
@[simp] theorem complete_idok (s : State) : (complete s).idok = s.idok := rfl
@[simp] theorem complete_rej (s : State) : (complete s).rej = s.rej := rfl
@[simp] theorem complete_err (s : State) : (complete s).err = .none := rfl
@[simp] theorem complete_cmd (s : State) : (complete s).cmd = s.cmd := rfl
@[simp] theorem complete_arg (s : State) : (complete s).arg = s.arg := rfl
@[simp] theorem complete_devAddr (s : State) : (complete s).devAddr = s.devAddr := rfl
@[simp] theorem complete_s1 (s : State) : (complete s).s1 = s.s1 := rfl
@[simp] theorem complete_s2 (s : State) : (complete s).s2 = s.s2 := rfl
@[simp] theorem complete_humT (s : State) : (complete s).humT = s.humT := rfl
@[simp] theorem complete_tempT (s : State) : (complete s).tempT = s.tempT := rfl
@[simp] theorem complete_neg (s : State) : (complete s).neg = s.neg := rfl
@[simp] theorem complete_cnt (s : State) : (complete s).cnt = s.cnt := rfl
@[simp] theorem complete_lowdur (s : State) : (complete s).lowdur = s.lowdur := rfl
@[simp] theorem complete_hold (s : State) : (complete s).hold = s.hold := rfl
@[simp] theorem complete_pinmode (s : State) : (complete s).pinmode = s.pinmode := rfl
@[simp] theorem complete_pinout (s : State) : (complete s).pinout = s.pinout := rfl
@[simp] theorem complete_newval (s : State) : (complete s).newval = s.newval := rfl
@[simp] theorem complete_params (s : State) : (complete s).params = s.params := rfl
@[simp] theorem complete_inputs (s : State) : (complete s).inputs = s.inputs := rfl
@[simp] theorem complete_pin (s : State) : (complete s).pin = s.pin := rfl
@[simp] theorem complete_pinIndex (s : State) : (complete s).pinIndex = s.pinIndex := rfl
@[simp] theorem complete_bus (s : State) : (complete s).bus = s.bus := rfl
@[simp] theorem complete_out (s : State) : (complete s).out = s.out := rfl

/-! `abort` -/

@[simp] theorem abort_b (e : ErrCode) (s : State) : (abort e s).b = s.b := by unfold abort; split <;> rfl
@[simp] theorem abort_bitcnt (e : ErrCode) (s : State) : (abort e s).bitcnt = s.bitcnt := by unfold abort; split <;> rfl
@[simp] theorem abort_resp (e : ErrCode) (s : State) : (abort e s).resp = s.resp := by unfold abort; split <;> rfl
@[simp] theorem abort_rlen (e : ErrCode) (s : State) : (abort e s).rlen = s.rlen := by unfold abort; split <;> rfl
@[simp] theorem abort_data (e : ErrCode) (s : State) : (abort e s).data = s.data := by unfold abort; split <;> rfl
@[simp] theorem abort_conv (e : ErrCode) (s : State) : (abort e s).conv = s.conv := by unfold abort; split <;> rfl
@[simp] theorem abort_ddiv (e : ErrCode) (s : State) : (abort e s).ddiv = s.ddiv := by unfold abort; split <;> rfl
@[simp] theorem abort_dvalid (e : ErrCode) (s : State) : (abort e s).dvalid = s.dvalid := by unfold abort; split <;> rfl
@[simp] theorem abort_phase (e : ErrCode) (s : State) : (abort e s).phase = .idle := by unfold abort; split <;> rfl
@[simp] theorem abort_done (e : ErrCode) (s : State) : (abort e s).done = true := by unfold abort; split <;> rfl
@[simp] theorem abort_valid (e : ErrCode) (s : State) : (abort e s).valid = s.valid := by unfold abort; split <;> rfl
@[simp] theorem abort_idok (e : ErrCode) (s : State) : (abort e s).idok = s.idok := by unfold abort; split <;> rfl
@[simp] theorem abort_rej (e : ErrCode) (s : State) : (abort e s).rej = s.rej := by unfold abort; split <;> rfl
@[simp] theorem abort_err (e : ErrCode) (s : State) : (abort e s).err = e := by unfold abort; split <;> rfl
@[simp] theorem abort_cmd (e : ErrCode) (s : State) : (abort e s).cmd = s.cmd := by unfold abort; split <;> rfl
@[simp] theorem abort_arg (e : ErrCode) (s : State) : (abort e s).arg = s.arg := by unfold abort; split <;> rfl
@[simp] theorem abort_devAddr (e : ErrCode) (s : State) :
    (abort e s).devAddr = s.devAddr := by unfold abort; split <;> rfl
@[simp] theorem abort_s1 (e : ErrCode) (s : State) : (abort e s).s1 = s.s1 := by unfold abort; split <;> rfl
@[simp] theorem abort_s2 (e : ErrCode) (s : State) : (abort e s).s2 = s.s2 := by unfold abort; split <;> rfl
@[simp] theorem abort_humT (e : ErrCode) (s : State) : (abort e s).humT = s.humT := by unfold abort; split <;> rfl
@[simp] theorem abort_tempT (e : ErrCode) (s : State) : (abort e s).tempT = s.tempT := by unfold abort; split <;> rfl
@[simp] theorem abort_neg (e : ErrCode) (s : State) : (abort e s).neg = s.neg := by unfold abort; split <;> rfl
@[simp] theorem abort_cnt (e : ErrCode) (s : State) : (abort e s).cnt = s.cnt := by unfold abort; split <;> rfl
@[simp] theorem abort_lowdur (e : ErrCode) (s : State) : (abort e s).lowdur = s.lowdur := by unfold abort; split <;> rfl
@[simp] theorem abort_hold (e : ErrCode) (s : State) : (abort e s).hold = s.hold := by unfold abort; split <;> rfl
@[simp] theorem abort_pinmode (e : ErrCode) (s : State) :
    (abort e s).pinmode = if s.phase.singleWire then .sample else s.pinmode := by unfold abort; split <;> rfl
@[simp] theorem abort_pinout (e : ErrCode) (s : State) : (abort e s).pinout = s.pinout := by unfold abort; split <;> rfl
@[simp] theorem abort_newval (e : ErrCode) (s : State) : (abort e s).newval = s.newval := by unfold abort; split <;> rfl
@[simp] theorem abort_params (e : ErrCode) (s : State) : (abort e s).params = s.params := by unfold abort; split <;> rfl
@[simp] theorem abort_inputs (e : ErrCode) (s : State) : (abort e s).inputs = s.inputs := by unfold abort; split <;> rfl
@[simp] theorem abort_pin (e : ErrCode) (s : State) : (abort e s).pin = s.pin := by unfold abort; split <;> rfl
@[simp] theorem abort_pinIndex (e : ErrCode) (s : State) :
    (abort e s).pinIndex = s.pinIndex := by unfold abort; split <;> rfl
@[simp] theorem abort_bus (e : ErrCode) (s : State) : (abort e s).bus = s.bus := by unfold abort; split <;> rfl
@[simp] theorem abort_out (e : ErrCode) (s : State) :
    (abort e s).out = if s.phase.singleWire then .release :: s.out else s.out := by unfold abort; split <;> rfl

/-! `refuse` -/

@[simp] theorem refuse_b (s : State) : (refuse s).b = s.b := rfl
@[simp] theorem refuse_bitcnt (s : State) : (refuse s).bitcnt = s.bitcnt := rfl
@[simp] theorem refuse_resp (s : State) : (refuse s).resp = s.resp := rfl
@[simp] theorem refuse_rlen (s : State) : (refuse s).rlen = s.rlen := rfl
@[simp] theorem refuse_data (s : State) : (refuse s).data = s.data := rfl
@[simp] theorem refuse_conv (s : State) : (refuse s).conv = s.conv := rfl
@[simp] theorem refuse_ddiv (s : State) : (refuse s).ddiv = s.ddiv := rfl
@[simp] theorem refuse_dvalid (s : State) : (refuse s).dvalid = s.dvalid := rfl
@[simp] theorem refuse_phase (s : State) : (refuse s).phase = s.phase := rfl
@[simp] theorem refuse_done (s : State) : (refuse s).done = true := rfl
@[simp] theorem refuse_valid (s : State) : (refuse s).valid = s.valid := rfl
@[simp] theorem refuse_idok (s : State) : (refuse s).idok = s.idok := rfl
@[simp] theorem refuse_rej (s : State) : (refuse s).rej = s.rej := rfl
@[simp] theorem refuse_err (s : State) : (refuse s).err = .illcmd := rfl
@[simp] theorem refuse_cmd (s : State) : (refuse s).cmd = s.cmd := rfl
@[simp] theorem refuse_arg (s : State) : (refuse s).arg = s.arg := rfl
@[simp] theorem refuse_devAddr (s : State) : (refuse s).devAddr = s.devAddr := rfl
@[simp] theorem refuse_s1 (s : State) : (refuse s).s1 = s.s1 := rfl
@[simp] theorem refuse_s2 (s : State) : (refuse s).s2 = s.s2 := rfl
@[simp] theorem refuse_humT (s : State) : (refuse s).humT = s.humT := rfl
@[simp] theorem refuse_tempT (s : State) : (refuse s).tempT = s.tempT := rfl
@[simp] theorem refuse_neg (s : State) : (refuse s).neg = s.neg := rfl
@[simp] theorem refuse_cnt (s : State) : (refuse s).cnt = s.cnt := rfl
@[simp] theorem refuse_lowdur (s : State) : (refuse s).lowdur = s.lowdur := rfl
@[simp] theorem refuse_hold (s : State) : (refuse s).hold = s.hold := rfl
@[simp] theorem refuse_pinmode (s : State) : (refuse s).pinmode = s.pinmode := rfl
@[simp] theorem refuse_pinout (s : State) : (refuse s).pinout = s.pinout := rfl
@[simp] theorem refuse_newval (s : State) : (refuse s).newval = s.newval := rfl
@[simp] theorem refuse_params (s : State) : (refuse s).params = s.params := rfl
@[simp] theorem refuse_inputs (s : State) : (refuse s).inputs = s.inputs := rfl
@[simp] theorem refuse_pin (s : State) : (refuse s).pin = s.pin := rfl
@[simp] theorem refuse_pinIndex (s : State) : (refuse s).pinIndex = s.pinIndex := rfl
@[simp] theorem refuse_bus (s : State) : (refuse s).bus = s.bus := rfl
@[simp] theorem refuse_out (s : State) : (refuse s).out = s.out := rfl

/-! `acceptWord` -/

@[simp] theorem acceptWord_b (w : Word) (s : State) : (acceptWord w s).b = s.b := rfl
@[simp] theorem acceptWord_bitcnt (w : Word) (s : State) : (acceptWord w s).bitcnt = s.bitcnt := rfl
@[simp] theorem acceptWord_resp (w : Word) (s : State) : (acceptWord w s).resp = s.resp := rfl
@[simp] theorem acceptWord_rlen (w : Word) (s : State) : (acceptWord w s).rlen = s.rlen := rfl
@[simp] theorem acceptWord_data (w : Word) (s : State) : (acceptWord w s).data = s.data := rfl
@[simp] theorem acceptWord_conv (w : Word) (s : State) : (acceptWord w s).conv = s.conv := rfl
@[simp] theorem acceptWord_ddiv (w : Word) (s : State) : (acceptWord w s).ddiv = s.ddiv := rfl
@[simp] theorem acceptWord_dvalid (w : Word) (s : State) : (acceptWord w s).dvalid = s.dvalid := rfl
@[simp] theorem acceptWord_phase (w : Word) (s : State) : (acceptWord w s).phase = s.phase := rfl
@[simp] theorem acceptWord_done (w : Word) (s : State) : (acceptWord w s).done = false := rfl
@[simp] theorem acceptWord_valid (w : Word) (s : State) : (acceptWord w s).valid = s.valid := rfl
@[simp] theorem acceptWord_idok (w : Word) (s : State) : (acceptWord w s).idok = s.idok := rfl
@[simp] theorem acceptWord_rej (w : Word) (s : State) : (acceptWord w s).rej = s.rej := rfl
@[simp] theorem acceptWord_err (w : Word) (s : State) : (acceptWord w s).err = .none := rfl
@[simp] theorem acceptWord_cmd (w : Word) (s : State) : (acceptWord w s).cmd = w := rfl
@[simp] theorem acceptWord_arg (w : Word) (s : State) : (acceptWord w s).arg = s.arg := rfl
@[simp] theorem acceptWord_devAddr (w : Word) (s : State) : (acceptWord w s).devAddr = s.devAddr := rfl
@[simp] theorem acceptWord_s1 (w : Word) (s : State) : (acceptWord w s).s1 = s.s1 := rfl
@[simp] theorem acceptWord_s2 (w : Word) (s : State) : (acceptWord w s).s2 = s.s2 := rfl
@[simp] theorem acceptWord_humT (w : Word) (s : State) : (acceptWord w s).humT = s.humT := rfl
@[simp] theorem acceptWord_tempT (w : Word) (s : State) : (acceptWord w s).tempT = s.tempT := rfl
@[simp] theorem acceptWord_neg (w : Word) (s : State) : (acceptWord w s).neg = s.neg := rfl
@[simp] theorem acceptWord_cnt (w : Word) (s : State) : (acceptWord w s).cnt = s.cnt := rfl
@[simp] theorem acceptWord_lowdur (w : Word) (s : State) : (acceptWord w s).lowdur = s.lowdur := rfl
@[simp] theorem acceptWord_hold (w : Word) (s : State) : (acceptWord w s).hold = s.hold := rfl
@[simp] theorem acceptWord_pinmode (w : Word) (s : State) : (acceptWord w s).pinmode = s.pinmode := rfl
@[simp] theorem acceptWord_pinout (w : Word) (s : State) : (acceptWord w s).pinout = s.pinout := rfl
@[simp] theorem acceptWord_newval (w : Word) (s : State) : (acceptWord w s).newval = s.newval := rfl
@[simp] theorem acceptWord_params (w : Word) (s : State) : (acceptWord w s).params = s.params := rfl
@[simp] theorem acceptWord_inputs (w : Word) (s : State) : (acceptWord w s).inputs = s.inputs := rfl
@[simp] theorem acceptWord_pin (w : Word) (s : State) : (acceptWord w s).pin = s.pin := rfl
@[simp] theorem acceptWord_pinIndex (w : Word) (s : State) : (acceptWord w s).pinIndex = s.pinIndex := rfl
@[simp] theorem acceptWord_bus (w : Word) (s : State) : (acceptWord w s).bus = s.bus := rfl
@[simp] theorem acceptWord_out (w : Word) (s : State) : (acceptWord w s).out = s.out := rfl

/-! `beginRead` -/

@[simp] theorem beginRead_b (s : State) : (beginRead s).b = s.b := rfl
@[simp] theorem beginRead_bitcnt (s : State) : (beginRead s).bitcnt = s.bitcnt := rfl
@[simp] theorem beginRead_resp (s : State) : (beginRead s).resp = #v[0, 0, 0, 0, 0, 0, 0, 0] := rfl
@[simp] theorem beginRead_rlen (s : State) : (beginRead s).rlen = 0 := rfl
@[simp] theorem beginRead_data (s : State) : (beginRead s).data = s.data := rfl
@[simp] theorem beginRead_conv (s : State) : (beginRead s).conv = s.conv := rfl
@[simp] theorem beginRead_ddiv (s : State) : (beginRead s).ddiv = s.ddiv := rfl
@[simp] theorem beginRead_dvalid (s : State) : (beginRead s).dvalid = s.dvalid := rfl
@[simp] theorem beginRead_phase (s : State) : (beginRead s).phase = .rcRd := rfl
@[simp] theorem beginRead_done (s : State) : (beginRead s).done = s.done := rfl
@[simp] theorem beginRead_valid (s : State) : (beginRead s).valid = s.valid := rfl
@[simp] theorem beginRead_idok (s : State) : (beginRead s).idok = s.idok := rfl
@[simp] theorem beginRead_rej (s : State) : (beginRead s).rej = s.rej := rfl
@[simp] theorem beginRead_err (s : State) : (beginRead s).err = s.err := rfl
@[simp] theorem beginRead_cmd (s : State) : (beginRead s).cmd = s.cmd := rfl
@[simp] theorem beginRead_arg (s : State) : (beginRead s).arg = s.arg := rfl
@[simp] theorem beginRead_devAddr (s : State) : (beginRead s).devAddr = s.devAddr := rfl
@[simp] theorem beginRead_s1 (s : State) : (beginRead s).s1 = s.s1 := rfl
@[simp] theorem beginRead_s2 (s : State) : (beginRead s).s2 = s.s2 := rfl
@[simp] theorem beginRead_humT (s : State) : (beginRead s).humT = s.humT := rfl
@[simp] theorem beginRead_tempT (s : State) : (beginRead s).tempT = s.tempT := rfl
@[simp] theorem beginRead_neg (s : State) : (beginRead s).neg = s.neg := rfl
@[simp] theorem beginRead_cnt (s : State) : (beginRead s).cnt = s.cnt := rfl
@[simp] theorem beginRead_lowdur (s : State) : (beginRead s).lowdur = s.lowdur := rfl
@[simp] theorem beginRead_hold (s : State) : (beginRead s).hold = s.hold := rfl
@[simp] theorem beginRead_pinmode (s : State) : (beginRead s).pinmode = s.pinmode := rfl
@[simp] theorem beginRead_pinout (s : State) : (beginRead s).pinout = s.pinout := rfl
@[simp] theorem beginRead_newval (s : State) : (beginRead s).newval = s.newval := rfl
@[simp] theorem beginRead_params (s : State) : (beginRead s).params = s.params := rfl
@[simp] theorem beginRead_inputs (s : State) : (beginRead s).inputs = s.inputs := rfl
@[simp] theorem beginRead_pin (s : State) : (beginRead s).pin = s.pin := rfl
@[simp] theorem beginRead_pinIndex (s : State) : (beginRead s).pinIndex = s.pinIndex := rfl
@[simp] theorem beginRead_bus (s : State) : (beginRead s).bus = s.bus := rfl
@[simp] theorem beginRead_out (s : State) : (beginRead s).out = s.out := rfl

/-! `storeResponse` -/

@[simp] theorem storeResponse_b (m : Nat) (d : BitVec 64) (s : State) : (storeResponse m d s).b = s.b := rfl
@[simp] theorem storeResponse_bitcnt (m : Nat) (d : BitVec 64) (s : State) :
    (storeResponse m d s).bitcnt = s.bitcnt := rfl
@[simp] theorem storeResponse_resp (m : Nat) (d : BitVec 64) (s : State) :
    (storeResponse m d s).resp = fillResp m d s.resp := rfl
@[simp] theorem storeResponse_rlen (m : Nat) (d : BitVec 64) (s : State) :
    (storeResponse m d s).rlen = BitVec.ofNat 4 m := rfl
@[simp] theorem storeResponse_data (m : Nat) (d : BitVec 64) (s : State) : (storeResponse m d s).data = s.data := rfl
@[simp] theorem storeResponse_conv (m : Nat) (d : BitVec 64) (s : State) : (storeResponse m d s).conv = s.conv := rfl
@[simp] theorem storeResponse_ddiv (m : Nat) (d : BitVec 64) (s : State) : (storeResponse m d s).ddiv = s.ddiv := rfl
@[simp] theorem storeResponse_dvalid (m : Nat) (d : BitVec 64) (s : State) :
    (storeResponse m d s).dvalid = s.dvalid := rfl
@[simp] theorem storeResponse_phase (m : Nat) (d : BitVec 64) (s : State) : (storeResponse m d s).phase = s.phase := rfl
@[simp] theorem storeResponse_done (m : Nat) (d : BitVec 64) (s : State) : (storeResponse m d s).done = s.done := rfl
@[simp] theorem storeResponse_valid (m : Nat) (d : BitVec 64) (s : State) : (storeResponse m d s).valid = s.valid := rfl
@[simp] theorem storeResponse_idok (m : Nat) (d : BitVec 64) (s : State) : (storeResponse m d s).idok = s.idok := rfl
@[simp] theorem storeResponse_rej (m : Nat) (d : BitVec 64) (s : State) : (storeResponse m d s).rej = s.rej := rfl
@[simp] theorem storeResponse_err (m : Nat) (d : BitVec 64) (s : State) : (storeResponse m d s).err = s.err := rfl
@[simp] theorem storeResponse_cmd (m : Nat) (d : BitVec 64) (s : State) : (storeResponse m d s).cmd = s.cmd := rfl
@[simp] theorem storeResponse_arg (m : Nat) (d : BitVec 64) (s : State) : (storeResponse m d s).arg = s.arg := rfl
@[simp] theorem storeResponse_devAddr (m : Nat) (d : BitVec 64) (s : State) :
    (storeResponse m d s).devAddr = s.devAddr := rfl
@[simp] theorem storeResponse_s1 (m : Nat) (d : BitVec 64) (s : State) : (storeResponse m d s).s1 = s.s1 := rfl
@[simp] theorem storeResponse_s2 (m : Nat) (d : BitVec 64) (s : State) : (storeResponse m d s).s2 = s.s2 := rfl
@[simp] theorem storeResponse_humT (m : Nat) (d : BitVec 64) (s : State) : (storeResponse m d s).humT = s.humT := rfl
@[simp] theorem storeResponse_tempT (m : Nat) (d : BitVec 64) (s : State) : (storeResponse m d s).tempT = s.tempT := rfl
@[simp] theorem storeResponse_neg (m : Nat) (d : BitVec 64) (s : State) : (storeResponse m d s).neg = s.neg := rfl
@[simp] theorem storeResponse_cnt (m : Nat) (d : BitVec 64) (s : State) : (storeResponse m d s).cnt = s.cnt := rfl
@[simp] theorem storeResponse_lowdur (m : Nat) (d : BitVec 64) (s : State) :
    (storeResponse m d s).lowdur = s.lowdur := rfl
@[simp] theorem storeResponse_hold (m : Nat) (d : BitVec 64) (s : State) : (storeResponse m d s).hold = s.hold := rfl
@[simp] theorem storeResponse_pinmode (m : Nat) (d : BitVec 64) (s : State) :
    (storeResponse m d s).pinmode = s.pinmode := rfl
@[simp] theorem storeResponse_pinout (m : Nat) (d : BitVec 64) (s : State) :
    (storeResponse m d s).pinout = s.pinout := rfl
@[simp] theorem storeResponse_newval (m : Nat) (d : BitVec 64) (s : State) :
    (storeResponse m d s).newval = s.newval := rfl
@[simp] theorem storeResponse_params (m : Nat) (d : BitVec 64) (s : State) :
    (storeResponse m d s).params = s.params := rfl
@[simp] theorem storeResponse_inputs (m : Nat) (d : BitVec 64) (s : State) :
    (storeResponse m d s).inputs = s.inputs := rfl
@[simp] theorem storeResponse_pin (m : Nat) (d : BitVec 64) (s : State) : (storeResponse m d s).pin = s.pin := rfl
@[simp] theorem storeResponse_pinIndex (m : Nat) (d : BitVec 64) (s : State) :
    (storeResponse m d s).pinIndex = s.pinIndex := rfl
@[simp] theorem storeResponse_bus (m : Nat) (d : BitVec 64) (s : State) : (storeResponse m d s).bus = s.bus := rfl
@[simp] theorem storeResponse_out (m : Nat) (d : BitVec 64) (s : State) : (storeResponse m d s).out = s.out := rfl

/-! `swrdAccept` -/

@[simp] theorem swrdAccept_b (s : State) : (swrdAccept s).b = #v[0, 0, 0, 0, 0] := rfl
@[simp] theorem swrdAccept_bitcnt (s : State) : (swrdAccept s).bitcnt = 0 := rfl
@[simp] theorem swrdAccept_resp (s : State) : (swrdAccept s).resp = s.resp := rfl
@[simp] theorem swrdAccept_rlen (s : State) : (swrdAccept s).rlen = s.rlen := rfl
@[simp] theorem swrdAccept_data (s : State) : (swrdAccept s).data = s.data := rfl
@[simp] theorem swrdAccept_conv (s : State) : (swrdAccept s).conv = s.conv := rfl
@[simp] theorem swrdAccept_ddiv (s : State) : (swrdAccept s).ddiv = s.ddiv := rfl
@[simp] theorem swrdAccept_dvalid (s : State) : (swrdAccept s).dvalid = s.dvalid := rfl
@[simp] theorem swrdAccept_phase (s : State) : (swrdAccept s).phase = .rqH1 := rfl
@[simp] theorem swrdAccept_done (s : State) : (swrdAccept s).done = s.done := rfl
@[simp] theorem swrdAccept_valid (s : State) : (swrdAccept s).valid = false := rfl
@[simp] theorem swrdAccept_idok (s : State) : (swrdAccept s).idok = s.idok := rfl
@[simp] theorem swrdAccept_rej (s : State) : (swrdAccept s).rej = s.rej := rfl
@[simp] theorem swrdAccept_err (s : State) : (swrdAccept s).err = s.err := rfl
@[simp] theorem swrdAccept_cmd (s : State) : (swrdAccept s).cmd = s.cmd := rfl
@[simp] theorem swrdAccept_arg (s : State) : (swrdAccept s).arg = s.arg := rfl
@[simp] theorem swrdAccept_devAddr (s : State) : (swrdAccept s).devAddr = s.devAddr := rfl
@[simp] theorem swrdAccept_s1 (s : State) : (swrdAccept s).s1 = s.s1 := rfl
@[simp] theorem swrdAccept_s2 (s : State) : (swrdAccept s).s2 = s.s2 := rfl
@[simp] theorem swrdAccept_humT (s : State) : (swrdAccept s).humT = 0 := rfl
@[simp] theorem swrdAccept_tempT (s : State) : (swrdAccept s).tempT = 0 := rfl
@[simp] theorem swrdAccept_neg (s : State) : (swrdAccept s).neg = false := rfl
@[simp] theorem swrdAccept_cnt (s : State) : (swrdAccept s).cnt = 0 := rfl
@[simp] theorem swrdAccept_lowdur (s : State) : (swrdAccept s).lowdur = 0 := rfl
@[simp] theorem swrdAccept_hold (s : State) : (swrdAccept s).hold = s.hold := rfl
@[simp] theorem swrdAccept_pinmode (s : State) : (swrdAccept s).pinmode = s.pinmode := rfl
@[simp] theorem swrdAccept_pinout (s : State) : (swrdAccept s).pinout = s.pinout := rfl
@[simp] theorem swrdAccept_newval (s : State) : (swrdAccept s).newval = s.newval := rfl
@[simp] theorem swrdAccept_params (s : State) : (swrdAccept s).params = s.params := rfl
@[simp] theorem swrdAccept_inputs (s : State) : (swrdAccept s).inputs = s.inputs := rfl
@[simp] theorem swrdAccept_pin (s : State) : (swrdAccept s).pin = s.pin := rfl
@[simp] theorem swrdAccept_pinIndex (s : State) : (swrdAccept s).pinIndex = s.pinIndex := rfl
@[simp] theorem swrdAccept_bus (s : State) : (swrdAccept s).bus = s.bus := rfl
@[simp] theorem swrdAccept_out (s : State) : (swrdAccept s).out = s.out := rfl

/-! `shiftBit` -/

@[simp] theorem shiftBit_b (s : State) : (shiftBit s).b = shiftIn s.b s.bitcnt.toNat (pulseBit s.lowdur s.cnt) := rfl
@[simp] theorem shiftBit_bitcnt (s : State) : (shiftBit s).bitcnt = s.bitcnt + 1 := rfl
@[simp] theorem shiftBit_resp (s : State) : (shiftBit s).resp = s.resp := rfl
@[simp] theorem shiftBit_rlen (s : State) : (shiftBit s).rlen = s.rlen := rfl
@[simp] theorem shiftBit_data (s : State) : (shiftBit s).data = s.data := rfl
@[simp] theorem shiftBit_conv (s : State) : (shiftBit s).conv = s.conv := rfl
@[simp] theorem shiftBit_ddiv (s : State) : (shiftBit s).ddiv = s.ddiv := rfl
@[simp] theorem shiftBit_dvalid (s : State) : (shiftBit s).dvalid = s.dvalid := rfl
@[simp] theorem shiftBit_phase (s : State) : (shiftBit s).phase = s.phase := rfl
@[simp] theorem shiftBit_done (s : State) : (shiftBit s).done = s.done := rfl
@[simp] theorem shiftBit_valid (s : State) : (shiftBit s).valid = s.valid := rfl
@[simp] theorem shiftBit_idok (s : State) : (shiftBit s).idok = s.idok := rfl
@[simp] theorem shiftBit_rej (s : State) : (shiftBit s).rej = s.rej := rfl
@[simp] theorem shiftBit_err (s : State) : (shiftBit s).err = s.err := rfl
@[simp] theorem shiftBit_cmd (s : State) : (shiftBit s).cmd = s.cmd := rfl
@[simp] theorem shiftBit_arg (s : State) : (shiftBit s).arg = s.arg := rfl
@[simp] theorem shiftBit_devAddr (s : State) : (shiftBit s).devAddr = s.devAddr := rfl
@[simp] theorem shiftBit_s1 (s : State) : (shiftBit s).s1 = s.s1 := rfl
@[simp] theorem shiftBit_s2 (s : State) : (shiftBit s).s2 = s.s2 := rfl
@[simp] theorem shiftBit_humT (s : State) : (shiftBit s).humT = s.humT := rfl
@[simp] theorem shiftBit_tempT (s : State) : (shiftBit s).tempT = s.tempT := rfl
@[simp] theorem shiftBit_neg (s : State) : (shiftBit s).neg = s.neg := rfl
@[simp] theorem shiftBit_cnt (s : State) : (shiftBit s).cnt = s.cnt := rfl
@[simp] theorem shiftBit_lowdur (s : State) : (shiftBit s).lowdur = s.lowdur := rfl
@[simp] theorem shiftBit_hold (s : State) : (shiftBit s).hold = s.hold := rfl
@[simp] theorem shiftBit_pinmode (s : State) : (shiftBit s).pinmode = s.pinmode := rfl
@[simp] theorem shiftBit_pinout (s : State) : (shiftBit s).pinout = s.pinout := rfl
@[simp] theorem shiftBit_newval (s : State) : (shiftBit s).newval = s.newval := rfl
@[simp] theorem shiftBit_params (s : State) : (shiftBit s).params = s.params := rfl
@[simp] theorem shiftBit_inputs (s : State) : (shiftBit s).inputs = s.inputs := rfl
@[simp] theorem shiftBit_pin (s : State) : (shiftBit s).pin = s.pin := rfl
@[simp] theorem shiftBit_pinIndex (s : State) : (shiftBit s).pinIndex = s.pinIndex := rfl
@[simp] theorem shiftBit_bus (s : State) : (shiftBit s).bus = s.bus := rfl
@[simp] theorem shiftBit_out (s : State) : (shiftBit s).out = s.out := rfl

/-! `publish` -/

@[simp] theorem publish_b (s : State) : (publish s).b = s.b := rfl
@[simp] theorem publish_bitcnt (s : State) : (publish s).bitcnt = s.bitcnt := rfl
@[simp] theorem publish_resp (s : State) : (publish s).resp = s.resp := rfl
@[simp] theorem publish_rlen (s : State) : (publish s).rlen = s.rlen := rfl
@[simp] theorem publish_data (s : State) : (publish s).data = s.data := rfl
@[simp] theorem publish_conv (s : State) : (publish s).conv = s.conv := rfl
@[simp] theorem publish_ddiv (s : State) : (publish s).ddiv = s.ddiv := rfl
@[simp] theorem publish_dvalid (s : State) : (publish s).dvalid = s.dvalid := rfl
@[simp] theorem publish_phase (s : State) : (publish s).phase = s.phase := rfl
@[simp] theorem publish_done (s : State) : (publish s).done = s.done := rfl
@[simp] theorem publish_valid (s : State) : (publish s).valid = true := rfl
@[simp] theorem publish_idok (s : State) : (publish s).idok = s.idok := rfl
@[simp] theorem publish_rej (s : State) : (publish s).rej = s.rej := rfl
@[simp] theorem publish_err (s : State) : (publish s).err = s.err := rfl
@[simp] theorem publish_cmd (s : State) : (publish s).cmd = s.cmd := rfl
@[simp] theorem publish_arg (s : State) : (publish s).arg = s.arg := rfl
@[simp] theorem publish_devAddr (s : State) : (publish s).devAddr = s.devAddr := rfl
@[simp] theorem publish_s1 (s : State) : (publish s).s1 = s.s1 := rfl
@[simp] theorem publish_s2 (s : State) : (publish s).s2 = s.s2 := rfl
@[simp] theorem publish_humT (s : State) : (publish s).humT = humidityOf s.b := rfl
@[simp] theorem publish_tempT (s : State) : (publish s).tempT = temperatureOf s.b := rfl
@[simp] theorem publish_neg (s : State) : (publish s).neg = negOf s.b := rfl
@[simp] theorem publish_cnt (s : State) : (publish s).cnt = s.cnt := rfl
@[simp] theorem publish_lowdur (s : State) : (publish s).lowdur = s.lowdur := rfl
@[simp] theorem publish_hold (s : State) : (publish s).hold = s.hold := rfl
@[simp] theorem publish_pinmode (s : State) : (publish s).pinmode = s.pinmode := rfl
@[simp] theorem publish_pinout (s : State) : (publish s).pinout = s.pinout := rfl
@[simp] theorem publish_newval (s : State) : (publish s).newval = s.newval := rfl
@[simp] theorem publish_params (s : State) : (publish s).params = s.params := rfl
@[simp] theorem publish_inputs (s : State) : (publish s).inputs = s.inputs := rfl
@[simp] theorem publish_pin (s : State) : (publish s).pin = s.pin := rfl
@[simp] theorem publish_pinIndex (s : State) : (publish s).pinIndex = s.pinIndex := rfl
@[simp] theorem publish_bus (s : State) : (publish s).bus = s.bus := rfl
@[simp] theorem publish_out (s : State) : (publish s).out = s.out := rfl

/-! `rmwMerge` -/

@[simp] theorem rmwMerge_b (mask bits : Byte) (d : BitVec 64) (s : State) : (rmwMerge mask bits d s).b = s.b := rfl
@[simp] theorem rmwMerge_bitcnt (mask bits : Byte) (d : BitVec 64) (s : State) :
    (rmwMerge mask bits d s).bitcnt = s.bitcnt := rfl
@[simp] theorem rmwMerge_resp (mask bits : Byte) (d : BitVec 64) (s : State) :
    (rmwMerge mask bits d s).resp = fillResp 1 d s.resp := rfl
@[simp] theorem rmwMerge_rlen (mask bits : Byte) (d : BitVec 64) (s : State) : (rmwMerge mask bits d s).rlen = 1 := rfl
@[simp] theorem rmwMerge_data (mask bits : Byte) (d : BitVec 64) (s : State) :
    (rmwMerge mask bits d s).data = s.data := rfl
@[simp] theorem rmwMerge_conv (mask bits : Byte) (d : BitVec 64) (s : State) :
    (rmwMerge mask bits d s).conv = s.conv := rfl
@[simp] theorem rmwMerge_ddiv (mask bits : Byte) (d : BitVec 64) (s : State) :
    (rmwMerge mask bits d s).ddiv = s.ddiv := rfl
@[simp] theorem rmwMerge_dvalid (mask bits : Byte) (d : BitVec 64) (s : State) :
    (rmwMerge mask bits d s).dvalid = s.dvalid := rfl
@[simp] theorem rmwMerge_phase (mask bits : Byte) (d : BitVec 64) (s : State) :
    (rmwMerge mask bits d s).phase = .rcWr := rfl
@[simp] theorem rmwMerge_done (mask bits : Byte) (d : BitVec 64) (s : State) :
    (rmwMerge mask bits d s).done = s.done := rfl
@[simp] theorem rmwMerge_valid (mask bits : Byte) (d : BitVec 64) (s : State) :
    (rmwMerge mask bits d s).valid = s.valid := rfl
@[simp] theorem rmwMerge_idok (mask bits : Byte) (d : BitVec 64) (s : State) :
    (rmwMerge mask bits d s).idok = s.idok := rfl
@[simp] theorem rmwMerge_rej (mask bits : Byte) (d : BitVec 64) (s : State) :
    (rmwMerge mask bits d s).rej = s.rej := rfl
@[simp] theorem rmwMerge_err (mask bits : Byte) (d : BitVec 64) (s : State) :
    (rmwMerge mask bits d s).err = s.err := rfl
@[simp] theorem rmwMerge_cmd (mask bits : Byte) (d : BitVec 64) (s : State) :
    (rmwMerge mask bits d s).cmd = s.cmd := rfl
@[simp] theorem rmwMerge_arg (mask bits : Byte) (d : BitVec 64) (s : State) :
    (rmwMerge mask bits d s).arg = s.arg := rfl
@[simp] theorem rmwMerge_devAddr (mask bits : Byte) (d : BitVec 64) (s : State) :
    (rmwMerge mask bits d s).devAddr = s.devAddr := rfl
@[simp] theorem rmwMerge_s1 (mask bits : Byte) (d : BitVec 64) (s : State) : (rmwMerge mask bits d s).s1 = s.s1 := rfl
@[simp] theorem rmwMerge_s2 (mask bits : Byte) (d : BitVec 64) (s : State) : (rmwMerge mask bits d s).s2 = s.s2 := rfl
@[simp] theorem rmwMerge_humT (mask bits : Byte) (d : BitVec 64) (s : State) :
    (rmwMerge mask bits d s).humT = s.humT := rfl
@[simp] theorem rmwMerge_tempT (mask bits : Byte) (d : BitVec 64) (s : State) :
    (rmwMerge mask bits d s).tempT = s.tempT := rfl
@[simp] theorem rmwMerge_neg (mask bits : Byte) (d : BitVec 64) (s : State) :
    (rmwMerge mask bits d s).neg = s.neg := rfl
@[simp] theorem rmwMerge_cnt (mask bits : Byte) (d : BitVec 64) (s : State) :
    (rmwMerge mask bits d s).cnt = s.cnt := rfl
@[simp] theorem rmwMerge_lowdur (mask bits : Byte) (d : BitVec 64) (s : State) :
    (rmwMerge mask bits d s).lowdur = s.lowdur := rfl
@[simp] theorem rmwMerge_hold (mask bits : Byte) (d : BitVec 64) (s : State) :
    (rmwMerge mask bits d s).hold = s.hold := rfl
@[simp] theorem rmwMerge_pinmode (mask bits : Byte) (d : BitVec 64) (s : State) :
    (rmwMerge mask bits d s).pinmode = s.pinmode := rfl
@[simp] theorem rmwMerge_pinout (mask bits : Byte) (d : BitVec 64) (s : State) :
    (rmwMerge mask bits d s).pinout = s.pinout := rfl
@[simp] theorem rmwMerge_newval (mask bits : Byte) (d : BitVec 64) (s : State) :
    (rmwMerge mask bits d s).newval = mergeBits (answerByte d 0) mask bits := rfl
@[simp] theorem rmwMerge_params (mask bits : Byte) (d : BitVec 64) (s : State) :
    (rmwMerge mask bits d s).params = s.params := rfl
@[simp] theorem rmwMerge_inputs (mask bits : Byte) (d : BitVec 64) (s : State) :
    (rmwMerge mask bits d s).inputs = s.inputs := rfl
@[simp] theorem rmwMerge_pin (mask bits : Byte) (d : BitVec 64) (s : State) :
    (rmwMerge mask bits d s).pin = s.pin := rfl
@[simp] theorem rmwMerge_pinIndex (mask bits : Byte) (d : BitVec 64) (s : State) :
    (rmwMerge mask bits d s).pinIndex = s.pinIndex := rfl
@[simp] theorem rmwMerge_bus (mask bits : Byte) (d : BitVec 64) (s : State) :
    (rmwMerge mask bits d s).bus = s.bus := rfl
@[simp] theorem rmwMerge_out (mask bits : Byte) (d : BitVec 64) (s : State) :
    (rmwMerge mask bits d s).out = s.out := rfl

/-! `recordDivisor` -/

@[simp] theorem recordDivisor_b (slot : Slot) (s : State) : (recordDivisor slot s).b = s.b := by cases slot <;> rfl
@[simp] theorem recordDivisor_bitcnt (slot : Slot) (s : State) :
    (recordDivisor slot s).bitcnt = s.bitcnt := by cases slot <;> rfl
@[simp] theorem recordDivisor_resp (slot : Slot) (s : State) :
    (recordDivisor slot s).resp = s.resp := by cases slot <;> rfl
@[simp] theorem recordDivisor_rlen (slot : Slot) (s : State) :
    (recordDivisor slot s).rlen = s.rlen := by cases slot <;> rfl
@[simp] theorem recordDivisor_data (slot : Slot) (s : State) :
    (recordDivisor slot s).data = s.data := by cases slot <;> rfl
@[simp] theorem recordDivisor_conv (slot : Slot) (s : State) :
    (recordDivisor slot s).conv = s.conv := by cases slot <;> rfl
@[simp] theorem recordDivisor_ddiv (slot : Slot) (s : State) :
    (recordDivisor slot s).ddiv = s.ddiv := by cases slot <;> rfl
@[simp] theorem recordDivisor_dvalid (slot : Slot) (s : State) :
    (recordDivisor slot s).dvalid = s.dvalid := by cases slot <;> rfl
@[simp] theorem recordDivisor_phase (slot : Slot) (s : State) :
    (recordDivisor slot s).phase = s.phase := by cases slot <;> rfl
@[simp] theorem recordDivisor_done (slot : Slot) (s : State) :
    (recordDivisor slot s).done = s.done := by cases slot <;> rfl
@[simp] theorem recordDivisor_valid (slot : Slot) (s : State) :
    (recordDivisor slot s).valid = s.valid := by cases slot <;> rfl
@[simp] theorem recordDivisor_idok (slot : Slot) (s : State) :
    (recordDivisor slot s).idok = s.idok := by cases slot <;> rfl
@[simp] theorem recordDivisor_rej (slot : Slot) (s : State) :
    (recordDivisor slot s).rej = s.rej := by cases slot <;> rfl
@[simp] theorem recordDivisor_err (slot : Slot) (s : State) :
    (recordDivisor slot s).err = s.err := by cases slot <;> rfl
@[simp] theorem recordDivisor_cmd (slot : Slot) (s : State) :
    (recordDivisor slot s).cmd = s.cmd := by cases slot <;> rfl
@[simp] theorem recordDivisor_arg (slot : Slot) (s : State) :
    (recordDivisor slot s).arg = s.arg := by cases slot <;> rfl
@[simp] theorem recordDivisor_devAddr (slot : Slot) (s : State) :
    (recordDivisor slot s).devAddr = s.devAddr := by cases slot <;> rfl
@[simp] theorem recordDivisor_s1 (slot : Slot) (s : State) :
    (recordDivisor slot s).s1 = if slot = .s1 then argDivisor s.arg else s.s1 := by cases slot <;> rfl
@[simp] theorem recordDivisor_s2 (slot : Slot) (s : State) :
    (recordDivisor slot s).s2 = if slot = .s2 then argDivisor s.arg else s.s2 := by cases slot <;> rfl
@[simp] theorem recordDivisor_humT (slot : Slot) (s : State) :
    (recordDivisor slot s).humT = s.humT := by cases slot <;> rfl
@[simp] theorem recordDivisor_tempT (slot : Slot) (s : State) :
    (recordDivisor slot s).tempT = s.tempT := by cases slot <;> rfl
@[simp] theorem recordDivisor_neg (slot : Slot) (s : State) :
    (recordDivisor slot s).neg = s.neg := by cases slot <;> rfl
@[simp] theorem recordDivisor_cnt (slot : Slot) (s : State) :
    (recordDivisor slot s).cnt = s.cnt := by cases slot <;> rfl
@[simp] theorem recordDivisor_lowdur (slot : Slot) (s : State) :
    (recordDivisor slot s).lowdur = s.lowdur := by cases slot <;> rfl
@[simp] theorem recordDivisor_hold (slot : Slot) (s : State) :
    (recordDivisor slot s).hold = s.hold := by cases slot <;> rfl
@[simp] theorem recordDivisor_pinmode (slot : Slot) (s : State) :
    (recordDivisor slot s).pinmode = s.pinmode := by cases slot <;> rfl
@[simp] theorem recordDivisor_pinout (slot : Slot) (s : State) :
    (recordDivisor slot s).pinout = s.pinout := by cases slot <;> rfl
@[simp] theorem recordDivisor_newval (slot : Slot) (s : State) :
    (recordDivisor slot s).newval = s.newval := by cases slot <;> rfl
@[simp] theorem recordDivisor_params (slot : Slot) (s : State) :
    (recordDivisor slot s).params = s.params := by cases slot <;> rfl
@[simp] theorem recordDivisor_inputs (slot : Slot) (s : State) :
    (recordDivisor slot s).inputs = s.inputs := by cases slot <;> rfl
@[simp] theorem recordDivisor_pin (slot : Slot) (s : State) :
    (recordDivisor slot s).pin = s.pin := by cases slot <;> rfl
@[simp] theorem recordDivisor_pinIndex (slot : Slot) (s : State) :
    (recordDivisor slot s).pinIndex = s.pinIndex := by cases slot <;> rfl
@[simp] theorem recordDivisor_bus (slot : Slot) (s : State) :
    (recordDivisor slot s).bus = s.bus := by cases slot <;> rfl
@[simp] theorem recordDivisor_out (slot : Slot) (s : State) :
    (recordDivisor slot s).out = s.out := by cases slot <;> rfl

/-! `idchkJudge` -/

@[simp] theorem idchkJudge_b (x : Byte) (d : BitVec 64) (s : State) : (idchkJudge x d s).b = s.b := rfl
@[simp] theorem idchkJudge_bitcnt (x : Byte) (d : BitVec 64) (s : State) : (idchkJudge x d s).bitcnt = s.bitcnt := rfl
@[simp] theorem idchkJudge_resp (x : Byte) (d : BitVec 64) (s : State) :
    (idchkJudge x d s).resp = fillResp 1 d s.resp := rfl
@[simp] theorem idchkJudge_rlen (x : Byte) (d : BitVec 64) (s : State) : (idchkJudge x d s).rlen = 1 := rfl
@[simp] theorem idchkJudge_data (x : Byte) (d : BitVec 64) (s : State) : (idchkJudge x d s).data = s.data := rfl
@[simp] theorem idchkJudge_conv (x : Byte) (d : BitVec 64) (s : State) : (idchkJudge x d s).conv = s.conv := rfl
@[simp] theorem idchkJudge_ddiv (x : Byte) (d : BitVec 64) (s : State) : (idchkJudge x d s).ddiv = s.ddiv := rfl
@[simp] theorem idchkJudge_dvalid (x : Byte) (d : BitVec 64) (s : State) : (idchkJudge x d s).dvalid = s.dvalid := rfl
@[simp] theorem idchkJudge_phase (x : Byte) (d : BitVec 64) (s : State) : (idchkJudge x d s).phase = s.phase := rfl
@[simp] theorem idchkJudge_done (x : Byte) (d : BitVec 64) (s : State) : (idchkJudge x d s).done = s.done := rfl
@[simp] theorem idchkJudge_valid (x : Byte) (d : BitVec 64) (s : State) : (idchkJudge x d s).valid = s.valid := rfl
@[simp] theorem idchkJudge_idok (x : Byte) (d : BitVec 64) (s : State) :
    (idchkJudge x d s).idok = identityOk (answerByte d 0) x := rfl
@[simp] theorem idchkJudge_rej (x : Byte) (d : BitVec 64) (s : State) : (idchkJudge x d s).rej = s.rej := rfl
@[simp] theorem idchkJudge_err (x : Byte) (d : BitVec 64) (s : State) : (idchkJudge x d s).err = s.err := rfl
@[simp] theorem idchkJudge_cmd (x : Byte) (d : BitVec 64) (s : State) : (idchkJudge x d s).cmd = s.cmd := rfl
@[simp] theorem idchkJudge_arg (x : Byte) (d : BitVec 64) (s : State) : (idchkJudge x d s).arg = s.arg := rfl
@[simp] theorem idchkJudge_devAddr (x : Byte) (d : BitVec 64) (s : State) :
    (idchkJudge x d s).devAddr = s.devAddr := rfl
@[simp] theorem idchkJudge_s1 (x : Byte) (d : BitVec 64) (s : State) : (idchkJudge x d s).s1 = s.s1 := rfl
@[simp] theorem idchkJudge_s2 (x : Byte) (d : BitVec 64) (s : State) : (idchkJudge x d s).s2 = s.s2 := rfl
@[simp] theorem idchkJudge_humT (x : Byte) (d : BitVec 64) (s : State) : (idchkJudge x d s).humT = s.humT := rfl
@[simp] theorem idchkJudge_tempT (x : Byte) (d : BitVec 64) (s : State) : (idchkJudge x d s).tempT = s.tempT := rfl
@[simp] theorem idchkJudge_neg (x : Byte) (d : BitVec 64) (s : State) : (idchkJudge x d s).neg = s.neg := rfl
@[simp] theorem idchkJudge_cnt (x : Byte) (d : BitVec 64) (s : State) : (idchkJudge x d s).cnt = s.cnt := rfl
@[simp] theorem idchkJudge_lowdur (x : Byte) (d : BitVec 64) (s : State) : (idchkJudge x d s).lowdur = s.lowdur := rfl
@[simp] theorem idchkJudge_hold (x : Byte) (d : BitVec 64) (s : State) : (idchkJudge x d s).hold = s.hold := rfl
@[simp] theorem idchkJudge_pinmode (x : Byte) (d : BitVec 64) (s : State) :
    (idchkJudge x d s).pinmode = s.pinmode := rfl
@[simp] theorem idchkJudge_pinout (x : Byte) (d : BitVec 64) (s : State) : (idchkJudge x d s).pinout = s.pinout := rfl
@[simp] theorem idchkJudge_newval (x : Byte) (d : BitVec 64) (s : State) : (idchkJudge x d s).newval = s.newval := rfl
@[simp] theorem idchkJudge_params (x : Byte) (d : BitVec 64) (s : State) : (idchkJudge x d s).params = s.params := rfl
@[simp] theorem idchkJudge_inputs (x : Byte) (d : BitVec 64) (s : State) : (idchkJudge x d s).inputs = s.inputs := rfl
@[simp] theorem idchkJudge_pin (x : Byte) (d : BitVec 64) (s : State) : (idchkJudge x d s).pin = s.pin := rfl
@[simp] theorem idchkJudge_pinIndex (x : Byte) (d : BitVec 64) (s : State) :
    (idchkJudge x d s).pinIndex = s.pinIndex := rfl
@[simp] theorem idchkJudge_bus (x : Byte) (d : BitVec 64) (s : State) : (idchkJudge x d s).bus = s.bus := rfl
@[simp] theorem idchkJudge_out (x : Byte) (d : BitVec 64) (s : State) : (idchkJudge x d s).out = s.out := rfl

/-! `unpack` -/

@[simp] theorem unpack_b (off : BitVec 3) (w : Width) (o : ByteOrder) (g : Signedness) (c : Conv) (s : State) :
    (unpack off w o g c s).b = s.b := rfl
@[simp] theorem unpack_bitcnt (off : BitVec 3) (w : Width) (o : ByteOrder) (g : Signedness) (c : Conv) (s : State) :
    (unpack off w o g c s).bitcnt = s.bitcnt := rfl
@[simp] theorem unpack_resp (off : BitVec 3) (w : Width) (o : ByteOrder) (g : Signedness) (c : Conv) (s : State) :
    (unpack off w o g c s).resp = s.resp := rfl
@[simp] theorem unpack_rlen (off : BitVec 3) (w : Width) (o : ByteOrder) (g : Signedness) (c : Conv) (s : State) :
    (unpack off w o g c s).rlen = s.rlen := rfl
@[simp] theorem unpack_data (off : BitVec 3) (w : Width) (o : ByteOrder) (g : Signedness) (c : Conv) (s : State) :
    (unpack off w o g c s).data = assemble w (respByte s.resp off.toNat) (respByte s.resp (off.toNat + 1)) o g := rfl
@[simp] theorem unpack_conv (off : BitVec 3) (w : Width) (o : ByteOrder) (g : Signedness) (c : Conv) (s : State) :
    (unpack off w o g c s).conv = c := rfl
@[simp] theorem unpack_ddiv (off : BitVec 3) (w : Width) (o : ByteOrder) (g : Signedness) (c : Conv) (s : State) :
    (unpack off w o g c s).ddiv = divisorOf c s.s1 s.s2 := rfl
@[simp] theorem unpack_dvalid (off : BitVec 3) (w : Width) (o : ByteOrder) (g : Signedness) (c : Conv) (s : State) :
    (unpack off w o g c s).dvalid = true := rfl
@[simp] theorem unpack_phase (off : BitVec 3) (w : Width) (o : ByteOrder) (g : Signedness) (c : Conv) (s : State) :
    (unpack off w o g c s).phase = s.phase := rfl
@[simp] theorem unpack_done (off : BitVec 3) (w : Width) (o : ByteOrder) (g : Signedness) (c : Conv) (s : State) :
    (unpack off w o g c s).done = true := rfl
@[simp] theorem unpack_valid (off : BitVec 3) (w : Width) (o : ByteOrder) (g : Signedness) (c : Conv) (s : State) :
    (unpack off w o g c s).valid = s.valid := rfl
@[simp] theorem unpack_idok (off : BitVec 3) (w : Width) (o : ByteOrder) (g : Signedness) (c : Conv) (s : State) :
    (unpack off w o g c s).idok = s.idok := rfl
@[simp] theorem unpack_rej (off : BitVec 3) (w : Width) (o : ByteOrder) (g : Signedness) (c : Conv) (s : State) :
    (unpack off w o g c s).rej = s.rej := rfl
@[simp] theorem unpack_err (off : BitVec 3) (w : Width) (o : ByteOrder) (g : Signedness) (c : Conv) (s : State) :
    (unpack off w o g c s).err = .none := rfl
@[simp] theorem unpack_cmd (off : BitVec 3) (w : Width) (o : ByteOrder) (g : Signedness) (c : Conv) (s : State) :
    (unpack off w o g c s).cmd = s.cmd := rfl
@[simp] theorem unpack_arg (off : BitVec 3) (w : Width) (o : ByteOrder) (g : Signedness) (c : Conv) (s : State) :
    (unpack off w o g c s).arg = s.arg := rfl
@[simp] theorem unpack_devAddr (off : BitVec 3) (w : Width) (o : ByteOrder) (g : Signedness) (c : Conv) (s : State) :
    (unpack off w o g c s).devAddr = s.devAddr := rfl
@[simp] theorem unpack_s1 (off : BitVec 3) (w : Width) (o : ByteOrder) (g : Signedness) (c : Conv) (s : State) :
    (unpack off w o g c s).s1 = s.s1 := rfl
@[simp] theorem unpack_s2 (off : BitVec 3) (w : Width) (o : ByteOrder) (g : Signedness) (c : Conv) (s : State) :
    (unpack off w o g c s).s2 = s.s2 := rfl
@[simp] theorem unpack_humT (off : BitVec 3) (w : Width) (o : ByteOrder) (g : Signedness) (c : Conv) (s : State) :
    (unpack off w o g c s).humT = s.humT := rfl
@[simp] theorem unpack_tempT (off : BitVec 3) (w : Width) (o : ByteOrder) (g : Signedness) (c : Conv) (s : State) :
    (unpack off w o g c s).tempT = s.tempT := rfl
@[simp] theorem unpack_neg (off : BitVec 3) (w : Width) (o : ByteOrder) (g : Signedness) (c : Conv) (s : State) :
    (unpack off w o g c s).neg = s.neg := rfl
@[simp] theorem unpack_cnt (off : BitVec 3) (w : Width) (o : ByteOrder) (g : Signedness) (c : Conv) (s : State) :
    (unpack off w o g c s).cnt = s.cnt := rfl
@[simp] theorem unpack_lowdur (off : BitVec 3) (w : Width) (o : ByteOrder) (g : Signedness) (c : Conv) (s : State) :
    (unpack off w o g c s).lowdur = s.lowdur := rfl
@[simp] theorem unpack_hold (off : BitVec 3) (w : Width) (o : ByteOrder) (g : Signedness) (c : Conv) (s : State) :
    (unpack off w o g c s).hold = s.hold := rfl
@[simp] theorem unpack_pinmode (off : BitVec 3) (w : Width) (o : ByteOrder) (g : Signedness) (c : Conv) (s : State) :
    (unpack off w o g c s).pinmode = s.pinmode := rfl
@[simp] theorem unpack_pinout (off : BitVec 3) (w : Width) (o : ByteOrder) (g : Signedness) (c : Conv) (s : State) :
    (unpack off w o g c s).pinout = s.pinout := rfl
@[simp] theorem unpack_newval (off : BitVec 3) (w : Width) (o : ByteOrder) (g : Signedness) (c : Conv) (s : State) :
    (unpack off w o g c s).newval = s.newval := rfl
@[simp] theorem unpack_params (off : BitVec 3) (w : Width) (o : ByteOrder) (g : Signedness) (c : Conv) (s : State) :
    (unpack off w o g c s).params = s.params := rfl
@[simp] theorem unpack_inputs (off : BitVec 3) (w : Width) (o : ByteOrder) (g : Signedness) (c : Conv) (s : State) :
    (unpack off w o g c s).inputs = s.inputs := rfl
@[simp] theorem unpack_pin (off : BitVec 3) (w : Width) (o : ByteOrder) (g : Signedness) (c : Conv) (s : State) :
    (unpack off w o g c s).pin = s.pin := rfl
@[simp] theorem unpack_pinIndex (off : BitVec 3) (w : Width) (o : ByteOrder) (g : Signedness) (c : Conv) (s : State) :
    (unpack off w o g c s).pinIndex = s.pinIndex := rfl
@[simp] theorem unpack_bus (off : BitVec 3) (w : Width) (o : ByteOrder) (g : Signedness) (c : Conv) (s : State) :
    (unpack off w o g c s).bus = s.bus := rfl
@[simp] theorem unpack_out (off : BitVec 3) (w : Width) (o : ByteOrder) (g : Signedness) (c : Conv) (s : State) :
    (unpack off w o g c s).out = s.out := rfl

/-! `reject` -/

@[simp] theorem reject_b (s : State) : (reject s).b = s.b := rfl
@[simp] theorem reject_bitcnt (s : State) : (reject s).bitcnt = s.bitcnt := rfl
@[simp] theorem reject_resp (s : State) : (reject s).resp = s.resp := rfl
@[simp] theorem reject_rlen (s : State) : (reject s).rlen = s.rlen := rfl
@[simp] theorem reject_data (s : State) : (reject s).data = s.data := rfl
@[simp] theorem reject_conv (s : State) : (reject s).conv = s.conv := rfl
@[simp] theorem reject_ddiv (s : State) : (reject s).ddiv = s.ddiv := rfl
@[simp] theorem reject_dvalid (s : State) : (reject s).dvalid = s.dvalid := rfl
@[simp] theorem reject_phase (s : State) : (reject s).phase = s.phase := rfl
@[simp] theorem reject_done (s : State) : (reject s).done = s.done := rfl
@[simp] theorem reject_valid (s : State) : (reject s).valid = s.valid := rfl
@[simp] theorem reject_idok (s : State) : (reject s).idok = s.idok := rfl
@[simp] theorem reject_rej (s : State) : (reject s).rej = true := rfl
@[simp] theorem reject_err (s : State) : (reject s).err = s.err := rfl
@[simp] theorem reject_cmd (s : State) : (reject s).cmd = s.cmd := rfl
@[simp] theorem reject_arg (s : State) : (reject s).arg = s.arg := rfl
@[simp] theorem reject_devAddr (s : State) : (reject s).devAddr = s.devAddr := rfl
@[simp] theorem reject_s1 (s : State) : (reject s).s1 = s.s1 := rfl
@[simp] theorem reject_s2 (s : State) : (reject s).s2 = s.s2 := rfl
@[simp] theorem reject_humT (s : State) : (reject s).humT = s.humT := rfl
@[simp] theorem reject_tempT (s : State) : (reject s).tempT = s.tempT := rfl
@[simp] theorem reject_neg (s : State) : (reject s).neg = s.neg := rfl
@[simp] theorem reject_cnt (s : State) : (reject s).cnt = s.cnt := rfl
@[simp] theorem reject_lowdur (s : State) : (reject s).lowdur = s.lowdur := rfl
@[simp] theorem reject_hold (s : State) : (reject s).hold = s.hold := rfl
@[simp] theorem reject_pinmode (s : State) : (reject s).pinmode = s.pinmode := rfl
@[simp] theorem reject_pinout (s : State) : (reject s).pinout = s.pinout := rfl
@[simp] theorem reject_newval (s : State) : (reject s).newval = s.newval := rfl
@[simp] theorem reject_params (s : State) : (reject s).params = s.params := rfl
@[simp] theorem reject_inputs (s : State) : (reject s).inputs = s.inputs := rfl
@[simp] theorem reject_pin (s : State) : (reject s).pin = s.pin := rfl
@[simp] theorem reject_pinIndex (s : State) : (reject s).pinIndex = s.pinIndex := rfl
@[simp] theorem reject_bus (s : State) : (reject s).bus = s.bus := rfl
@[simp] theorem reject_out (s : State) : (reject s).out = s.out := rfl

end Sys2Proof.Machine
end

