-- ==== Sys2Proof/Laws/Ops.lean ====
section
/-! SUPPORT. For each shared operation one lemma that says everything it can do, to be cited instead of unfolding it. -/

namespace Sys2Proof.Machine

/-- A transport primitive either waits, fails, or goes on with the answer. -/
theorem transact_cases {r : Request} {k : BitVec 64 → State → State} {s : State} {o : Result} (h : transact r k s = o) :
    (s.bus = [] ∧ o = .next s) ∨
    (∃ a rest, s.bus = a :: rest ∧ a.fail = true ∧
      o = .next (abort .bus { s with bus := rest, out := .transport r :: s.out })) ∨
    (∃ a rest, s.bus = a :: rest ∧ a.fail = false ∧
      o = .next (k a.rdata { s with bus := rest, out := .transport r :: s.out })) := by
  unfold transact at h
  split at h
  · exact .inl ⟨‹_›, h.symm⟩
  · rename_i a rest hb
    split at h
    · exact .inr (.inl ⟨a, rest, hb, ‹_›, h.symm⟩)
    · exact .inr (.inr ⟨a, rest, hb, Bool.eq_false_iff.mpr ‹_ ≠ _›, h.symm⟩)

theorem transact_waits {r : Request} {k : BitVec 64 → State → State} {s : State} (h : s.bus = []) :
    transact r k s = .next s := by
  simp [transact, h]

theorem transact_fails {r : Request} {k : BitVec 64 → State → State} {s : State} {a : Config.BusAnswer}
    {rest : List Config.BusAnswer} (h : s.bus = a :: rest) (hf : a.fail = true) :
    transact r k s = .next (abort .bus { s with bus := rest, out := .transport r :: s.out }) := by
  simp [transact, h, hf]

theorem transact_answers {r : Request} {k : BitVec 64 → State → State} {s : State} {a : Config.BusAnswer}
    {rest : List Config.BusAnswer} (h : s.bus = a :: rest) (hf : a.fail = false) :
    transact r k s = .next (k a.rdata { s with bus := rest, out := .transport r :: s.out }) := by
  simp [transact, h, hf]

/-- A command starts or is refused. -/
theorem startIf_cases {legal : Bool} {k : State → State} {s : State} {o : Result} (h : startIf legal k s = o) :
    (legal = true ∧ o = .next (k s)) ∨ (legal = false ∧ o = .next (refuse s)) := by
  cases legal <;> simp_all [startIf]

/-- A row of the request phase aborts with PinError or goes on. -/
theorem requestStep_cases {l : Bool} {k : State → State} {s : State} {o : Result} (h : requestStep l k s = o) :
    ((pinAnswer s).fault = true ∧ o = .next (abort .pin (pinDrive l s))) ∨
    ((pinAnswer s).fault = false ∧ o = .next (k (pinDrive l s))) := by
  unfold requestStep at h
  split at h
  · exact .inl ⟨‹_›, h.symm⟩
  · exact .inr ⟨Bool.eq_false_iff.mpr ‹_ ≠ _›, h.symm⟩

/-- A row of a measurement: fault, edge, one more sample, timeout, or a count no measurement reaches. -/
theorem measureStep_cases {l : Bool} {k : State → Result} {s : State} {o : Result} (h : measureStep l k s = o) :
    ((pinAnswer s).fault = true ∧ o = .next (abort .pin (pinSample s))) ∨
    ((pinAnswer s).fault = false ∧ (pinAnswer s).level ≠ l ∧ o = k (pinSample s)) ∨
    ((pinAnswer s).fault = false ∧ (pinAnswer s).level = l ∧ s.cnt + 1 < s.params.budget ∧
      o = .next { wait 1 (pinSample s) with cnt := s.cnt + 1 }) ∨
    ((pinAnswer s).fault = false ∧ (pinAnswer s).level = l ∧ s.cnt + 1 = s.params.budget ∧
      o = .next (abort .timeout (wait 1 (pinSample s)))) ∨
    ((pinAnswer s).fault = false ∧ (pinAnswer s).level = l ∧ s.params.budget < s.cnt + 1 ∧ o = .fault .noRow) := by
  unfold measureStep at h
  by_cases hf : (pinAnswer s).fault = true
  · exact .inl ⟨hf, by simpa [hf] using h.symm⟩
  · have hf' : (pinAnswer s).fault = false := by simpa using hf
    rw [if_neg hf] at h
    by_cases hl : (pinAnswer s).level = l
    · rw [if_neg (not_not.mpr hl)] at h
      rcases Nat.lt_trichotomy (s.cnt + 1) s.params.budget with hc | hc | hc
      · rw [if_pos hc] at h
        exact .inr (.inr (.inl ⟨hf', hl, hc, h.symm⟩))
      · rw [if_neg (by omega), if_pos hc] at h
        exact .inr (.inr (.inr (.inl ⟨hf', hl, hc, h.symm⟩)))
      · rw [if_neg (by omega), if_neg (by omega)] at h
        exact .inr (.inr (.inr (.inr ⟨hf', hl, hc, h.symm⟩)))
    · rw [if_pos hl] at h
      exact .inr (.inl ⟨hf', hl, h.symm⟩)

/-- Step 7 of SWRD publishes and completes, or aborts with CrcError. -/
theorem finish_cases (s : State) :
    (checksumOk s.b = true ∧ finish s = complete (publish s)) ∨ (checksumOk s.b = false ∧ finish s = abort .crc s) := by
  unfold finish
  split
  · exact .inl ⟨‹_›, rfl⟩
  · exact .inr ⟨Bool.eq_false_iff.mpr ‹_ ≠ _›, rfl⟩

/-- The end of a data bit: the next bit follows, the frame is judged, or no row applies. -/
theorem dataEnds_cases {s : State} {o : Result} (h : dataEnds s = o) :
    (s.bitcnt.toNat < 39 ∧ o = .next { shiftBit s with cnt := 0, phase := .datL }) ∨
    (s.bitcnt.toNat = 39 ∧ o = .next (finish (shiftBit s))) ∨ (39 < s.bitcnt.toNat ∧ o = .fault .noRow) := by
  unfold dataEnds at h
  split at h
  · exact .inl ⟨‹_›, h.symm⟩
  · split at h
    · exact .inr (.inl ⟨‹_›, h.symm⟩)
    · exact .inr (.inr ⟨by omega, h.symm⟩)

/-- The accept of a word: a legal one starts, an illegal one is refused. -/
theorem accept_cases (w : Word) (s : State) :
    (∃ i, decode w = .ok i ∧ accept w s = exec i (acceptWord w s)) ∨
    (∃ e, decode w = .error e ∧ accept w s = .next (refuse (acceptWord w s))) := by
  unfold accept
  split
  · exact .inl ⟨_, ‹_›, rfl⟩
  · exact .inr ⟨_, ‹_›, rfl⟩

/-- What a host write does, address by address. -/
theorem hostWrite_cases (addr : HostAddr) (w : Word) (s : State) :
    (addr = 0 ∧ s.busy = true ∧ hostWrite addr w s = .next (reject s)) ∨
    (addr = 0 ∧ s.busy = false ∧ hostWrite addr w s = accept w s) ∨
    (addr = 1 ∧ s.busy = true ∧ hostWrite addr w s = .next (reject s)) ∨
    (addr = 1 ∧ s.busy = false ∧ hostWrite addr w s = .next { s with arg := w }) ∨
    (addr = 2 ∧ hostWrite addr w s = .next (writeStatus w s)) ∨
    (addr = 3 ∧ s.busy = true ∧ hostWrite addr w s = .next (reject s)) ∨
    (addr = 3 ∧ s.busy = false ∧ hostWrite addr w s = .next { s with devAddr := w.extractLsb' 0 7 }) ∨
    (3 < addr.toNat ∧ hostWrite addr w s = .next s) := by
  unfold hostWrite
  by_cases h0 : addr = 0
  · cases hb : s.busy <;> simp [h0, hb, writeCmd]
  by_cases h1 : addr = 1
  · cases hb : s.busy <;> simp [h1, hb, writeArg]
  by_cases h2 : addr = 2
  · simp [h2]
  by_cases h3 : addr = 3
  · cases hb : s.busy <;> simp [h3, hb, writeDevAddr]
  have : 3 < addr.toNat := by
    revert h0 h1 h2 h3
    revert addr
    decide
  exact .inr (.inr (.inr (.inr (.inr (.inr (.inr ⟨this, by simp only [h0, h1, h2, h3, if_false]⟩))))))

/-- One move of the sequencer: idle, a step of the command in CMD, or a word that is none. -/
theorem sequencerStep_cases (s : State) :
    (s.phase = .idle ∧ sequencerStep s = .next s) ∨
    (s.phase ≠ .idle ∧ ∃ i, decode s.cmd = .ok i ∧ sequencerStep s = exec i s) ∨
    (s.phase ≠ .idle ∧ ∃ e, decode s.cmd = .error e ∧ sequencerStep s = .fault .runningWordIllegal) := by
  unfold sequencerStep
  by_cases hp : s.phase = .idle
  · exact .inl ⟨hp, by simp [hp]⟩
  · rw [if_neg hp]
    split
    · exact .inr (.inl ⟨hp, _, ‹_›, rfl⟩)
    · exact .inr (.inr ⟨hp, _, ‹_›, rfl⟩)

theorem step_noInput {s : State} (h : s.inputs = []) : step s = sequencerStep s := by
  simp [step, h]

theorem step_input {s : State} {i : Input} {rest : List Input} (h : s.inputs = i :: rest) :
    step s = takeInput i { s with inputs := rest } := by
  simp [step, h]

@[simp] theorem busy_eq_false (s : State) : s.busy = false ↔ s.phase = .idle := by
  simp [State.busy]

@[simp] theorem busy_eq_true (s : State) : s.busy = true ↔ s.phase ≠ .idle := by
  simp [State.busy]

@[simp] theorem run_zero (s : State) : run 0 s = .next s := rfl

theorem run_succ_of_next {n : Nat} {s t : State} (h : step s = .next t) : run (n + 1) s = run n t := by
  simp [run, h]

/-- Running `m + n` steps is running `m` and then `n`. -/
theorem run_add {m n : Nat} {s t : State} (h : run m s = .next t) : run (m + n) s = run n t := by
  induction m generalizing s with
  | zero =>
    cases h
    simp
  | succ m ih =>
    rw [Nat.add_right_comm]
    simp only [run] at h ⊢
    split at h
    · exact ih h
    · cases h
    · cases h

/-- The model's own run is the host's run of `core`. -/
theorem run_eq_core_run (n : Nat) (s : State) : run n s = Host.Core.run Sys2Proof.core n s := by
  induction n generalizing s with
  | zero => rfl
  | succ n ih =>
    refine Eq.trans ?_ (Host.Core.run.eq_2 core s n).symm
    have hs : core.step s = step s := rfl
    rw [run, hs]
    cases step s with
    | next t => exact ih t
    | fault r => rfl
    | refused r => rfl

end Sys2Proof.Machine
end

