-- ==== Sys2Proof/Laws/PerInstr.lean ====
section
/-! SUPPORT. Per-instruction family `TableRow`: the word of a command lies in its row of spec/opcode_table.json, that is, its
bits under the row's mask are the row's match. -/

namespace Sys2Proof.Laws.TableRow

/-- "mask" of the command's row in spec/opcode_table.json. -/
def mask : Instr → Word
  | .swrd => 0xFFFFFFFF
  | .rdreg _ _ _ => 0xFC80FFFF
  | .xfer _ _ => 0xFCF0FFFF
  | .wrreg _ _ => 0xFF8000FF
  | .rmw _ _ _ _ => 0xFC800000
  | .unpk _ _ _ _ _ => 0xF8F8FCFF
  | .idchk _ _ => 0xFF8000FF

/-- "match" of the command's row in spec/opcode_table.json. -/
def matchWord : Instr → Word
  | .swrd => 0x10000000
  | .rdreg _ _ _ => 0x20000000
  | .xfer _ _ => 0x30000000
  | .wrreg _ _ => 0x40000000
  | .rmw _ _ _ _ => 0x50000000
  | .unpk _ _ _ _ _ => 0x60000000
  | .idchk _ _ => 0x70000000

/-- The word lies in its row. -/
def Statement (i : Instr) : Prop := encode i &&& mask i = matchWord i

/-- Masking a word made of fields masks each field. -/
theorem mkWord_and (o x : BitVec 4) (a b c : Byte) (o' x' : BitVec 4) (a' b' c' : Byte) :
    mkWord o x a b c &&& mkWord o' x' a' b' c' = mkWord (o &&& o') (x &&& x') (a &&& a') (b &&& b') (c &&& c') := by
  ext i hi
  simp only [← BitVec.getLsbD_eq_getElem, BitVec.getLsbD_and, getLsbD_mkWord]
  split_ifs <;> rfl

theorem swrd : Statement .swrd := by
  unfold Statement
  decide

theorem rdreg (reg : RegAddr) (w : Width) (inc : Bool) : Statement (.rdreg reg w inc) := by
  have h : ∀ r : RegAddr, regField r &&& 0x80 = 0 := by decide
  have hx : ∀ (w : Width) (x : Bool), (0#2 ++ BitVec.ofBool w.bit ++ BitVec.ofBool x : BitVec 4) &&& 0xC = 0 := by
    intro w x
    cases w <;> cases x <;> decide
  show mkWord _ _ _ _ _ &&& mkWord 0xF 0xC 0x80 0xFF 0xFF = 0x20000000
  rw [mkWord_and, h, hx]
  decide

theorem xfer (nreq : BitVec 2) (nresp : BitVec 4) : Statement (.xfer nreq nresp) := by
  have h : ∀ r : BitVec 4, (0#4 ++ r : Byte) &&& 0xF0 = 0 := by decide
  have hx : ∀ x : BitVec 2, (0#2 ++ x : BitVec 4) &&& 0xC = 0 := by decide
  show mkWord _ _ _ _ _ &&& mkWord 0xF 0xC 0xF0 0xFF 0xFF = 0x30000000
  rw [mkWord_and, h, hx]
  decide

theorem wrreg (reg : RegAddr) (value : Byte) : Statement (.wrreg reg value) := by
  have h : ∀ r : RegAddr, regField r &&& 0x80 = 0 := by decide
  have hz : ∀ x : Byte, x &&& 0x00 = 0 := by decide
  show mkWord _ _ _ _ _ &&& mkWord 0xF 0xF 0x80 0x00 0xFF = 0x40000000
  rw [mkWord_and, h, hz]
  decide

theorem rmw (reg : RegAddr) (mask bits : Byte) (slot : Slot) : Statement (.rmw reg mask bits slot) := by
  have h : ∀ r : RegAddr, regField r &&& 0x80 = 0 := by decide
  have hx : ∀ x : Slot, (0#2 ++ x.code : BitVec 4) &&& 0xC = 0 := by
    intro x
    cases x <;> decide
  have hz : ∀ x : Byte, x &&& 0x00 = 0 := by decide
  show mkWord _ _ _ _ _ &&& mkWord 0xF 0xC 0x80 0x00 0x00 = 0x50000000
  rw [mkWord_and, h, hx, hz, hz]
  decide

theorem unpk (off : BitVec 3) (w : Width) (order : ByteOrder) (sign : Signedness) (conv : Conv) :
    Statement (.unpk off w order sign conv) := by
  have h : ∀ r : BitVec 3, (0#5 ++ r : Byte) &&& 0xF8 = 0 := by decide
  have hc : ∀ c : Conv, (0#6 ++ c.code : Byte) &&& 0xFC = 0 := by
    intro c
    cases c <;> decide
  have hx : ∀ (w : Width) (o : ByteOrder) (g : Signedness),
      (0#1 ++ BitVec.ofBool w.bit ++ BitVec.ofBool o.bit ++ BitVec.ofBool g.bit : BitVec 4) &&& 0x8 = 0 := by
    intro w o g
    cases w <;> cases o <;> cases g <;> decide
  show mkWord _ _ _ _ _ &&& mkWord 0xF 0x8 0xF8 0xFC 0xFF = 0x60000000
  rw [mkWord_and, h, hc, hx]
  decide

theorem idchk (reg : RegAddr) (expect : Byte) : Statement (.idchk reg expect) := by
  have h : ∀ r : RegAddr, regField r &&& 0x80 = 0 := by decide
  have hz : ∀ x : Byte, x &&& 0x00 = 0 := by decide
  show mkWord _ _ _ _ _ &&& mkWord 0xF 0xF 0x80 0x00 0xFF = 0x70000000
  rw [mkWord_and, h, hz]
  decide

end Sys2Proof.Laws.TableRow
end

