-- ==== Sys2Proof/Tests/Slice0.lean ====
section
/-! SUPPORT. Tests of this model: the checks of WellFormed, words written out from the encoding rules, single steps with results
from spec/95_test_vectors.md, and for every statement with hypotheses a state or operands that meet them. -/

namespace Sys2Proof.Machine.Tests

/-! Helpers -/

/-- The state an outcome goes on with. -/
def nextOf : Result → Option State
  | .next t => some t
  | .fault _ => none
  | .refused _ => none

/-- The reset state with DEV_ADDR = 0x1D and the given accesses still to come. -/
def host (inputs : List Input) : State := { State.reset with devAddr := 0x1D, inputs := inputs }

/-- A command in a phase, DEV_ADDR = 0x1D, the given transport answers to come. -/
def running (w : Word) (p : Phase) (bus : List Config.BusAnswer) : State :=
  { State.reset with devAddr := 0x1D, cmd := w, phase := p, bus := bus }

/-- SWRD in a phase at a count, the given pin answers to come; the pin is driven where the request phase drives it. -/
def swrdAt (p : Phase) (cnt : Nat) (pin : List Config.PinAnswer) : State :=
  { State.reset with
    cmd := 0x10000000, phase := p, cnt := cnt, pin := pin, pinmode := if p.drives then .drive else .sample }

/-- `Ok` with the given TR_RDATA. -/
def okBus (rdata : BitVec 64) : Config.BusAnswer := { fail := false, rdata := rdata }

/-- `Fail`. -/
def failBus : Config.BusAnswer := { fail := true, rdata := 0 }

/-- `Level(0)`, and `Ok` to a drive. -/
def low : Config.PinAnswer := { level := false, fault := false }

/-- `Level(1)`. -/
def high : Config.PinAnswer := { level := true, fault := false }

/-- `Fault`. -/
def bad : Config.PinAnswer := { level := true, fault := true }

/-! WellFormed: one ill-formed command for each check -/

theorem test_wf_requestCount : (Instr.xfer 0 8).wellFormed = false := by decide

theorem test_wf_responseCountZero : (Instr.xfer 3 0).wellFormed = false := by decide

theorem test_wf_responseCountNine : (Instr.xfer 3 9).wellFormed = false := by decide

theorem test_wf_strayBits : (Instr.rmw 0x20 0x07 0x0B .none).wellFormed = false := by decide

theorem test_wf_orderOfOneByte : (Instr.unpk 0 .one .le .unsigned .raw).wellFormed = false := by decide

/-! Decoding: one word for each command, bit by bit from rule R72 to rule R78 (OPC, AUX, A, B, C), and the refusals of
section 2.1 -/

theorem test_decode_swrd : decode 0b00010000000000000000000000000000 = .ok .swrd := by decide

/-- OPC 0010, AUX 0011 (W, INC), A 0101000. -/
theorem test_decode_rdreg : decode 0b00100011001010000000000000000000 = .ok (.rdreg 0x28 .two true) := by decide

/-- AUX 0010: W is AUX[1]. -/
theorem test_decode_rdreg_width : decode 0b00100010001000000000000000000000 = .ok (.rdreg 0x20 .two false) := by decide

/-- OPC 0011, AUX 0011 (NREQ), A 00001000 (NRESP). -/
theorem test_decode_xfer : decode 0b00110011000010000000000000000000 = .ok (.xfer 3 8) := by decide

/-- OPC 0100, A 00100000, B 01010111. -/
theorem test_decode_wrreg : decode 0b01000000001000000101011100000000 = .ok (.wrreg 0x20 0x57) := by decide

/-- OPC 0101, AUX 0010 (SLOT), A 00100101, B 01100000 (mask), C 00100000 (bits). -/
theorem test_decode_rmw : decode 0b01010010001001010110000000100000 = .ok (.rmw 0x25 0x60 0x20 .s2) := by decide

/-- OPC 0110, AUX 0101 (W, SIGN), A 00000100 (OFF), B 00000001 (CONV). -/
theorem test_decode_unpk : decode 0b01100101000001000000000100000000 = .ok (.unpk 4 .two .be .signed .tenths) := by decide

/-- AUX 0110 (W, ORDER). -/
theorem test_decode_unpk_order : decode 0b01100110000001100000000000000000 = .ok (.unpk 6 .two .le .unsigned .raw) := by
  decide

/-- OPC 0111, A 00001111, B 01001001. -/
theorem test_decode_idchk : decode 0b01110000000011110100100100000000 = .ok (.idchk 0x0F 0x49) := by decide

/-- E1 and E29. -/
theorem test_decode_reserved :
    [0x00000000, 0x80000000, 0xF0000000, 0xFFFFFFFF].all (fun w => decode w = .error .reservedOpcode) = true := by decide

/-- E3, E4, E8, E9, E10, E16, E18, E19, E20, E25, E28, E38 to E41. -/
theorem test_decode_mustBeZero :
    [0x10000001, 0x11000000, 0x24280000, 0x20800000, 0x20280100, 0x33180000, 0x40205701, 0x41205700, 0x40A05700,
      0x50A00703, 0x700F4901, 0x68000000, 0x60080000, 0x60000400, 0x60000001].all
      (fun w => decode w = .error .mustBeZero) = true := by decide

/-- E13, E14, E15, E22, E23, E26, E32. -/
theorem test_decode_operands :
    decode 0x30080000 = .error .requestCount ∧ decode 0x33000000 = .error .responseCount ∧
    decode 0x33090000 = .error .responseCount ∧ decode 0x5020070B = .error .strayBits ∧
    decode 0x53200703 = .error .reservedSlot ∧ decode 0x500000FF = .error .strayBits ∧
    decode 0x62000000 = .error .orderOfOneByte := by decide

/-! Single steps -/

/-- The last bit of frame F1 (a 0: durations 2 and 1) publishes 25.1 %RH and 1.5 degrees. -/
theorem test_swrd_publishes :
    (nextOf (step { swrdAt .datH 1 [low] with b := #v[0x19, 0x01, 0x01, 0x05, 0x10], bitcnt := 39, lowdur := 2 })).map
      (fun t => (t.statusWord, t.humWord, t.tempWord, t.frameHiWord)) =
    some (0x00000022, 0x000000FB, 0x0000000F, 0x00002820) := by decide

/-- The last bit of frame F8 (a 1: durations 2 and 4): CrcError, results stay 0. -/
theorem test_swrd_crc :
    (nextOf (step { swrdAt .datH 4 [low] with b := #v[0x19, 0x01, 0x01, 0x05, 0x10], bitcnt := 39, lowdur := 2 })).map
      (fun t => (t.statusWord, t.humWord, t.tempWord, t.frameHiWord)) =
    some (0x00000012, 0x00000000, 0x00000000, 0x00002821) := by decide

/-- Q1: both bytes stored, the burst flag set in the request. -/
theorem test_rdreg_two :
    (nextOf (step (running 0x23280000 .rcRd [okBus 0x1234]))).map (fun t => (t.statusWord, t.respLoWord, t.out)) =
    some (0x00000202, 0x00001234, [.transport (.writeThenRead 0x1D [0xA8] 2)]) := by decide

/-- X1: three request bytes from ARG, eight bytes back. -/
theorem test_xfer_sensorA :
    (nextOf (step { running 0x33080000 .rcRd [okBus 0xBBAA0101F4010403] with devAddr := 0x5C, arg := 0x00040003 })).map
      (fun t => (t.statusWord, t.respLoWord, t.respHiWord, t.out)) =
    some (0x00000802, 0xF4010403, 0xBBAA0101, [.transport (.writeThenRead 0x5C [0x03, 0x00, 0x04] 8)]) := by decide

/-- Q10: RESP and RLEN untouched. -/
theorem test_wrreg_ok :
    (nextOf (step (running 0x40205700 .rcWr [okBus 0]))).map (fun t => (t.statusWord, t.respLoWord, t.out)) =
    some (0x00000002, 0x00000000, [.transport (.write 0x1D [0x20, 0x57])]) := by decide

/-- W1, the read: NEWVAL keeps the bits outside the mask. -/
theorem test_rmw_merges :
    (nextOf (step (running 0x51213820 .rcRd [okBus 0xC7]))).map (fun t => (t.newval, t.phase, t.respLoWord)) =
    some (0xE7, .rcWr, 0x000000C7) := by decide

/-- W1, the write: S1 is replaced, S2 kept. -/
theorem test_rmw_records :
    (nextOf (step
      { running 0x51213820 .rcWr [okBus 0] with arg := 16, newval := 0xE7, rlen := 1, s1 := 7, s2 := 9 })).map
      (fun t => (t.statusWord, t.scaleWord, t.out)) =
    some (0x00000102, 0x00000910, [.transport (.write 0x1D [0x21, 0xE7])]) := by decide

/-- A5: little-endian and signed; DATA_META carries no divisor. -/
theorem test_unpk_signed :
    (nextOf (step
      { host [.write 0 0x67000100] with resp := #v[0x80, 0xFF, 0, 0, 0, 0, 0, 0], rlen := 2, s1 := 7 })).map
      (fun t => (t.data, t.metaWord)) =
    some (0xFFFFFF80, 0x80000001) := by decide

/-- X10: bytes beyond RLEN are refused and DATA stays. -/
theorem test_unpk_beyond :
    (nextOf (step { host [.write 0 0x67060200] with rlen := 6, done := true, data := 0x7FFF })).map
      (fun t => (t.statusWord, t.data, t.dvalid)) =
    some (0x00000616, 0x7FFF, false) := by decide

/-- Q12. -/
theorem test_idchk_match :
    (nextOf (step (running 0x700F4900 .rcRd [okBus 0x49]))).map (·.statusWord) = some 0x00000142 := by decide

/-- Section 1 of the vectors, S7: 0xC9 differs in bit 7 alone. -/
theorem test_idchk_mismatch :
    (nextOf (step (running 0x700F4900 .rcRd [okBus 0xC9]))).map (·.statusWord) = some 0x00000102 := by decide

/-- A placed word of the opcode table is the next thing to run. -/
theorem test_withFetchWord :
    (nextOf (step (State.reset.withFetchWord 32 0x23280000))).map (fun t => (t.cmd, t.phase)) =
    some (0x23280000, .rcRd) := by decide

/-! States that meet the hypotheses of the statements: encoding and accept -/

theorem wit_wellFormed :
    [Instr.swrd, .rdreg 0x7F .two true, .xfer 1 1, .xfer 3 8, .wrreg 0x7F 0xFF, .rmw 0 0 0 .none, .rmw 0x7F 0xFF 0xFF .s2,
      .unpk 7 .one .be .signed .sc2, .unpk 7 .two .le .signed .sc2, .idchk 0x7F 0xFF].all Instr.wellFormed = true := by
  decide

theorem wit_decodes : decode 0x23280000 = .ok (.rdreg 0x28 .two true) := by decide

/-- OPC 0, 8 and 15. -/
theorem wit_reservedOpcodes :
    (host [.write 0 0x80000000]).phase = .idle ∧ (host [.write 0 0x80000000]).inputs = [.write 0 0x80000000] ∧
    ((0x00000001 : Word).extractLsb' 28 4).toNat = 0 ∧ 8 ≤ ((0x80000000 : Word).extractLsb' 28 4).toNat ∧
    8 ≤ ((0xFFFFFFFF : Word).extractLsb' 28 4).toNat := by decide

/-- An illegal word. -/
theorem wit_illegal_word :
    let s := host [.write 0 0x53200703]
    s.phase = .idle ∧ s.inputs = [.write 0 0x53200703] ∧ s.rlen.toNat ≤ 8 ∧ ∀ i, decode 0x53200703 = .ok i →
      ∃ off v order sign conv, i = .unpk off v order sign conv ∧ s.rlen.toNat < off.toNat + (if v = .two then 2 else 1) := by
  refine ⟨rfl, rfl, by decide, fun i h => ?_⟩
  rw [show decode 0x53200703 = .error .reservedSlot by decide] at h
  cases h

/-- UNPK of two bytes at RLEN = 1, the boundary. -/
theorem wit_illegal_unpack :
    let s := { host [.write 0 0x64000000] with rlen := 1 }
    s.phase = .idle ∧ s.inputs = [.write 0 0x64000000] ∧ s.rlen.toNat ≤ 8 ∧ ∀ i, decode 0x64000000 = .ok i →
      ∃ off v order sign conv, i = .unpk off v order sign conv ∧ s.rlen.toNat < off.toNat + (if v = .two then 2 else 1) := by
  refine ⟨rfl, rfl, by decide, fun i h => ?_⟩
  rw [show decode 0x64000000 = .ok (.unpk 0 .two .be .unsigned .raw) by decide] at h
  cases h
  exact ⟨_, _, _, _, _, rfl, by decide⟩

/-- UNPK of two bytes at RLEN = 2, the other side of the boundary. -/
theorem wit_legal_unpack :
    let s := { host [.write 0 0x64000000] with rlen := 2 }
    s.phase = .idle ∧ s.inputs = [.write 0 0x64000000] ∧ s.rlen.toNat ≤ 8 ∧
    ∃ i, decode 0x64000000 = .ok i ∧ ∀ off v order sign conv, i = .unpk off v order sign conv →
      off.toNat + (if v = .two then 2 else 1) ≤ s.rlen.toNat := by
  refine ⟨rfl, rfl, by decide, .unpk 0 .two .be .unsigned .raw, by decide, fun off v order sign conv h => ?_⟩
  cases h
  decide

/-- The three ways a step runs a command. -/
theorem wit_stepRuns :
    (host [.write 0 0x10000000]).inputs = .write 0 0x10000000 :: [] ∧ (host [.write 0 0x10000000]).phase = .idle ∧
    decode 0x10000000 = .ok .swrd ∧ (swrdAt .rqH1 0 []).inputs = [] ∧ (swrdAt .rqH1 0 []).phase ≠ .idle ∧
    decode (swrdAt .rqH1 0 []).cmd = .ok .swrd ∧
    { swrdAt .rqH1 0 [] with inputs := [.none] }.inputs = .none :: [] := by decide

/-- A write while a command runs: to CMD, ARG and DEV_ADDR. -/
theorem wit_busyWrites :
    [(0 : HostAddr), 1, 3].all (fun a =>
      let s := { running 0x23280000 .rcRd [] with inputs := [.write a 5] }
      s.inputs = .write a 5 :: [] ∧ s.phase ≠ .idle ∧ s.rlen.toNat ≤ 8) = true := by decide

/-- A write to STATUS with bit 7 equal to 1 and with bit 7 equal to 0, and REJ set before a step. -/
theorem wit_rejectFlag :
    (host [.write 2 0x80]).inputs = .write 2 0x80 :: [] ∧ (host [.write 2 0x7F]).inputs = .write 2 0x7F :: [] ∧
    { host [] with rej := true }.rej = true ∧ step { host [] with rej := true } = .next { host [] with rej := true } :=
  ⟨rfl, rfl, rfl, rfl⟩

theorem wit_operandWrites :
    (host [.write 1 5]).phase = .idle ∧ (host [.write 1 5]).inputs = .write 1 5 :: [] ∧
    (host [.write 3 0xFF]).inputs = .write 3 0xFF :: [] := by decide

/-- The first and the last reserved offset, the first read-only one, and a read. -/
theorem wit_reservedOffsets :
    13 ≤ (13 : HostAddr).toNat ∧ 13 ≤ (15 : HostAddr).toNat ∧ 4 ≤ (4 : HostAddr).toNat ∧
    (host [.write 4 5]).inputs = .write 4 5 :: [] ∧ (host [.read 2]).inputs = .read 2 :: [] := by decide

/-- Reset while a command runs. -/
theorem wit_reset :
    { running 0x23280000 .rcRd [] with inputs := [.reset] }.inputs = .reset :: [] := rfl

theorem wit_idle : (host []).phase = .idle ∧ (host []).inputs = [] := by decide

/-! The single-wire unit -/

theorem wit_swrdAccept : (host [.write 0 0x10000000]).phase = .idle ∧
    (host [.write 0 0x10000000]).inputs = .write 0 0x10000000 :: [] := by decide

/-- The request phase, answered `Ok` and answered `Fault`. -/
theorem wit_table_request :
    [Phase.rqH1, .rqL, .rqH2].all (fun p =>
      (swrdAt p 0 [low]).phase = p ∧ (pinAnswer (swrdAt p 0 [low])).fault = false ∧
      (pinAnswer (swrdAt p 0 [bad])).fault = true) = true := by decide

/-- The measurements: fault, edge, one more sample, and at the budget, at CNT = 998 and CNT = 999 of 1000. -/
theorem wit_table_measure :
    [(Phase.ackL, low, high), (.datL, low, high), (.ackH, high, low), (.datH, high, low)].all (fun r =>
      let s := swrdAt r.1 998 [r.2.1]
      let e := swrdAt r.1 999 [r.2.2]
      let f := swrdAt r.1 999 [bad]
      let l := swrdAt r.1 999 [r.2.1]
      (pinAnswer f).fault = true ∧ (pinAnswer e).fault = false ∧ (pinAnswer e).level ≠ (pinAnswer s).level ∧
      (pinAnswer s).fault = false ∧ s.cnt + 1 < s.params.budget ∧ (pinAnswer l).fault = false ∧
      (pinAnswer l).level = (pinAnswer s).level ∧ l.cnt + 1 = l.params.budget ∧ s.err = .none ∧
      s.bitcnt.toNat < 40 ∧ l.cnt < l.params.budget) = true := by decide

/-- BITCNT at 38 and at 39, the row's two sides. -/
theorem wit_table_bits :
    { swrdAt .datH 1 [low] with bitcnt := 38 }.bitcnt.toNat < 39 ∧
    { swrdAt .datH 1 [low] with bitcnt := 39 }.bitcnt.toNat = 39 ∧
    { swrdAt .datH 1 [low] with bitcnt := 39 }.bitcnt.toNat < 40 ∧ (pinAnswer (swrdAt .datH 1 [low])).level = false := by
  decide

/-- One low sample, two high ones, a low one, with room in the budget: m = 1 and n = 1. -/
theorem wit_pulse :
    let f := fun k : Nat => if k = 1 ∨ k = 2 then high else low
    (1 < 2) ∧ (∀ k ≤ 1 + 1 + 1, (f (0 + k)).fault = false) ∧ (∀ k < 1, (f (0 + k)).level = false) ∧
    (∀ k ≤ 1, (f (0 + 1 + k)).level = true) ∧ (f (0 + 1 + 1 + 1)).level = false := by decide

theorem wit_refines :
    (host [.write 0 0x10000000]).phase = .idle ∧ 1 ≤ (host [.write 0 0x10000000]).params.budget ∧
    (host [.write 0 0x10000000]).inputs = [.write 0 0x10000000] := by decide

/-- A step of SWRD that goes on: at the accept, in a measurement, and at the end of a good frame. -/
theorem wit_swrdNext :
    (nextOf (exec .swrd (host []))).isSome = true ∧ (nextOf (exec .swrd (swrdAt .ackL 0 [low]))).isSome = true ∧
    ((nextOf (exec .swrd { swrdAt .datH 1 [low] with b := #v[0, 0, 0, 0, 0], bitcnt := 39, lowdur := 2 })).map
      (·.valid)) = some true := by decide

/-! The register codec engine -/

theorem wit_rdreg :
    let s := { host [.write 0 (encode (.rdreg 0x28 .two true))] with bus := [okBus 0x1234] }
    s.phase = .idle ∧ s.inputs = [.write 0 (encode (.rdreg 0x28 .two true))] ∧ s.bus = okBus 0x1234 :: [] := by decide

/-- The least and the greatest counts, and the counts just outside. -/
theorem wit_xfer :
    let s := { host [.write 0 (encode (.xfer 3 8))] with bus := [okBus 1] }
    s.phase = .idle ∧ s.inputs = [.write 0 (encode (.xfer 3 8))] ∧ s.bus = okBus 1 :: [] ∧ (3 : BitVec 2) ≠ 0 ∧
    (8 : BitVec 4) ≠ 0 ∧ (8 : BitVec 4).toNat ≤ 8 ∧ (1 : BitVec 2) ≠ 0 ∧ (1 : BitVec 4) ≠ 0 ∧ (1 : BitVec 4).toNat ≤ 8 ∧
    8 < (9 : BitVec 4).toNat ∧ (0x00040003 : Word).extractLsb' 0 8 = requestByte 0x03 false ∧
    (host [.write 0 (encode (.xfer 3 9))]).inputs = [.write 0 (encode (.xfer 3 9))] := by decide

theorem wit_wrreg :
    let s := { host [.write 0 (encode (.wrreg 0x20 0x57))] with bus := [failBus] }
    s.phase = .idle ∧ s.inputs = [.write 0 (encode (.wrreg 0x20 0x57))] ∧ s.bus = failBus :: [] := by decide

/-- Both answers `Ok`, the read failed, and bits outside the mask. -/
theorem wit_rmw :
    let i := Instr.rmw 0x21 0x38 0x20 .s1
    let j := Instr.rmw 0x20 0x07 0x0B .none
    let s := { host [.write 0 (encode i)] with bus := [okBus 0xC7, okBus 0] }
    let f := { host [.write 0 (encode i)] with bus := [failBus] }
    s.phase = .idle ∧ s.inputs = [.write 0 (encode i)] ∧ s.bus = okBus 0xC7 :: okBus 0 :: [] ∧ (okBus 0xC7).fail = false ∧
    f.bus = failBus :: [] ∧ failBus.fail = true ∧ (0x20 : Byte) &&& ~~~(0x38 : Byte) = 0 ∧
    (0x0B : Byte) &&& ~~~(0x07 : Byte) ≠ 0 ∧ (host [.write 0 (encode j)]).inputs = [.write 0 (encode j)] := by decide

theorem wit_idchk :
    let s := { host [.write 0 (encode (.idchk 0x0F 0x49))] with bus := [okBus 0x49] }
    s.phase = .idle ∧ s.inputs = [.write 0 (encode (.idchk 0x0F 0x49))] ∧ s.bus = okBus 0x49 :: [] := by decide

/-- UNPK at the boundary OFF + n = RLEN, one past it, and one byte with an order. -/
theorem wit_unpk :
    let s := { host [] with rlen := 2 }
    s.phase = .idle ∧ s.rlen.toNat ≤ 8 ∧ (0 : BitVec 3).toNat + 2 ≤ s.rlen.toNat ∧
    s.rlen.toNat < (1 : BitVec 3).toNat + 2 ∧ (Width.one = .one ∧ ByteOrder.le = .le) := by decide

/-- The read and the write phase with an answer `Ok` and an answer `Fail`. -/
theorem wit_answers :
    (running 0x51213820 .rcRd [okBus 0xC7]).phase = .rcRd ∧ (running 0x51213820 .rcWr [failBus]).phase = .rcWr ∧
    (running 0x51213820 .rcRd [okBus 0xC7]).bus = okBus 0xC7 :: [] ∧ (okBus 0xC7).fail = false ∧
    (running 0x51213820 .rcWr [failBus]).bus = failBus :: [] ∧ failBus.fail = true := by decide

theorem wit_rmwMerge :
    (nextOf (exec (.rmw 0x21 0x38 0x20 .s1) (running 0x51213820 .rcRd [okBus 0xC7]))).isSome = true := by decide

/-- A step that goes on in an idle block, one with a running command, and one of each engine command. -/
theorem wit_nextStates :
    (nextOf (step (host []))).isSome = true ∧ (nextOf (step (running 0x51213820 .rcRd [okBus 0xC7]))).isSome = true ∧
    (running 0x51213820 .rcRd [okBus 0xC7]).phase ≠ .idle ∧ (host []).phase = .idle ∧ (host []).inputs = [] ∧
    (nextOf (step (host [.write 1 5]))).isSome = true ∧
    [Instr.rdreg 0x28 .two true, .xfer 3 8, .wrreg 0x20 0x57, .rmw 0x21 0x38 0x20 .s1, .unpk 0 .one .be .signed .raw,
      .idchk 0x0F 0x49].all (fun i => i ≠ .swrd ∧ (nextOf (exec i (host []))).isSome = true) = true := by decide

/-! States that meet the invariant -/

/-- A read of RMW is outstanding. -/
theorem wit_inv_read : Inv (running 0x51213820 .rcRd []) := by
  constructor
  case command => exact fun _ => ⟨.rmw 0x21 0x38 0x20 .s1, by decide, by decide⟩
  case writing => exact fun _ _ _ _ h => by cases h
  case checking =>
    intro reg expect _ _
    rfl
  all_goals decide

/-- The same with reset as the next input. -/
theorem wit_inv_read_reset : Inv { running 0x51213820 .rcRd [] with inputs := [.reset] } := by
  constructor
  case command => exact fun _ => ⟨.rmw 0x21 0x38 0x20 .s1, by decide, by decide⟩
  case writing => exact fun _ _ _ _ h => by cases h
  case checking =>
    intro reg expect _ _
    rfl
  all_goals decide

/-- The write of RMW is outstanding: 0xC7 was read, 0xE7 will be written. -/
theorem wit_inv_write :
    Inv { running 0x51213820 .rcWr [] with rlen := 1, resp := #v[0xC7, 0, 0, 0, 0, 0, 0, 0], newval := 0xE7 } := by
  constructor
  case command => exact fun _ => ⟨.rmw 0x21 0x38 0x20 .s1, by decide, by decide⟩
  case writing =>
    intro reg mask bits slot _ h
    rw [show decode _ = .ok (.rmw 0x21 0x38 0x20 .s1) by decide] at h
    cases h
    decide
  case checking => exact fun _ _ h => by cases h
  all_goals decide

/-- SWRD waits for the acknowledgement. -/
theorem wit_inv_swrd : Inv (swrdAt .ackL 998 [low]) := by
  constructor
  case command => exact fun _ => ⟨.swrd, by decide, by decide⟩
  case writing => exact fun _ _ _ _ h => by cases h
  case checking => exact fun _ _ h => by cases h
  all_goals decide

/-- What the statements with the invariant ask besides it: the phase, no input, no answer, and a step that goes on. -/
theorem wit_invariantStates :
    (swrdAt .ackL 998 [low]).phase.singleWire = true ∧ (swrdAt .ackL 998 [low]).inputs = [] ∧
    (running 0x51213820 .rcRd []).phase = .rcRd ∧ (running 0x51213820 .rcRd []).bus = [] ∧
    (running 0x51213820 .rcRd []).inputs = [] ∧ decode (running 0x51213820 .rcRd []).cmd = .ok (.rmw 0x21 0x38 0x20 .s1) ∧
    (running 0x51213820 .rcWr []).phase = .rcWr ∧ (running 0x51213820 .rcWr []).bus = [] ∧
    (nextOf (step (swrdAt .ackL 998 [low]))).isSome = true := by decide

/-- An answered read in a state that meets the invariant: the clause on the request performed. -/
theorem wit_inv_answered : Inv (running 0x51213820 .rcRd [okBus 0xC7]) ∧
    (running 0x51213820 .rcRd [okBus 0xC7]).bus = okBus 0xC7 :: [] ∧
    (nextOf (step (running 0x51213820 .rcRd [okBus 0xC7]))).isSome = true := by
  refine ⟨?_, rfl, by decide⟩
  constructor
  case command => exact fun _ => ⟨.rmw 0x21 0x38 0x20 .s1, by decide, by decide⟩
  case writing => exact fun _ _ _ _ h => by cases h
  case checking =>
    intro reg expect _ _
    rfl
  all_goals decide

/-- The port statement at its greatest count, and a run with the least budget. -/
theorem wit_bounds : 8 ≤ 8 ∧ 1 ≤ { Config.Params.reference with budget := 1 }.budget := by decide

end Sys2Proof.Machine.Tests
end

section
/-! The host side of the state: what a host access does to it, and that no step of a command touches it (rule R29, rule
R40, rule R67). Settles O9 and O11. -/

namespace Sys2Proof.Machine

/-- What only the host side writes: the registers CMD, ARG and DEV_ADDR (rule R67), the flag REJ (rule R29), the
parameters (rule R6) and the accesses still to come. -/
structure HostSide where
  cmd : Word
  arg : Word
  devAddr : BusAddr
  rej : Bool
  params : Config.Params
  inputs : List Input

/-- The host side of a state; `exec_hostSide` says that no step of a command changes it. -/
def State.hostSide (s : State) : HostSide := ⟨s.cmd, s.arg, s.devAddr, s.rej, s.params, s.inputs⟩

theorem abort_hostSide (e : ErrCode) (s : State) : (abort e s).hostSide = s.hostSide := by
  simp [State.hostSide]

theorem recordDivisor_hostSide (slot : Slot) (s : State) : (recordDivisor slot s).hostSide = s.hostSide := by
  simp [State.hostSide]

theorem transact_hostSide {r : Request} {k : BitVec 64 → State → State} {s t : State} (h : transact r k s = .next t)
    (hk : ∀ d u, (k d u).hostSide = u.hostSide) : t.hostSide = s.hostSide := by
  obtain ⟨-, ho⟩ | ⟨_, _, -, -, ho⟩ | ⟨_, _, -, -, ho⟩ := transact_cases h <;> cases ho
  · rfl
  · exact abort_hostSide _ _
  · exact hk _ _

theorem startIf_hostSide {legal : Bool} {k : State → State} {s t : State} (h : startIf legal k s = .next t)
    (hk : ∀ u, (k u).hostSide = u.hostSide) : t.hostSide = s.hostSide := by
  obtain ⟨-, ho⟩ | ⟨-, ho⟩ := startIf_cases h <;> cases ho
  · exact hk s
  · rfl

theorem requestStep_hostSide {l : Bool} {k : State → State} {s t : State} (h : requestStep l k s = .next t)
    (hk : ∀ u, (k u).hostSide = u.hostSide) : t.hostSide = s.hostSide := by
  obtain ⟨-, ho⟩ | ⟨-, ho⟩ := requestStep_cases h <;> cases ho
  · exact abort_hostSide .pin (pinDrive l s)
  · exact hk (pinDrive l s)

theorem measureStep_hostSide {l : Bool} {k : State → Result} {s t : State} (h : measureStep l k s = .next t)
    (hk : ∀ u, k u = .next t → t.hostSide = u.hostSide) : t.hostSide = s.hostSide := by
  obtain ⟨-, ho⟩ | ⟨-, -, ho⟩ | ⟨-, -, -, ho⟩ | ⟨-, -, -, ho⟩ | ⟨-, -, -, ho⟩ := measureStep_cases h
  · cases ho
    exact abort_hostSide .pin (pinSample s)
  · exact hk (pinSample s) ho.symm
  · cases ho
    rfl
  · cases ho
    exact abort_hostSide .timeout (wait 1 (pinSample s))
  · cases ho

theorem dataEnds_hostSide {s t : State} (h : dataEnds s = .next t) : t.hostSide = s.hostSide := by
  obtain ⟨-, ho⟩ | ⟨-, ho⟩ | ⟨-, ho⟩ := dataEnds_cases h <;> cases ho
  · rfl
  · obtain ⟨-, hf⟩ | ⟨-, hf⟩ := finish_cases (shiftBit s) <;> rw [hf]
    · rfl
    · exact abort_hostSide .crc (shiftBit s)

theorem execSwrd_hostSide {s t : State} (h : execSwrd s = .next t) : t.hostSide = s.hostSide := by
  unfold execSwrd at h
  split at h
  case h_1 =>
    cases h
    rfl
  case h_2 | h_3 | h_4 => exact requestStep_hostSide h fun _ => rfl
  case h_5 | h_6 | h_7 =>
    refine measureStep_hostSide h fun _ hu => ?_
    cases hu
    rfl
  case h_8 => exact measureStep_hostSide h fun _ => dataEnds_hostSide
  case h_9 | h_10 => cases h

/-- No step of a command, be it its accept or a later one, touches what only the host side writes (rule R29, rule R67). -/
theorem exec_hostSide {i : Instr} {s t : State} (h : exec i s = .next t) : t.hostSide = s.hostSide := by
  cases i with
  | swrd => exact execSwrd_hostSide h
  | rdreg reg w inc =>
    simp only [exec, execRdreg] at h
    split at h
    · cases h
      rfl
    · exact transact_hostSide h fun _ _ => rfl
    all_goals cases h
  | xfer nreq nresp =>
    simp only [exec, execXfer] at h
    split at h
    · exact startIf_hostSide h fun _ => rfl
    · exact transact_hostSide h fun _ _ => rfl
    all_goals cases h
  | wrreg reg value =>
    simp only [exec, execWrreg] at h
    split at h
    · cases h
      rfl
    · exact transact_hostSide h fun _ _ => rfl
    all_goals cases h
  | rmw reg mask bits slot =>
    simp only [exec, execRmw] at h
    split at h
    · exact startIf_hostSide h fun _ => rfl
    · exact transact_hostSide h fun _ _ => rfl
    · exact transact_hostSide h fun _ => recordDivisor_hostSide slot
    all_goals cases h
  | unpk off w order sign conv =>
    simp only [exec, execUnpk] at h
    split at h
    · exact startIf_hostSide h fun _ => rfl
    all_goals cases h
  | idchk reg expect =>
    simp only [exec, execIdchk] at h
    split at h
    · cases h
      rfl
    · exact transact_hostSide h fun _ _ => rfl
    all_goals cases h

theorem exec_rej {i : Instr} {s t : State} (h : exec i s = .next t) : t.rej = s.rej :=
  congrArg HostSide.rej (exec_hostSide h)

theorem sequencerStep_rej {s t : State} (h : sequencerStep s = .next t) : t.rej = s.rej := by
  obtain ⟨-, hs⟩ | ⟨-, i, -, hs⟩ | ⟨-, e, -, hs⟩ := sequencerStep_cases s <;> rw [hs] at h
  · cases h
    rfl
  · exact exec_rej h
  · cases h

/-- No accept clears REJ, whether the word starts or is refused (rule R29). -/
theorem accept_rej {w : Word} {s t : State} (h : accept w s = .next t) : t.rej = s.rej := by
  obtain ⟨i, -, ha⟩ | ⟨e, -, ha⟩ := accept_cases w s <;> rw [ha] at h
  · exact (exec_rej h).trans (acceptWord_rej w s)
  · cases h
    rfl

/-- A write to CMD, ARG or DEV_ADDR while a command runs is dropped, which REJ records (rule R29). -/
theorem hostWrite_of_busy {addr : HostAddr} {s : State} (ha : addr = 0 ∨ addr = 1 ∨ addr = 3) (hp : s.phase ≠ .idle)
    (w : Word) : hostWrite addr w s = .next { s with rej := true } := by
  have hb : s.busy = true := (busy_eq_true s).mpr hp
  obtain rfl | rfl | rfl := ha <;> simp [hostWrite, writeCmd, writeArg, writeDevAddr, hb, reject, rejNext]

theorem writeStatus_eq (w : Word) (s : State) :
    writeStatus w s = { s with rej := if w.getLsbD 7 then false else s.rej } := by
  unfold writeStatus rejNext
  cases w.getLsbD 7 <;> simp

/-- A host write clears a set REJ only at STATUS with bit 7 equal to 1 (rule R29). -/
theorem hostWrite_keeps_rej {addr : HostAddr} {w : Word} {s t : State} (h : hostWrite addr w s = .next t)
    (hr : s.rej = true) : t.rej = true ∨ addr = 2 ∧ w.getLsbD 7 = true := by
  obtain ⟨-, -, hw⟩ | ⟨-, -, hw⟩ | ⟨-, -, hw⟩ | ⟨-, -, hw⟩ | ⟨ha, hw⟩ | ⟨-, -, hw⟩ | ⟨-, -, hw⟩ | ⟨-, hw⟩ :=
    hostWrite_cases addr w s <;> rw [hw] at h
  case inr.inl => exact .inl ((accept_rej h).trans hr)
  case inr.inr.inr.inr.inl =>
    rw [writeStatus_eq] at h
    cases h
    cases w.getLsbD 7
    · exact .inl hr
    · exact .inr ⟨ha, rfl⟩
  all_goals
    cases h
    simp [hr]

/-- REJ is sticky: a step clears it only by a reset or by a STATUS write with bit 7 equal to 1 (rule R29). -/
theorem step_keeps_rej {s t : State} (hr : s.rej = true) (h : step s = .next t) :
    t.rej = true ∨ (∃ rest, s.inputs = .reset :: rest) ∨
      ∃ w rest, s.inputs = .write 2 w :: rest ∧ w.getLsbD 7 = true := by
  cases hi : s.inputs with
  | nil =>
    rw [step_noInput hi] at h
    exact .inl ((sequencerStep_rej h).trans hr)
  | cons i rest =>
    rw [step_input hi] at h
    cases i with
    | reset => exact .inr (.inl ⟨rest, rfl⟩)
    | read addr =>
      cases h
      exact .inl hr
    | write addr w =>
      obtain ht | ⟨rfl, h7⟩ := hostWrite_keeps_rej h hr
      · exact .inl ht
      · exact .inr (.inr ⟨w, rest, rfl, h7⟩)
    | none => exact .inl ((sequencerStep_rej h).trans hr)

/-- Settles O9: a dropped write by `hostWrite_of_busy`, the clear by `writeStatus_eq`, stickiness by `step_keeps_rej`. -/
theorem rejectFlagRules : Obligations.RejectFlagRules := by
  refine ⟨fun s a w rest ha hp hi => ?_, fun s w rest hi => ?_, fun s t => step_keeps_rej, fun _ => rfl, rfl⟩
  · exact (step_input hi).trans (hostWrite_of_busy (s := { s with inputs := rest }) ha hp w)
  · exact (step_input hi).trans (congrArg Host.Outcome.next (writeStatus_eq w { s with inputs := rest }))

theorem hostRead_reserved {addr : HostAddr} (h : 13 ≤ addr.toNat) (s : State) : hostRead addr s = 0 := by
  obtain ha | ha | ha : addr.toNat = 13 ∨ addr.toNat = 14 ∨ addr.toNat = 15 := by omega
  all_goals simp only [hostRead, ha]

/-- A write to a read-only or reserved offset changes nothing (rule R40). -/
theorem hostWrite_readOnly {addr : HostAddr} (h : 4 ≤ addr.toNat) (w : Word) (s : State) :
    hostWrite addr w s = .next s := by
  obtain ⟨rfl, -⟩ | ⟨rfl, -⟩ | ⟨rfl, -⟩ | ⟨rfl, -⟩ | ⟨rfl, -⟩ | ⟨rfl, -⟩ | ⟨rfl, -⟩ | ⟨-, hw⟩ := hostWrite_cases addr w s
  case inr.inr.inr.inr.inr.inr.inr => exact hw
  all_goals exact absurd h (by decide)

/-- Settles O11: `hostRead_reserved`, `hostWrite_readOnly`, and a read does nothing but `emit` its word. -/
theorem readOnlyAndReservedAccesses : Obligations.ReadOnlyAndReservedAccesses := by
  refine ⟨fun s a h => hostRead_reserved h s, fun s a w rest h hi => ?_, fun s a rest hi => step_input hi⟩
  exact (step_input hi).trans (hostWrite_readOnly h w { s with inputs := rest })

end Sys2Proof.Machine
end

section
/-! The fields of the words the host reads (rule R33 to rule R39), one lemma per register. Settles O12.
A field of a word made by `++` is found by dropping the whole parts below it (`extractLsb'_append_eq_of_le`) and then the
parts above it (`extractLsb'_append_eq_of_add_le`). The widths must stay the sums `++` gives them, so `simp` runs without
`Nat.reduceAdd`. -/

namespace Sys2Proof.Machine

theorem statusWord_fields (s : State) :
    s.statusWord.getLsbD 0 = decide (s.phase ≠ .idle) ∧ s.statusWord.getLsbD 1 = s.done ∧
    s.statusWord.extractLsb' 2 3 = s.err.code ∧ s.statusWord.getLsbD 5 = s.valid ∧ s.statusWord.getLsbD 6 = s.idok ∧
    s.statusWord.getLsbD 7 = s.rej ∧ s.statusWord.extractLsb' 8 4 = s.rlen ∧
    s.statusWord.extractLsb' 12 4 = s.phase.code ∧ s.statusWord.extractLsb' 16 16 = 0 := by
  simp [State.statusWord, State.busy, BitVec.extractLsb'_append_eq_of_le, BitVec.extractLsb'_append_eq_of_add_le,
    BitVec.getLsbD_append, -BitVec.getLsbD_eq_getElem, -Nat.reduceAdd]

theorem devAddrWord_fields (s : State) :
    s.devAddrWord.extractLsb' 0 7 = s.devAddr ∧ s.devAddrWord.extractLsb' 7 25 = 0 := by
  simp [State.devAddrWord, BitVec.setWidth_eq_append, BitVec.extractLsb'_append_eq_of_le,
    BitVec.extractLsb'_append_eq_of_add_le, -Nat.reduceAdd]

theorem scaleWord_fields (s : State) :
    s.scaleWord.extractLsb' 0 8 = s.s1 ∧ s.scaleWord.extractLsb' 8 8 = s.s2 ∧ s.scaleWord.extractLsb' 16 16 = 0 := by
  simp [State.scaleWord, BitVec.extractLsb'_append_eq_of_le, BitVec.extractLsb'_append_eq_of_add_le, -Nat.reduceAdd]

theorem metaWord_fields (s : State) :
    s.metaWord.extractLsb' 0 2 = s.conv.code ∧ s.metaWord.extractLsb' 2 6 = 0 ∧ s.metaWord.extractLsb' 8 8 = s.ddiv ∧
    s.metaWord.extractLsb' 16 15 = 0 ∧ s.metaWord.getLsbD 31 = s.dvalid := by
  simp [State.metaWord, BitVec.extractLsb'_append_eq_of_le, BitVec.extractLsb'_append_eq_of_add_le,
    BitVec.getLsbD_append, -BitVec.getLsbD_eq_getElem, -Nat.reduceAdd]

/-- Byte k of a word made of four consecutive bytes of a vector, lowest first (rule R37, rule R39). -/
theorem extractLsb'_four_bytes {n o : Nat} (v : Vector Byte n) (ho : o + 3 < n) {k : Nat} (hk : k < 4) :
    (v[o + 3] ++ v[o + 2] ++ v[o + 1] ++ v[o] : Word).extractLsb' (8 * k) 8 = v[k + o] := by
  interval_cases k <;>
    simp [BitVec.extractLsb'_append_eq_of_le, BitVec.extractLsb'_append_eq_of_add_le, Nat.add_comm, -Nat.reduceAdd]

theorem humWord_fields (s : State) : s.humWord.extractLsb' 0 12 = s.humT ∧ s.humWord.extractLsb' 12 20 = 0 := by
  simp [State.humWord, BitVec.setWidth_eq_append, BitVec.extractLsb'_append_eq_of_le,
    BitVec.extractLsb'_append_eq_of_add_le, -Nat.reduceAdd]

theorem tempWord_fields (s : State) :
    s.tempWord.extractLsb' 0 16 = s.tempT ∧ s.tempWord.getLsbD 16 = s.neg ∧ s.tempWord.extractLsb' 17 15 = 0 := by
  simp [State.tempWord, BitVec.extractLsb'_append_eq_of_le, BitVec.extractLsb'_append_eq_of_add_le,
    BitVec.getLsbD_append, -BitVec.getLsbD_eq_getElem, -Nat.reduceAdd]

theorem frameHiWord_fields (s : State) :
    s.frameHiWord.extractLsb' 0 8 = s.b[4] ∧ s.frameHiWord.extractLsb' 8 6 = s.bitcnt ∧
    s.frameHiWord.extractLsb' 14 18 = 0 := by
  simp [State.frameHiWord, BitVec.extractLsb'_append_eq_of_le, BitVec.extractLsb'_append_eq_of_add_le, -Nat.reduceAdd]

/-- Settles O12: one lemma per register, and the sixteen word addresses after reset one by one. -/
theorem registerMapFields : Obligations.RegisterMapFields := by
  intro s
  refine ⟨rfl, rfl, rfl, statusWord_fields s, devAddrWord_fields s, scaleWord_fields s, metaWord_fields s,
    fun k hk => ⟨?_, ?_, ?_⟩, humWord_fields s, tempWord_fields s, frameHiWord_fields s, by decide⟩
  · exact extractLsb'_four_bytes (o := 0) s.resp (by decide) hk
  · exact extractLsb'_four_bytes (o := 4) s.resp (by decide) hk
  · exact extractLsb'_four_bytes (o := 0) s.b (by decide) hk

end Sys2Proof.Machine
end

section
/-! The opcode table, read from the word (rule R70 to rule R78, rule R81). Settles O3 and O4.
OPC chooses the row (`decode_eq_ok_iff`); a row accepts a word by conditions on its other fields (`decodeRdreg_eq_ok_iff` and
its like); a mask over the word is a mask over each field (`and_mkWord_eq_iff`). -/

namespace Sys2Proof

/-- A word is known by its fields (rule R70). -/
theorem eq_mkWord_iff {w : Word} {o x : BitVec 4} {a b c : Byte} :
    w = mkWord o x a b c ↔ opcOf w = o ∧ auxOf w = x ∧ aOf w = a ∧ bOf w = b ∧ cOf w = c := by
  constructor
  · rintro rfl
    simp
  · rintro ⟨rfl, rfl, rfl, rfl, rfl⟩
    exact (mkWord_fields w).symm

/-- A word lies in a row of the opcode table when each of its fields does. -/
theorem and_mkWord_eq_iff (w : Word) (o x o' x' : BitVec 4) (a b c a' b' c' : Byte) :
    w &&& mkWord o x a b c = mkWord o' x' a' b' c' ↔
      opcOf w &&& o = o' ∧ auxOf w &&& x = x' ∧ aOf w &&& a = a' ∧ bOf w &&& b = b' ∧ cOf w &&& c = c' := by
  have masked : w &&& mkWord o x a b c =
      mkWord (opcOf w &&& o) (auxOf w &&& x) (aOf w &&& a) (bOf w &&& b) (cOf w &&& c) := by
    rw [← Laws.TableRow.mkWord_and, mkWord_fields]
  rw [masked, eq_mkWord_iff, opcOf_mkWord, auxOf_mkWord, aOf_mkWord, bOf_mkWord, cOf_mkWord]

/-! Masks of one field -/

theorem and_0xF (x : BitVec 4) : x &&& 0xF = x := BitVec.and_allOnes

theorem and_0xFF (x : Byte) : x &&& 0xFF = x := BitVec.and_allOnes

theorem and_0x00 (x : Byte) : x &&& 0x00 = 0 := BitVec.and_zero

theorem and_0x8_eq_zero (x : BitVec 4) : x &&& 0x8 = 0 ↔ x.getLsbD 3 = false := by revert x; decide

theorem and_0xC_eq_zero (x : BitVec 4) : x &&& 0xC = 0 ↔ x.extractLsb' 2 2 = 0 := by revert x; decide

theorem and_0x80_eq_zero (x : Byte) : x &&& 0x80 = 0 ↔ x.getLsbD 7 = false := by revert x; decide

theorem and_0xF0_eq_zero (x : Byte) : x &&& 0xF0 = 0 ↔ x.extractLsb' 4 4 = 0 := by revert x; decide

theorem and_0xF8_eq_zero (x : Byte) : x &&& 0xF8 = 0 ↔ x.extractLsb' 3 5 = 0 := by revert x; decide

theorem and_0xFC_eq_zero (x : Byte) : x &&& 0xFC = 0 ↔ x.extractLsb' 2 6 = 0 := by revert x; decide

/-! Where the operands stand in the word -/

/-- A slice of a slice is a slice. -/
theorem extractLsb'_extractLsb' {n a m b k : Nat} (x : BitVec n) (h : b + k ≤ m) :
    (x.extractLsb' a m).extractLsb' b k = x.extractLsb' (a + b) k := by
  ext i hi
  simp [show b + i < m by omega, Nat.add_assoc]

theorem aOf_low (w : Word) {k : Nat} (h : k ≤ 8) : (aOf w).extractLsb' 0 k = w.extractLsb' 16 k :=
  extractLsb'_extractLsb' w (by omega)

theorem bOf_low (w : Word) {k : Nat} (h : k ≤ 8) : (bOf w).extractLsb' 0 k = w.extractLsb' 8 k :=
  extractLsb'_extractLsb' w (by omega)

theorem auxOf_low (w : Word) {k : Nat} (h : k ≤ 4) : (auxOf w).extractLsb' 0 k = w.extractLsb' 24 k :=
  extractLsb'_extractLsb' w (by omega)

theorem auxOf_bit (w : Word) {k : Nat} (h : k < 4) : (auxOf w).getLsbD k = w.getLsbD (24 + k) := by
  simp [auxOf, h]

theorem regOf_eq (w : Word) : regOf w = w.extractLsb' 16 7 := aOf_low w (by decide)

/-! The codes of the operands, read the other way -/

theorem widthOf_eq_iff {x : Bool} {v : Width} : widthOf x = v ↔ x = (v == .two) := by
  cases x <;> cases v <;> decide

theorem byteOrderOf_eq_iff {x : Bool} {o : ByteOrder} : byteOrderOf x = o ↔ x = (o == .le) := by
  cases x <;> cases o <;> decide

theorem signOf_eq_iff {x : Bool} {g : Signedness} : signOf x = g ↔ x = (g == .signed) := by
  cases x <;> cases g <;> decide

theorem convOf_eq_iff {c : BitVec 2} {v : Conv} : convOf c = v ↔ c = v.code :=
  ⟨fun h => by rw [← h, code_convOf], fun h => by rw [h, convOf_code]⟩

theorem slotOf_eq_some_iff {c : BitVec 2} {x : Slot} : slotOf c = some x ↔ c = x.code :=
  ⟨fun h => (code_of_slotOf h).symm, fun h => by rw [h, slotOf_code]⟩

/-! What each row accepts, field by field -/

/-- A decoder that first rejects answers `.ok` only past the rejection. -/
theorem ite_error_eq_ok_iff {p : Prop} [Decidable p] {e : Illegal} {y : Except Illegal Instr} {i : Instr} :
    (if p then .error e else y) = .ok i ↔ ¬p ∧ y = .ok i := by
  split_ifs with h <;> simp [h]

theorem decodeSwrd_eq_ok_iff {w : Word} {i : Instr} :
    decodeSwrd w = .ok i ↔ (auxOf w = 0 ∧ aOf w = 0 ∧ bOf w = 0 ∧ cOf w = 0) ∧ .swrd = i := by
  simp [decodeSwrd, ite_error_eq_ok_iff]

theorem decodeRdreg_eq_ok_iff {w : Word} {i : Instr} :
    decodeRdreg w = .ok i ↔
      ((auxOf w).extractLsb' 2 2 = 0 ∧ (aOf w).getLsbD 7 = false ∧ bOf w = 0 ∧ cOf w = 0) ∧
      .rdreg (regOf w) (widthOf ((auxOf w).getLsbD 1)) ((auxOf w).getLsbD 0) = i := by
  simp [decodeRdreg, ite_error_eq_ok_iff]

theorem decodeXfer_eq_ok_iff {w : Word} {i : Instr} :
    decodeXfer w = .ok i ↔
      ((auxOf w).extractLsb' 2 2 = 0 ∧ (aOf w).extractLsb' 4 4 = 0 ∧ bOf w = 0 ∧ cOf w = 0) ∧
      .xfer ((auxOf w).extractLsb' 0 2) ((aOf w).extractLsb' 0 4) = i ∧
      (auxOf w).extractLsb' 0 2 ≠ 0 ∧ (aOf w).extractLsb' 0 4 ≠ 0 ∧ ((aOf w).extractLsb' 0 4).toNat ≤ 8 := by
  simp only [decodeXfer, ite_error_eq_ok_iff, not_or, ne_eq, not_not, not_lt, Except.ok.injEq]
  tauto

theorem decodeWrreg_eq_ok_iff {w : Word} {i : Instr} :
    decodeWrreg w = .ok i ↔
      (auxOf w = 0 ∧ (aOf w).getLsbD 7 = false ∧ cOf w = 0) ∧ .wrreg (regOf w) (bOf w) = i := by
  simp [decodeWrreg, ite_error_eq_ok_iff]

theorem decodeRmw_eq_ok_iff {w : Word} {i : Instr} :
    decodeRmw w = .ok i ↔
      ((auxOf w).extractLsb' 2 2 = 0 ∧ (aOf w).getLsbD 7 = false) ∧
      ∃ slot, slotOf ((auxOf w).extractLsb' 0 2) = some slot ∧ .rmw (regOf w) (bOf w) (cOf w) slot = i ∧
        cOf w &&& ~~~(bOf w) = 0 := by
  unfold decodeRmw
  cases slotOf ((auxOf w).extractLsb' 0 2) with
  | none => simp [ite_error_eq_ok_iff]
  | some slot =>
    simp only [ite_error_eq_ok_iff, not_or, ne_eq, not_not, Bool.not_eq_true, Except.ok.injEq, Option.some.injEq,
      exists_eq_left']
    tauto

theorem decodeUnpk_eq_ok_iff {w : Word} {i : Instr} :
    decodeUnpk w = .ok i ↔
      ((auxOf w).getLsbD 3 = false ∧ (aOf w).extractLsb' 3 5 = 0 ∧ (bOf w).extractLsb' 2 6 = 0 ∧ cOf w = 0) ∧
      .unpk ((aOf w).extractLsb' 0 3) (widthOf ((auxOf w).getLsbD 2)) (byteOrderOf ((auxOf w).getLsbD 1))
        (signOf ((auxOf w).getLsbD 0)) (convOf ((bOf w).extractLsb' 0 2)) = i ∧
      ((auxOf w).getLsbD 2 = false → (auxOf w).getLsbD 1 = false) := by
  simp only [decodeUnpk, ite_error_eq_ok_iff, not_or, ne_eq, not_not, not_and, Bool.not_eq_true, Except.ok.injEq]
  tauto

theorem decodeIdchk_eq_ok_iff {w : Word} {i : Instr} :
    decodeIdchk w = .ok i ↔
      (auxOf w = 0 ∧ (aOf w).getLsbD 7 = false ∧ cOf w = 0) ∧ .idchk (regOf w) (bOf w) = i := by
  simp [decodeIdchk, ite_error_eq_ok_iff]

/-- OPC of a command's row in the opcode table. -/
def rowOpcode : Instr → BitVec 4
  | .swrd => 1
  | .rdreg .. => 2
  | .xfer .. => 3
  | .wrreg .. => 4
  | .rmw .. => 5
  | .unpk .. => 6
  | .idchk .. => 7

/-- The decoder of a command's row. -/
def rowDecoder : Instr → Word → Except Illegal Instr
  | .swrd => decodeSwrd
  | .rdreg .. => decodeRdreg
  | .xfer .. => decodeXfer
  | .wrreg .. => decodeWrreg
  | .rmw .. => decodeRmw
  | .unpk .. => decodeUnpk
  | .idchk .. => decodeIdchk

/-- OPC chooses the row, and each row answers commands of its own kind only (rule R71). -/
theorem decode_eq_ok_iff {w : Word} {i : Instr} :
    decode w = .ok i ↔ opcOf w = rowOpcode i ∧ rowDecoder i w = .ok i := by
  unfold decode
  split_ifs <;> cases i <;>
    simp only [rowOpcode, rowDecoder, decodeSwrd_eq_ok_iff, decodeRdreg_eq_ok_iff, decodeXfer_eq_ok_iff,
      decodeWrreg_eq_ok_iff, decodeRmw_eq_ok_iff, decodeUnpk_eq_ok_iff, decodeIdchk_eq_ok_iff, reduceCtorEq, and_false,
      exists_false, false_and, true_and, *] <;> simp

/-- OPC 0 and 8 to 15 choose no row (rule R81). -/
theorem decode_reservedOpcode {w : Word} (h : (opcOf w).toNat = 0 ∨ 8 ≤ (opcOf w).toNat) :
    decode w = .error .reservedOpcode := by
  have apart : ∀ o : BitVec 4, o.toNat = 0 ∨ 8 ≤ o.toNat →
      o ≠ 1 ∧ o ≠ 2 ∧ o ≠ 3 ∧ o ≠ 4 ∧ o ≠ 5 ∧ o ≠ 6 ∧ o ≠ 7 := by decide
  obtain ⟨h1, h2, h3, h4, h5, h6, h7⟩ := apart _ h
  simp only [decode, if_neg, h1, h2, h3, h4, h5, h6, h7, not_false_eq_true]

/-! The rows, from the word: `row` reads mask and match field by field, then the operand fields are sought in the word -/

theorem decode_eq_swrd_iff (w : Word) : decode w = .ok .swrd ↔ w = 0x10000000 := by
  have row : w = 0x10000000 ↔ _ := eq_mkWord_iff (o := 1) (x := 0) (a := 0) (b := 0) (c := 0)
  rw [decode_eq_ok_iff, rowOpcode, rowDecoder, decodeSwrd_eq_ok_iff, row]
  simp only [and_true]

theorem decode_eq_rdreg_iff (w : Word) (reg : RegAddr) (v : Width) (inc : Bool) :
    decode w = .ok (.rdreg reg v inc) ↔
      w &&& 0xFC80FFFF = 0x20000000 ∧ w.extractLsb' 16 7 = reg ∧ w.getLsbD 25 = (v == .two) ∧ w.getLsbD 24 = inc := by
  have row : w &&& 0xFC80FFFF = 0x20000000 ↔ _ := and_mkWord_eq_iff w 0xF 0xC 2 0 0x80 0xFF 0xFF 0 0 0
  rw [decode_eq_ok_iff, rowOpcode, rowDecoder, decodeRdreg_eq_ok_iff, row]
  simp (disch := decide) only [and_0xF, and_0xFF, and_0xC_eq_zero, and_0x80_eq_zero, and_assoc, Instr.rdreg.injEq,
    widthOf_eq_iff, regOf_eq, auxOf_bit]

theorem decode_eq_xfer_iff (w : Word) (nreq : BitVec 2) (nresp : BitVec 4) :
    decode w = .ok (.xfer nreq nresp) ↔
      w &&& 0xFCF0FFFF = 0x30000000 ∧ w.extractLsb' 24 2 = nreq ∧ w.extractLsb' 16 4 = nresp ∧
      1 ≤ nreq.toNat ∧ 1 ≤ nresp.toNat ∧ nresp.toNat ≤ 8 := by
  have row : w &&& 0xFCF0FFFF = 0x30000000 ↔ _ := and_mkWord_eq_iff w 0xF 0xC 3 0 0xF0 0xFF 0xFF 0 0 0
  rw [decode_eq_ok_iff, rowOpcode, rowDecoder, decodeXfer_eq_ok_iff, row]
  simp (disch := decide) only [and_0xF, and_0xFF, and_0xC_eq_zero, and_0xF0_eq_zero, and_assoc, Instr.xfer.injEq,
    auxOf_low, aOf_low, and_congr_right_iff]
  rintro - - - - - rfl rfl
  simp only [BitVec.toNat_ne, Nat.one_le_iff_ne_zero, BitVec.ofNat_eq_ofNat, BitVec.toNat_ofNat, Nat.zero_mod]

theorem decode_eq_wrreg_iff (w : Word) (reg : RegAddr) (value : Byte) :
    decode w = .ok (.wrreg reg value) ↔
      w &&& 0xFF8000FF = 0x40000000 ∧ w.extractLsb' 16 7 = reg ∧ w.extractLsb' 8 8 = value := by
  have row : w &&& 0xFF8000FF = 0x40000000 ↔ _ := and_mkWord_eq_iff w 0xF 0xF 4 0 0x80 0x00 0xFF 0 0 0
  rw [decode_eq_ok_iff, rowOpcode, rowDecoder, decodeWrreg_eq_ok_iff, row]
  simp (disch := decide) only [and_0xF, and_0xFF, and_0x80_eq_zero, and_0x00, true_and, and_assoc, Instr.wrreg.injEq,
    regOf_eq, bOf]

theorem decode_eq_rmw_iff (w : Word) (reg : RegAddr) (mask bits : Byte) (slot : Slot) :
    decode w = .ok (.rmw reg mask bits slot) ↔
      w &&& 0xFC800000 = 0x50000000 ∧ w.extractLsb' 16 7 = reg ∧ w.extractLsb' 8 8 = mask ∧ w.extractLsb' 0 8 = bits ∧
      w.extractLsb' 24 2 = slot.code ∧ bits &&& ~~~mask = 0 := by
  have row : w &&& 0xFC800000 = 0x50000000 ↔ _ := and_mkWord_eq_iff w 0xF 0xC 5 0 0x80 0x00 0x00 0 0 0
  rw [decode_eq_ok_iff, rowOpcode, rowDecoder, decodeRmw_eq_ok_iff, row]
  simp (disch := decide) only [and_0xF, and_0xC_eq_zero, and_0x80_eq_zero, and_0x00, true_and, and_assoc,
    Instr.rmw.injEq, regOf_eq, auxOf_low, slotOf_eq_some_iff, bOf, cOf, and_congr_right_iff]
  rintro - - -
  constructor
  · rintro ⟨_, hs, rfl, rfl, rfl, rfl, hc⟩
    exact ⟨rfl, rfl, rfl, hs, hc⟩
  · rintro ⟨rfl, rfl, rfl, hs, hc⟩
    exact ⟨slot, hs, rfl, rfl, rfl, rfl, hc⟩

theorem decode_eq_unpk_iff (w : Word) (off : BitVec 3) (v : Width) (order : ByteOrder) (sign : Signedness) (conv : Conv) :
    decode w = .ok (.unpk off v order sign conv) ↔
      w &&& 0xF8F8FCFF = 0x60000000 ∧ w.extractLsb' 16 3 = off ∧ w.getLsbD 26 = (v == .two) ∧
      w.getLsbD 25 = (order == .le) ∧ w.getLsbD 24 = (sign == .signed) ∧ w.extractLsb' 8 2 = conv.code ∧
      (v = .one → order = .be) := by
  have row : w &&& 0xF8F8FCFF = 0x60000000 ↔ _ := and_mkWord_eq_iff w 0xF 0x8 6 0 0xF8 0xFC 0xFF 0 0 0
  rw [decode_eq_ok_iff, rowOpcode, rowDecoder, decodeUnpk_eq_ok_iff, row]
  simp (disch := decide) only [and_0xF, and_0xFF, and_0x8_eq_zero, and_0xF8_eq_zero, and_0xFC_eq_zero, and_assoc,
    Instr.unpk.injEq, aOf_low, bOf_low, auxOf_bit, widthOf_eq_iff, byteOrderOf_eq_iff, signOf_eq_iff, convOf_eq_iff,
    and_congr_right_iff]
  rintro - - - - - - hw ho - -
  rw [hw, ho]
  cases v <;> cases order <;> simp

theorem decode_eq_idchk_iff (w : Word) (reg : RegAddr) (expect : Byte) :
    decode w = .ok (.idchk reg expect) ↔
      w &&& 0xFF8000FF = 0x70000000 ∧ w.extractLsb' 16 7 = reg ∧ w.extractLsb' 8 8 = expect := by
  have row : w &&& 0xFF8000FF = 0x70000000 ↔ _ := and_mkWord_eq_iff w 0xF 0xF 7 0 0x80 0x00 0xFF 0 0 0
  rw [decode_eq_ok_iff, rowOpcode, rowDecoder, decodeIdchk_eq_ok_iff, row]
  simp (disch := decide) only [and_0xF, and_0xFF, and_0x80_eq_zero, and_0x00, true_and, and_assoc, Instr.idchk.injEq,
    regOf_eq, bOf]

/-- Settles O3, a lemma per row. -/
theorem opcodeTableRowsAreExact : Obligations.OpcodeTableRowsAreExact :=
  fun w => ⟨decode_eq_swrd_iff w, decode_eq_rdreg_iff w, decode_eq_xfer_iff w, decode_eq_wrreg_iff w, decode_eq_rmw_iff w,
    decode_eq_unpk_iff w, decode_eq_idchk_iff w⟩

end Sys2Proof

namespace Sys2Proof.Machine

/-- A write to CMD of an idle block is an accept (rule R26). -/
theorem step_writeCmd_of_idle {s : State} {w : Word} {rest : List Input} (hp : s.phase = .idle)
    (hi : s.inputs = .write 0 w :: rest) : step s = accept w { s with inputs := rest } := by
  rw [step_input hi]
  exact if_neg (by simp [hp])

/-- An idle block refuses a word that decodes to no command (rule R164). -/
theorem step_illegalWord {s : State} {w : Word} {rest : List Input} {e : Illegal} (hd : decode w = .error e)
    (hp : s.phase = .idle) (hi : s.inputs = .write 0 w :: rest) :
    step s = .next { s with inputs := rest, cmd := w, done := true, err := .illcmd } := by
  rw [step_writeCmd_of_idle hp hi]
  obtain ⟨i, hi, -⟩ | ⟨_, -, ha⟩ := accept_cases w { s with inputs := rest }
  · rw [hd] at hi
    cases hi
  · exact ha

/-- Settles O4: no row has such an OPC, and a word of no row is refused. -/
theorem reservedOpcodesAreRefused : Obligations.ReservedOpcodesAreRefused :=
  ⟨fun _ _ _ ho hp hi => step_illegalWord (decode_reservedOpcode ho) hp hi, by decide, rfl⟩

end Sys2Proof.Machine
end

section
/-! The words of RDREG, XFER and IDCHK decode to the commands they stand for (rule R73, rule R74, rule R78). -/

namespace Sys2Proof

theorem decode_encode_rdreg (reg : RegAddr) (v : Width) (inc : Bool) :
    decode (encode (.rdreg reg v inc)) = .ok (.rdreg reg v inc) := by
  refine (decode_eq_rdreg_iff _ reg v inc).mpr ⟨Laws.TableRow.rdreg reg v inc, ?_, ?_, ?_⟩
  · rw [← regOf_eq, regOf, encode, aOf_mkWord, regField_low]
  · rw [← auxOf_bit _ (k := 1) (by decide), encode, auxOf_mkWord]
    cases v <;> cases inc <;> rfl
  · rw [← auxOf_bit _ (k := 0) (by decide), encode, auxOf_mkWord]
    cases v <;> cases inc <;> rfl

/-- XFER's operands decode back when both counts are in range; its counts are looked at in the order NREQ, NRESP. -/
theorem decode_encode_xfer (nreq : BitVec 2) (nresp : BitVec 4) :
    decode (encode (.xfer nreq nresp)) =
      if nreq = 0 then .error .requestCount
      else if nresp = 0 ∨ 8 < nresp.toNat then .error .responseCount else .ok (.xfer nreq nresp) := by
  have haux : ∀ x : BitVec 2, (0#2 ++ x : BitVec 4).extractLsb' 2 2 = 0 ∧ (0#2 ++ x : BitVec 4).extractLsb' 0 2 = x := by
    decide
  have ha : ∀ x : BitVec 4, (0#4 ++ x : Byte).extractLsb' 4 4 = 0 ∧ (0#4 ++ x : Byte).extractLsb' 0 4 = x := by decide
  simp [decode, decodeXfer, encode, haux, ha]

theorem wellFormed_xfer_iff {nreq : BitVec 2} {nresp : BitVec 4} :
    (Instr.xfer nreq nresp).wellFormed = true ↔ nreq ≠ 0 ∧ nresp ≠ 0 ∧ nresp.toNat ≤ 8 := by
  simp only [Instr.wellFormed, Bool.and_eq_true, bne_iff_ne, decide_eq_true_eq, and_assoc]

theorem decode_encode_idchk (reg : RegAddr) (expect : Byte) :
    decode (encode (.idchk reg expect)) = .ok (.idchk reg expect) := by
  refine (decode_eq_idchk_iff _ reg expect).mpr ⟨Laws.TableRow.idchk reg expect, ?_, ?_⟩
  · rw [← regOf_eq, regOf, encode, aOf_mkWord, regField_low]
  · exact bOf_mkWord 7 0 (regField reg) expect 0

end Sys2Proof
end

section
/-! Whole commands of the engine, from the CMD write to completion (rule R26, rule R51, rule R130, rule R131, rule R134).
Settles O28, O29 and O32. `run_accept` and `run_accept_next` run any command's first two steps, and `transact_complete` says
what the answer to a command's last request does. -/

namespace Sys2Proof.Machine

/-- The first step of a command, its accept (rule R26). -/
theorem run_accept {s t : State} {w : Word} {i : Instr} (hd : decode w = .ok i) (hp : s.phase = .idle)
    (hi : s.inputs = [.write 0 w]) (ht : exec i (acceptWord w { s with inputs := [] }) = .next t) :
    run 1 s = .next t := by
  refine (run_succ_of_next ?_).trans (run_zero t)
  rw [step_writeCmd_of_idle hp hi, ← ht]
  simp only [accept, hd]

/-- A running command whose host is silent makes its next step (rule R120, rule R147). -/
theorem step_running {s : State} {i : Instr} (hd : decode s.cmd = .ok i) (hp : s.phase ≠ .idle) (hi : s.inputs = []) :
    step s = exec i s := by
  rw [step_noInput hi]
  simp only [sequencerStep, if_neg hp, hd]

/-- The accept and the step after it. -/
theorem run_accept_next {s t u : State} {w : Word} {i : Instr} (hd : decode w = .ok i) (hp : s.phase = .idle)
    (hi : s.inputs = [.write 0 w]) (ht : exec i (acceptWord w { s with inputs := [] }) = .next t) (hb : t.phase ≠ .idle)
    (hu : exec i t = .next u) : run 2 s = .next u := by
  have hside := exec_hostSide ht
  have hcmd : t.cmd = w := congrArg HostSide.cmd hside
  have hin : t.inputs = [] := congrArg HostSide.inputs hside
  rw [run_add (m := 1) (n := 1) (run_accept hd hp hi ht)]
  exact run_succ_of_next ((step_running (hcmd ▸ hd) hb hin).trans hu)

/-- The answer to a command's last request: `Fail` ends it with BusError, `Ok` completes it after `k` (rule R160). -/
theorem transact_complete {r : Request} {k : BitVec 64 → State → State} {s : State} {a : Config.BusAnswer}
    {rest : List Config.BusAnswer} (hp : s.phase.singleWire = false) (hb : s.bus = a :: rest) :
    transact r (fun d t => complete (k d t)) s =
      .next (if a.fail then { s with bus := rest, out := .transport r :: s.out, err := .bus, done := true, phase := .idle }
        else complete (k a.rdata { s with bus := rest, out := .transport r :: s.out })) := by
  cases hf : a.fail with
  | true =>
    rw [transact_fails hb hf]
    simp [abort, hp]
  | false =>
    rw [transact_answers hb hf]
    simp

theorem requestByte_eq (reg : RegAddr) (inc : Bool) :
    requestByte reg inc = if inc then reg.setWidth 8 ||| 0x80 else reg.setWidth 8 := by
  revert reg inc
  decide

theorem widthBytes_eq (v : Width) : widthBytes v = if v = .two then 2 else 1 := by
  cases v <;> rfl

/-- An answer stored in a cleared RESP leaves zeros beyond its bytes (rule R22). -/
theorem fillResp_zeros (m : Nat) (d : BitVec 64) :
    fillResp m d (Vector.replicate 8 0) = Vector.ofFn fun k => if k.val < m then d.extractLsb' (8 * k.val) 8 else 0 := by
  simp [fillResp, answerByte]

/-- A command that reads once: its accept leaves it in RC_RD, and the answer to its request ends it. -/
theorem run_readCommand {s t : State} {i : Instr} {r : Request} {k : BitVec 64 → State → State} {a : Config.BusAnswer}
    {rest : List Config.BusAnswer} (hd : decode (encode i) = .ok i) (hp : s.phase = .idle)
    (hi : s.inputs = [.write 0 (encode i)]) (ht : exec i (acceptWord (encode i) { s with inputs := [] }) = .next t)
    (htp : t.phase = .rcRd) (hb : t.bus = a :: rest)
    (hx : exec i t = transact r (fun d u => complete (k d u)) t) :
    run 1 s = .next t ∧
    run 2 s = .next
      (if a.fail then { t with bus := rest, out := .transport r :: t.out, err := .bus, done := true, phase := .idle }
        else complete (k a.rdata { t with bus := rest, out := .transport r :: t.out })) := by
  refine ⟨run_accept hd hp hi ht, run_accept_next hd hp hi ht (by simp [htp]) ?_⟩
  rw [hx]
  exact transact_complete (by simp [htp, Phase.singleWire]) hb

theorem execRdreg_idle {s : State} (hp : s.phase = .idle) (reg : RegAddr) (v : Width) (inc : Bool) :
    exec (.rdreg reg v inc) s = .next (beginRead s) := by
  simp only [exec, execRdreg, hp]

theorem execXfer_idle {s : State} (hp : s.phase = .idle) {nreq : BitVec 2} {nresp : BitVec 4}
    (hw : (Instr.xfer nreq nresp).wellFormed = true) : exec (.xfer nreq nresp) s = .next (beginRead s) := by
  simp only [exec, execXfer, hp, hw, startIf, if_true]

theorem execIdchk_idle {s : State} (hp : s.phase = .idle) (reg : RegAddr) (expect : Byte) :
    exec (.idchk reg expect) s = .next { beginRead s with idok := false } := by
  simp only [exec, execIdchk, hp]

/-- RDREG and XFER differ only in the request: the accept clears RESP and RLEN, and the answer's first m bytes are the new
RESP (rule R22, rule R130, rule R131). -/
theorem run_storeCommand {s : State} {i : Instr} {r : Request} {m : Nat} {a : Config.BusAnswer}
    {rest : List Config.BusAnswer} (hd : decode (encode i) = .ok i) (hp : s.phase = .idle)
    (hi : s.inputs = [.write 0 (encode i)]) (hb : s.bus = a :: rest)
    (ht : ∀ u, u.phase = .idle → exec i u = .next (beginRead u))
    (hx : ∀ u, u.phase = .rcRd → u.devAddr = s.devAddr → u.arg = s.arg →
      exec i u = transact r (fun d v => complete (storeResponse m d v)) u) :
    run 1 s = .next
      { s with
        inputs := [], cmd := encode i, done := false, err := .none, resp := Vector.replicate 8 0, rlen := 0
        phase := .rcRd } ∧
    run 2 s = .next
      { s with
        inputs := [], bus := rest, cmd := encode i, done := true, err := if a.fail then .bus else .none
        resp := if a.fail then Vector.replicate 8 0
          else Vector.ofFn fun k => if k.val < m then a.rdata.extractLsb' (8 * k.val) 8 else 0
        rlen := if a.fail then 0 else BitVec.ofNat 4 m
        out := .transport r :: s.out } := by
  obtain ⟨h1, h2⟩ := run_readCommand hd hp hi (ht (acceptWord (encode i) { s with inputs := [] }) hp) rfl hb
    (hx _ rfl rfl rfl)
  refine ⟨h1, h2.trans ?_⟩
  rw [hp]
  cases a.fail
  · rw [← fillResp_zeros]
    rfl
  · rfl

/-- Settles O28, by `run_storeCommand`. -/
theorem rdregWholeCommand : Obligations.RdregWholeCommand := by
  intro s reg v inc a rest hp hi hb
  refine run_storeCommand (decode_encode_rdreg reg v inc) hp hi hb (fun u hu => execRdreg_idle hu reg v inc) ?_
  intro u hu ha _
  rw [← widthBytes_eq, ← requestByte_eq, ← ha]
  simp only [exec, execRdreg, hu, rdregRequest]

/-- XFER with a count out of range is refused, and then the idle block stays put (rule R164, rule R192). -/
theorem run_illegalXfer {s : State} {nreq : BitVec 2} {nresp : BitVec 4} (h : nreq = 0 ∨ nresp = 0 ∨ 8 < nresp.toNat)
    (hp : s.phase = .idle) (hi : s.inputs = [.write 0 (encode (.xfer nreq nresp))]) :
    run 2 s = .next { s with inputs := [], cmd := encode (.xfer nreq nresp), done := true, err := .illcmd } := by
  obtain ⟨e, he⟩ : ∃ e, decode (encode (.xfer nreq nresp)) = .error e := by
    rw [decode_encode_xfer]
    split_ifs with h1 h2
    · exact ⟨_, rfl⟩
    · exact ⟨_, rfl⟩
    · exact absurd (h.resolve_left h1) h2
  rw [run_succ_of_next (step_illegalWord he hp hi)]
  refine run_succ_of_next ((step_noInput rfl).trans ?_)
  exact if_pos hp

/-- Settles O29: a legal XFER by `run_storeCommand`, the refusal by `run_illegalXfer`, and the first byte of ARG alone is
RDREG's request. -/
theorem xferWholeCommand : Obligations.XferWholeCommand := by
  refine ⟨fun s nreq nresp a rest hq hr h8 hp hi hb => ?_, fun s nreq nresp h hp hi => run_illegalXfer h hp hi,
    fun addr arg reg v inc h => ?_⟩
  · have hd : decode (encode (.xfer nreq nresp)) = .ok (.xfer nreq nresp) := by
      rw [decode_encode_xfer, if_neg hq, if_neg (not_or.mpr ⟨hr, not_lt.mpr h8⟩)]
    have hw : (Instr.xfer nreq nresp).wellFormed = true := wellFormed_xfer_iff.mpr ⟨hq, hr, h8⟩
    have run := run_storeCommand (r := xferRequest s.devAddr s.arg nreq nresp) (m := nresp.toNat) hd hp hi hb
      (fun u hu => execXfer_idle hu hw) (fun u hu ha harg => by simp only [exec, execXfer, hu, ha, harg])
    rwa [BitVec.ofNat_toNat, BitVec.setWidth_eq] at run
  · have hm : (BitVec.ofNat 4 (widthBytes v)).toNat = widthBytes v := by cases v <;> rfl
    rw [xferRequest, rdregRequest, hm, ← h]
    rfl

/-- Settles O32, by `run_readCommand`; a byte that differs from the expected one leaves IDOK 0 and is no error. -/
theorem idchkWholeCommand : Obligations.IdchkWholeCommand := by
  intro s reg expect a rest hp hi hb
  obtain ⟨h1, h2⟩ := run_readCommand (r := readRequest s.devAddr reg) (k := idchkJudge expect)
    (decode_encode_idchk reg expect) hp hi
    (execIdchk_idle (s := acceptWord _ { s with inputs := [] }) hp reg expect) rfl hb rfl
  refine ⟨h1, h2.trans ?_⟩
  have hr : readRequest s.devAddr reg = .writeThenRead s.devAddr [reg.setWidth 8] 1 := by
    rw [readRequest, requestByte_eq]
    rfl
  rw [hr, hp]
  cases a.fail
  · simp only [true_and]
    rfl
  · rfl

end Sys2Proof.Machine
end

section
/-! UNPK and `Assemble` (rule R77, rule R135, rule R136). Settles O33 and O34. -/

namespace Sys2Proof.Machine

/-- When UNPK is legal: the bytes asked for have been received, and one byte has no order (rule R77). -/
theorem unpk_legal_iff {rlen : BitVec 4} (h8 : rlen.toNat ≤ 8) (off : BitVec 3) (v : Width) (order : ByteOrder)
    (sign : Signedness) (conv : Conv) :
    ((Instr.unpk off v order sign conv).wellFormed && unpackInRange off v rlen) = true ↔
      off.toNat + widthBytes v ≤ rlen.toNat ∧ (v = .two ∨ order = .be) := by
  simp only [Instr.wellFormed, unpackInRange, Bool.and_eq_true, Bool.or_eq_true, beq_iff_eq, decide_eq_true_eq]
  constructor
  · rintro ⟨ho, hr, -⟩
    exact ⟨hr, ho⟩
  · rintro ⟨hr, ho⟩
    exact ⟨ho, hr, hr.trans h8⟩

theorem divisorOf_eq (conv : Conv) (s1 s2 : Byte) :
    divisorOf conv s1 s2 = if conv = .sc1 then s1 else if conv = .sc2 then s2 else 0 := by
  cases conv <;> rfl

theorem execUnpk_idle {s : State} (hp : s.phase = .idle) (off : BitVec 3) (v : Width) (order : ByteOrder)
    (sign : Signedness) (conv : Conv) :
    exec (.unpk off v order sign conv) s =
      startIf ((Instr.unpk off v order sign conv).wellFormed && unpackInRange off v s.rlen)
        (unpack off v order sign conv) s := by
  simp only [exec, execUnpk, hp]

/-- Settles O33: UNPK starts or is refused as `unpk_legal_iff` says, and its start is all of it. -/
theorem unpkExecutes : Obligations.UnpkExecutes := by
  intro s off v order sign conv hp h8
  rw [← widthBytes_eq, execUnpk_idle hp]
  have legal := unpk_legal_iff h8 off v order sign conv
  refine ⟨fun hr ho => ?_, fun h => ?_⟩
  · rw [legal.mpr ⟨hr, ho⟩, ← divisorOf_eq]
    rfl
  · have hn : ¬(off.toNat + widthBytes v ≤ s.rlen.toNat ∧ (v = .two ∨ order = .be)) := by
      rintro ⟨hr, ho⟩
      obtain hlt | ⟨rfl, rfl⟩ := h
      · exact absurd hr (not_le.mpr hlt)
      · simp at ho
    rw [Bool.eq_false_iff.mpr (mt legal.mp hn)]
    rfl

/-- Two bytes side by side as an unsigned integer. -/
theorem toNat_append_bytes (x y : Byte) : (x ++ y).toNat = 256 * x.toNat + y.toNat := by
  rw [BitVec.toNat_append, ← Nat.shiftLeft_add_eq_or_of_lt y.isLt, Nat.shiftLeft_eq, Nat.mul_comm]

/-- The two's-complement reading is the unsigned one less 2^w when the top bit is set. -/
theorem toInt_eq_toNat_sub {w : Nat} (x : BitVec w) : x.toInt = (x.toNat : Int) - (if x.msb then 2 ^ w else 0) := by
  rw [BitVec.toInt_eq_msb_cond]
  split_ifs <;> simp

/-- Two bytes side by side, sign-extended, as an integer. -/
theorem toInt_signExtend_append_bytes (x y : Byte) :
    ((x ++ y).signExtend 32).toInt = 256 * (x.toNat : Int) + y.toNat - (if x.getLsbD 7 then 65536 else 0) := by
  rw [BitVec.toInt_signExtend_of_le (by decide), toInt_eq_toNat_sub, toNat_append_bytes, BitVec.msb_append]
  simp [BitVec.msb_eq_getLsbD_last]

/-- Settles O34: extension to 32 bits keeps the integer, unsigned or signed, of the bytes side by side. -/
theorem assembleGivesTheInteger : Obligations.AssembleGivesTheInteger := by
  intro x y order
  refine ⟨?_, ?_, ?_, ?_, ?_, ?_⟩
  · exact BitVec.toNat_setWidth_of_le (by decide)
  · rw [assemble, BitVec.toInt_signExtend_of_le (by decide), toInt_eq_toNat_sub]
    rfl
  · exact (BitVec.toNat_setWidth_of_le (by decide)).trans (toNat_append_bytes x y)
  · exact (BitVec.toNat_setWidth_of_le (by decide)).trans (toNat_append_bytes y x)
  · exact toInt_signExtend_append_bytes x y
  · exact toInt_signExtend_append_bytes y x

end Sys2Proof.Machine
end

section
/-! The errors of a command (rule R160, rule R164, rule R167, rule R168): the refusal of an illegal word and its place
among the tests at a CMD write, the order of the tests on one sample, and a transport that fails. Settles O5, O8, O18 and
O37. -/

namespace Sys2Proof.Machine

/-! The tests at a CMD write -/

/-- Only well-formed commands come out of the decoder (rule R82). -/
theorem wellFormed_of_decode {w : Word} {i : Instr} (hd : decode w = .ok i) : i.wellFormed = true := by
  cases i with
  | swrd | rdreg | wrreg | idchk => rfl
  | xfer nreq nresp =>
    obtain ⟨-, -, -, hq, hr, h8⟩ := (decode_eq_xfer_iff w nreq nresp).mp hd
    refine wellFormed_xfer_iff.mpr ⟨?_, ?_, h8⟩
    · rintro rfl
      simp at hq
    · rintro rfl
      simp at hr
  | rmw reg mask bits slot =>
    obtain ⟨-, -, -, -, -, hbits⟩ := (decode_eq_rmw_iff w reg mask bits slot).mp hd
    exact beq_iff_eq.mpr hbits
  | unpk off v order sign conv =>
    obtain ⟨-, -, -, -, -, -, horder⟩ := (decode_eq_unpk_iff w off v order sign conv).mp hd
    cases v with
    | one => simp [Instr.wellFormed, horder rfl]
    | two => rfl

/-- An idle block that receives a legal word makes the first step of its command (rule R26). -/
theorem step_legalWord {s : State} {w : Word} {i : Instr} {rest : List Input} (hd : decode w = .ok i)
    (hp : s.phase = .idle) (hi : s.inputs = .write 0 w :: rest) :
    step s = exec i (acceptWord w { s with inputs := rest }) := by
  rw [step_writeCmd_of_idle hp hi]
  simp only [accept, hd]

/-- UNPK of bytes that have not been received is refused (rule R77). -/
theorem execUnpk_beyond {s : State} (hp : s.phase = .idle) {off : BitVec 3} {v : Width}
    (h : s.rlen.toNat < off.toNat + widthBytes v) (order : ByteOrder) (sign : Signedness) (conv : Conv) :
    exec (.unpk off v order sign conv) s = .next (refuse s) := by
  have hr : unpackInRange off v s.rlen = false := decide_eq_false fun h' => absurd h'.1 (not_le.mpr h)
  rw [execUnpk_idle hp, hr, Bool.and_false]
  rfl

/-- Settles O5: a word of no command by `step_illegalWord`, an UNPK beyond RLEN by `execUnpk_beyond`. -/
theorem illegalCommandIsRefused : Obligations.IllegalCommandIsRefused := by
  intro w s rest hill hp hi
  cases hd : decode w with
  | error e => exact step_illegalWord hd hp hi
  | ok i =>
    obtain ⟨off, v, order, sign, conv, rfl, hlt⟩ := hill i hd
    rw [← widthBytes_eq] at hlt
    rw [step_legalWord hd hp hi]
    exact execUnpk_beyond (s := acceptWord w { s with inputs := rest }) hp hlt order sign conv

theorem execWrreg_idle {s : State} (hp : s.phase = .idle) (reg : RegAddr) (value : Byte) :
    exec (.wrreg reg value) s = .next { s with phase := .rcWr } := by
  simp only [exec, execWrreg, hp]

theorem execRmw_idle {s : State} (hp : s.phase = .idle) {reg : RegAddr} {mask bits : Byte} {slot : Slot}
    (hw : (Instr.rmw reg mask bits slot).wellFormed = true) : exec (.rmw reg mask bits slot) s = .next (beginRead s) := by
  simp only [exec, execRmw, hp, hw, startIf, if_true]

/-- The accept of a well-formed command, and of an UNPK within RLEN: it runs on, or is done (UNPK), without error (rule
R26). -/
theorem exec_starts {i : Instr} {s : State} (hp : s.phase = .idle) (he : s.err = .none) (h8 : s.rlen.toNat ≤ 8)
    (hw : i.wellFormed = true)
    (hr : ∀ off v order sign conv, i = .unpk off v order sign conv → off.toNat + widthBytes v ≤ s.rlen.toNat) :
    ∃ t, exec i s = .next t ∧ t.err = .none ∧ (t.phase ≠ .idle ∨ t.done = true) := by
  cases i with
  | swrd => exact ⟨swrdAccept s, by simp only [exec, execSwrd, hp], he, .inl (by simp)⟩
  | rdreg reg v inc => exact ⟨beginRead s, execRdreg_idle hp reg v inc, he, .inl (by simp)⟩
  | xfer nreq nresp => exact ⟨beginRead s, execXfer_idle hp hw, he, .inl (by simp)⟩
  | wrreg reg value => exact ⟨_, execWrreg_idle hp reg value, he, .inl (by simp)⟩
  | rmw reg mask bits slot => exact ⟨beginRead s, execRmw_idle hp hw, he, .inl (by simp)⟩
  | unpk off v order sign conv =>
    have ho : v = .two ∨ order = .be := by simpa [Instr.wellFormed] using hw
    refine ⟨unpack off v order sign conv s, ?_, rfl, .inr rfl⟩
    rw [execUnpk_idle hp, (unpk_legal_iff h8 off v order sign conv).mpr ⟨hr off v order sign conv rfl, ho⟩]
    rfl
  | idchk reg expect => exact ⟨_, execIdchk_idle hp reg expect, he, .inl (by simp)⟩

/-- Settles O8: busy by `hostWrite_of_busy`, illegal by `illegalCommandIsRefused`, start by `exec_starts`; the accept has
written CMD, and no command writes it. -/
theorem cmdWritePriority : Obligations.CmdWritePriority := by
  intro s w rest hi h8
  refine ⟨fun hp => ?_, fun hp hill => illegalCommandIsRefused w s rest hill hp hi, ?_⟩
  · exact (step_input hi).trans (hostWrite_of_busy (s := { s with inputs := rest }) (.inl rfl) hp w)
  · rintro hp ⟨i, hd, hr⟩
    simp only [← widthBytes_eq] at hr
    obtain ⟨t, ht, he, hrun⟩ :=
      exec_starts (s := acceptWord w { s with inputs := rest }) hp rfl h8 (wellFormed_of_decode hd) hr
    exact ⟨t, (step_legalWord hd hp hi).trans ht, congrArg HostSide.cmd (exec_hostSide ht), he, hrun⟩

/-! The tests on one sample -/

section
variable {l : Bool} {s : State} (k : State → Result)

theorem measureStep_fault (hf : (pinAnswer s).fault = true) :
    measureStep l k s = .next (abort .pin (pinSample s)) := if_pos hf

theorem measureStep_edge (hf : (pinAnswer s).fault = false) (hl : (pinAnswer s).level ≠ l) :
    measureStep l k s = k (pinSample s) := by
  simp [measureStep, hf, hl]

theorem measureStep_timeout (hf : (pinAnswer s).fault = false) (hl : (pinAnswer s).level = l)
    (hc : s.cnt + 1 = s.params.budget) : measureStep l k s = .next (abort .timeout (wait 1 (pinSample s))) := by
  simp [measureStep, hf, hl, hc]

theorem measureStep_counts (hf : (pinAnswer s).fault = false) (hl : (pinAnswer s).level = l)
    (hc : s.cnt + 1 < s.params.budget) :
    measureStep l k s = .next { wait 1 (pinSample s) with cnt := s.cnt + 1 } := by
  simp [measureStep, hf, hl, hc]

end

/-- The end of one of the forty data bits leaves the high measurement; the only error it can raise is CrcError, at the
last bit (rule R113, rule R120). -/
theorem dataEnds_leaves {s : State} (hp : s.phase = .datH) (he : s.err = .none) (hb : s.bitcnt.toNat < 40) :
    ∃ t, dataEnds s = .next t ∧ (t.err = .none ∨ t.err = .crc) ∧ t.phase ≠ s.phase := by
  rw [hp]
  obtain ⟨-, hd⟩ | ⟨-, hd⟩ | ⟨h39, -⟩ := dataEnds_cases (rfl : dataEnds s = _)
  · exact ⟨_, hd, .inl he, by simp⟩
  · obtain ⟨-, hf⟩ | ⟨-, hf⟩ := finish_cases (shiftBit s) <;> rw [hf] at hd
    · exact ⟨_, hd, .inl rfl, by simp⟩
    · exact ⟨_, hd, .inr (abort_err .crc _), by simp⟩
  · omega

/-- A measuring phase is one row of rule R120, a measurement at the phase's level; its edge leaves the phase, neither with
PinError nor with Timeout. -/
theorem execSwrd_measuring {s : State} {l : Bool}
    (h : (s.phase = .ackL ∨ s.phase = .datL) ∧ l = false ∨ (s.phase = .ackH ∨ s.phase = .datH) ∧ l = true)
    (he : s.err = .none) (hb : s.bitcnt.toNat < 40) :
    ∃ k, exec .swrd s = measureStep l k s ∧
      ∃ t, k (pinSample s) = .next t ∧ (t.err = .none ∨ t.err = .crc) ∧ t.phase ≠ s.phase := by
  obtain ⟨hp | hp, rfl⟩ | ⟨hp | hp, rfl⟩ := h
  · exact ⟨lowEnds .ackH, by simp only [exec, execSwrd, hp], _, rfl, .inl he, by simp [hp]⟩
  · exact ⟨lowEnds .datH, by simp only [exec, execSwrd, hp], _, rfl, .inl he, by simp [hp]⟩
  · exact ⟨ackEnds, by simp only [exec, execSwrd, hp], _, rfl, .inl he, by simp [hp]⟩
  · exact ⟨dataEnds, by simp only [exec, execSwrd, hp], dataEnds_leaves (s := pinSample s) hp he hb⟩

/-- Settles O18: `execSwrd_measuring` finds the measurement, and the four lemmas on `measureStep` say what it does. -/
theorem sampleTestOrder : Obligations.SampleTestOrder := by
  intro s he l hphase hb _
  obtain ⟨k, hx, t, ht, herr, hleft⟩ := execSwrd_measuring hphase he hb
  rw [hx]
  refine ⟨fun hf => ?_, fun hf hl => ?_, fun hf hl hc => ?_, fun hf hl hc => ?_⟩
  · exact ⟨_, measureStep_fault k hf, by simp⟩
  · refine ⟨t, (measureStep_edge k hf hl).trans ht, ?_, ?_, hleft⟩ <;> obtain h | h := herr <;> simp [h]
  · exact ⟨_, measureStep_timeout k hf hl hc, by simp⟩
  · exact ⟨_, measureStep_counts k hf hl hc, he, rfl, rfl⟩

/-! A transport that fails -/

/-- Whatever the command would do with an answer, `Fail` outside the single-wire phases only ends it with BusError, the
answer taken and the request recorded (rule R160, rule R170). -/
theorem transact_busError {s : State} {a : Config.BusAnswer} {rest : List Config.BusAnswer}
    (hp : s.phase.singleWire = false) (hb : s.bus = a :: rest) (hf : a.fail = true) (r : Request)
    (k : BitVec 64 → State → State) :
    transact r k s =
      .next { s with bus := rest, err := .bus, done := true, phase := .idle, out := .transport r :: s.out } := by
  rw [transact_fails hb hf]
  simp [abort, hp]

/-- Settles O37: each command of the phase makes one `transact`, which ends as `transact_busError` says; RLEN is the
invariant's. -/
theorem transportFailureIsBusError : Obligations.TransportFailureIsBusError := by
  intro s a rest hb hf
  refine ⟨fun hp => ?_, fun hp => ?_, fun reg mask bits slot hinv hd => ?_⟩
  · have failed := transact_busError (by simp [hp, Phase.singleWire]) hb hf
    refine ⟨fun reg v inc => ?_, fun nreq nresp => ?_, fun reg mask bits slot => ?_, fun reg expect => ?_⟩
    · simp only [exec, execRdreg, hp, failed]
    · simp only [exec, execXfer, hp, failed]
    · simp only [exec, execRmw, hp, failed]
    · simp only [exec, execIdchk, hp, failed]
  · have failed := transact_busError (by simp [hp, Phase.singleWire]) hb hf
    refine ⟨fun reg value => ?_, fun reg mask bits slot => ?_⟩
    · simp only [exec, execWrreg, hp, failed]
    · simp only [exec, execRmw, hp, failed]
  · exact ⟨hinv.reading, fun hp => (hinv.writing reg mask bits slot hp hd).1⟩

end Sys2Proof.Machine
end

section
/-! The state after reset (rule R191). Settles O13. -/

namespace Sys2Proof.Machine

/-- After reset the host reads 0 at every word address, the last field of O12 (rule R191). -/
theorem hostRead_reset (a : HostAddr) : hostRead a State.reset = 0 := by
  obtain ⟨-, -, -, -, -, -, -, -, -, -, -, readsZero⟩ := registerMapFields State.reset
  exact readsZero a

/-- Settles O13: `State.reset` writes out each element's value, and STATUS, which is put together from them, is one of the
words `hostRead_reset` says read 0. -/
theorem resetValues : Obligations.ResetValues := by
  have status : State.reset.statusWord = 0 := hostRead_reset 2
  exact ⟨rfl, rfl, rfl, rfl, rfl, rfl, rfl, rfl, rfl, rfl, status, rfl, rfl, rfl, rfl, rfl, rfl, rfl, rfl, rfl, rfl, rfl,
    rfl, rfl, rfl, rfl, rfl, rfl, rfl, rfl⟩

end Sys2Proof.Machine
end

section
/-! The decoder and the encoder are each other's inverse on well-formed commands (rule R71 to rule R78). Settles O1 and
O2. -/

namespace Sys2Proof

/-! A field with its must-be-zero bits 0 is its operands put side by side -/

theorem aux_of_two_operands (x : BitVec 2) :
    (0#2 ++ x : BitVec 4).extractLsb' 2 2 = 0 ∧ (0#2 ++ x : BitVec 4).extractLsb' 0 2 = x := by revert x; decide

theorem eq_aux_of_two_operands {x : BitVec 4} (h : x.extractLsb' 2 2 = 0) : x = 0#2 ++ x.extractLsb' 0 2 := by
  revert h
  revert x
  decide

theorem eq_aux_of_two_bits {x : BitVec 4} (h : x.extractLsb' 2 2 = 0) :
    x = 0#2 ++ BitVec.ofBool (x.getLsbD 1) ++ BitVec.ofBool (x.getLsbD 0) := by
  revert h
  revert x
  decide

theorem aux_of_three_bits (p q r : Bool) :
    (0#1 ++ BitVec.ofBool p ++ BitVec.ofBool q ++ BitVec.ofBool r : BitVec 4).getLsbD 3 = false ∧
    (0#1 ++ BitVec.ofBool p ++ BitVec.ofBool q ++ BitVec.ofBool r : BitVec 4).getLsbD 2 = p ∧
    (0#1 ++ BitVec.ofBool p ++ BitVec.ofBool q ++ BitVec.ofBool r : BitVec 4).getLsbD 1 = q ∧
    (0#1 ++ BitVec.ofBool p ++ BitVec.ofBool q ++ BitVec.ofBool r : BitVec 4).getLsbD 0 = r := by
  revert p q r; decide

theorem eq_aux_of_three_bits {x : BitVec 4} (h : x.getLsbD 3 = false) :
    x = 0#1 ++ BitVec.ofBool (x.getLsbD 2) ++ BitVec.ofBool (x.getLsbD 1) ++ BitVec.ofBool (x.getLsbD 0) := by
  revert h
  revert x
  decide

theorem eq_field_of_count {a : Byte} (h : a.extractLsb' 4 4 = 0) : a = 0#4 ++ a.extractLsb' 0 4 := by
  revert h
  revert a
  decide

theorem field_of_offset (o : BitVec 3) :
    (0#5 ++ o : Byte).extractLsb' 3 5 = 0 ∧ (0#5 ++ o : Byte).extractLsb' 0 3 = o := by revert o; decide

theorem eq_field_of_offset {a : Byte} (h : a.extractLsb' 3 5 = 0) : a = 0#5 ++ a.extractLsb' 0 3 := by
  revert h
  revert a
  decide

theorem field_of_code (c : BitVec 2) :
    (0#6 ++ c : Byte).extractLsb' 2 6 = 0 ∧ (0#6 ++ c : Byte).extractLsb' 0 2 = c := by revert c; decide

theorem eq_field_of_code {b : Byte} (h : b.extractLsb' 2 6 = 0) : b = 0#6 ++ b.extractLsb' 0 2 := by
  revert h
  revert b
  decide

/-! The word of a command decodes to it -/

theorem decode_encode_wrreg (reg : RegAddr) (value : Byte) :
    decode (encode (.wrreg reg value)) = .ok (.wrreg reg value) := by
  simp [decode_eq_ok_iff, rowOpcode, rowDecoder, decodeWrreg_eq_ok_iff, encode, regOf]

/-- RMW's operands decode back when no bit lies outside the mask. -/
theorem decode_encode_rmw (reg : RegAddr) (mask bits : Byte) (slot : Slot) :
    decode (encode (.rmw reg mask bits slot)) =
      if bits &&& ~~~mask = 0 then .ok (.rmw reg mask bits slot) else .error .strayBits := by
  obtain ⟨hz, hs⟩ := aux_of_two_operands slot.code
  simp [decode, decodeRmw, encode, regOf, hz, hs]

theorem decode_encode_unpk (off : BitVec 3) {v : Width} {order : ByteOrder} (sign : Signedness) (conv : Conv)
    (h : v = .two ∨ order = .be) :
    decode (encode (.unpk off v order sign conv)) = .ok (.unpk off v order sign conv) := by
  obtain ⟨h3, h2, h1, h0⟩ := aux_of_three_bits v.bit order.bit sign.bit
  obtain ⟨hoz, ho⟩ := field_of_offset off
  obtain ⟨hcz, hc⟩ := field_of_code conv.code
  have legal : v.bit = false → order.bit = false := by
    rintro hv
    obtain rfl | rfl := h
    · cases hv
    · rfl
  rw [decode_eq_ok_iff, rowDecoder, decodeUnpk_eq_ok_iff, encode, opcOf_mkWord, auxOf_mkWord, aOf_mkWord, bOf_mkWord,
    cOf_mkWord, h3, h2, h1, h0, hoz, ho, hcz, hc, widthOf_bit, byteOrderOf_bit, signOf_bit, convOf_code]
  exact ⟨rfl, ⟨rfl, rfl, rfl, rfl⟩, rfl, legal⟩

/-- Settles O1, a lemma per row; XFER, RMW and UNPK use the condition their rule puts on the operands. -/
theorem decodeOfEncodeIsIdentity : Obligations.DecodeOfEncodeIsIdentity := by
  intro i hw
  cases i with
  | swrd => decide
  | rdreg reg v inc => exact decode_encode_rdreg reg v inc
  | xfer nreq nresp =>
    obtain ⟨hq, hr, h8⟩ := wellFormed_xfer_iff.mp hw
    rw [decode_encode_xfer, if_neg hq, if_neg (not_or.mpr ⟨hr, not_lt.mpr h8⟩)]
  | wrreg reg value => exact decode_encode_wrreg reg value
  | rmw reg mask bits slot => exact (decode_encode_rmw reg mask bits slot).trans (if_pos (beq_iff_eq.mp hw))
  | unpk off v order sign conv => exact decode_encode_unpk off sign conv (by simpa [Instr.wellFormed] using hw)
  | idchk reg expect => exact decode_encode_idchk reg expect

/-! A word that decodes is the word of its command -/

/-- The five fields of a word that decodes are those of the command it decodes to. -/
theorem encode_of_decode {w : Word} {i : Instr} (hd : decode w = .ok i) : encode i = w := by
  obtain ⟨hopc, hrow⟩ := decode_eq_ok_iff.mp hd
  refine Eq.symm ?_
  cases i with
  | swrd =>
    obtain ⟨⟨hx, ha, hb, hc⟩, -⟩ := decodeSwrd_eq_ok_iff.mp hrow
    exact eq_mkWord_iff.mpr ⟨hopc, hx, ha, hb, hc⟩
  | rdreg reg v inc =>
    obtain ⟨⟨hx, ha, hb, hc⟩, hi⟩ := decodeRdreg_eq_ok_iff.mp hrow
    cases hi
    refine eq_mkWord_iff.mpr ⟨hopc, ?_, (regField_of_top ha).symm, hb, hc⟩
    rw [bit_widthOf]
    exact eq_aux_of_two_bits hx
  | xfer nreq nresp =>
    obtain ⟨⟨hx, ha, hb, hc⟩, hi, -⟩ := decodeXfer_eq_ok_iff.mp hrow
    cases hi
    exact eq_mkWord_iff.mpr ⟨hopc, eq_aux_of_two_operands hx, eq_field_of_count ha, hb, hc⟩
  | wrreg reg value =>
    obtain ⟨⟨hx, ha, hc⟩, hi⟩ := decodeWrreg_eq_ok_iff.mp hrow
    cases hi
    exact eq_mkWord_iff.mpr ⟨hopc, hx, (regField_of_top ha).symm, rfl, hc⟩
  | rmw reg mask bits slot =>
    obtain ⟨⟨hx, ha⟩, slot', hs, hi, -⟩ := decodeRmw_eq_ok_iff.mp hrow
    cases hi
    refine eq_mkWord_iff.mpr ⟨hopc, ?_, (regField_of_top ha).symm, rfl, rfl⟩
    rw [code_of_slotOf hs]
    exact eq_aux_of_two_operands hx
  | unpk off v order sign conv =>
    obtain ⟨⟨hx, ha, hb, hc⟩, hi, -⟩ := decodeUnpk_eq_ok_iff.mp hrow
    cases hi
    refine eq_mkWord_iff.mpr ⟨hopc, ?_, eq_field_of_offset ha, ?_, hc⟩
    · rw [bit_widthOf, bit_byteOrderOf, bit_signOf]
      exact eq_aux_of_three_bits hx
    · rw [code_convOf]
      exact eq_field_of_code hb
  | idchk reg expect =>
    obtain ⟨⟨hx, ha, hc⟩, hi⟩ := decodeIdchk_eq_ok_iff.mp hrow
    cases hi
    exact eq_mkWord_iff.mpr ⟨hopc, hx, (regField_of_top ha).symm, rfl, hc⟩

/-- Settles O2. -/
theorem encodeOfDecodeIsIdentity : Obligations.EncodeOfDecodeIsIdentity :=
  fun _ _ hd => ⟨Machine.wellFormed_of_decode hd, encode_of_decode hd⟩

end Sys2Proof
end

section
/-! What one step can do, said once for SWRD (`execSwrd_eq_next_iff`), for the engine's commands (`exec_cases`) and for
the whole machine (`step_cases`): every statement about all steps is a case split on these (rule R64, rule R120, rule
R147). -/

namespace Sys2Proof.Machine

/-! SWRD -/

/-- SWRD ends with error e: what `abort` does in the single-wire phases (rule R170). -/
def swrdFails (e : ErrCode) (s : State) : State :=
  { s with pinmode := .sample, out := .release :: s.out, err := e, done := true, phase := .idle }

theorem abort_of_singleWire {s : State} (h : s.phase.singleWire = true) (e : ErrCode) : abort e s = swrdFails e s :=
  if_pos h

/-- The level a measuring phase counts at (rule R106, rule R120). -/
def Phase.measures : Phase → Option Bool
  | .ackL | .datL => some false
  | .ackH | .datH => some true
  | .idle | .rqH1 | .rqL | .rqH2 | .rcRd | .rcWr => none

theorem measures_eq_some_iff {p : Phase} {l : Bool} :
    p.measures = some l ↔ (p = .ackL ∨ p = .datL) ∧ l = false ∨ (p = .ackH ∨ p = .datH) ∧ l = true := by
  cases p <;> cases l <;> simp [Phase.measures]

theorem singleWire_of_measures {p : Phase} {l : Bool} (h : p.measures = some l) : p.singleWire = true := by
  obtain ⟨rfl | rfl, -⟩ | ⟨rfl | rfl, -⟩ := measures_eq_some_iff.mp h <;> rfl

/-- What the end of a measurement does, phase by phase (rule R120). -/
def edge : Phase → State → Result
  | .ackL => lowEnds .ackH
  | .ackH => ackEnds
  | .datL => lowEnds .datH
  | .datH => dataEnds
  | .idle | .rqH1 | .rqL | .rqH2 | .rcRd | .rcWr => fun _ => .fault .noRow

/-- A measuring phase is one measurement of rule R105. -/
theorem execSwrd_measures {s : State} {l : Bool} (h : s.phase.measures = some l) :
    execSwrd s = measureStep l (edge s.phase) s := by
  obtain ⟨hp | hp, rfl⟩ | ⟨hp | hp, rfl⟩ := measures_eq_some_iff.mp h <;> simp only [execSwrd, hp, edge]

/-- What one step of SWRD does, a constructor for each outcome of a row of the table (rule R118 step 1, rule R120). -/
inductive SwrdMove (s : State) : State → Prop
  | accepts (hp : s.phase = .idle) : SwrdMove s (swrdAccept s)
  | driveFails (hp : s.phase = .rqH1 ∨ s.phase = .rqL ∨ s.phase = .rqH2) (hf : (pinAnswer s).fault = true) :
      SwrdMove s (swrdFails .pin (pinDrive (decide (s.phase ≠ .rqL)) s))
  | drivesHigh (hp : s.phase = .rqH1) (hf : (pinAnswer s).fault = false) :
      SwrdMove s { wait s.params.holdIdle (pinDrive true s) with phase := .rqL }
  | drivesLow (hp : s.phase = .rqL) (hf : (pinAnswer s).fault = false) :
      SwrdMove s { wait s.params.holdLow (pinDrive false s) with phase := .rqH2 }
  | releases (hp : s.phase = .rqH2) (hf : (pinAnswer s).fault = false) :
      SwrdMove s { pinRelease (wait s.params.holdGo (pinDrive true s)) with cnt := 0, phase := .ackL }
  | sampleFails {l : Bool} (hp : s.phase.measures = some l) (hf : (pinAnswer s).fault = true) :
      SwrdMove s (swrdFails .pin (pinSample s))
  | counts (hp : s.phase.measures = some (pinAnswer s).level) (hf : (pinAnswer s).fault = false)
      (hc : s.cnt + 1 < s.params.budget) : SwrdMove s { wait 1 (pinSample s) with cnt := s.cnt + 1 }
  | timesOut (hp : s.phase.measures = some (pinAnswer s).level) (hf : (pinAnswer s).fault = false)
      (hc : s.cnt + 1 = s.params.budget) : SwrdMove s (swrdFails .timeout (wait 1 (pinSample s)))
  | lowEnds {next : Phase} (hp : s.phase = .ackL ∧ next = .ackH ∨ s.phase = .datL ∧ next = .datH)
      (hf : (pinAnswer s).fault = false) (hl : (pinAnswer s).level = true) :
      SwrdMove s { pinSample s with lowdur := s.cnt, cnt := 0, phase := next }
  | ackEnds (hp : s.phase = .ackH) (hf : (pinAnswer s).fault = false) (hl : (pinAnswer s).level = false) :
      SwrdMove s { pinSample s with cnt := 0, phase := .datL }
  | nextBit (hp : s.phase = .datH) (hf : (pinAnswer s).fault = false) (hl : (pinAnswer s).level = false)
      (hb : s.bitcnt.toNat < 39) : SwrdMove s { shiftBit (pinSample s) with cnt := 0, phase := .datL }
  | publishes (hp : s.phase = .datH) (hf : (pinAnswer s).fault = false) (hl : (pinAnswer s).level = false)
      (hb : s.bitcnt.toNat = 39) (hk : checksumOk (shiftBit s).b = true) :
      SwrdMove s (complete (publish (shiftBit (pinSample s))))
  | mismatches (hp : s.phase = .datH) (hf : (pinAnswer s).fault = false) (hl : (pinAnswer s).level = false)
      (hb : s.bitcnt.toNat = 39) (hk : checksumOk (shiftBit s).b = false) :
      SwrdMove s (swrdFails .crc (shiftBit (pinSample s)))

/-- The three rows of the request phase. -/
theorem swrdMove_of_request {s t : State} {l : Bool} {k : State → State}
    (hp : s.phase = .rqH1 ∨ s.phase = .rqL ∨ s.phase = .rqH2) (hl : l = decide (s.phase ≠ .rqL))
    (hk : (pinAnswer s).fault = false → SwrdMove s (k (pinDrive l s))) (h : requestStep l k s = .next t) :
    SwrdMove s t := by
  subst hl
  obtain ⟨hf, ho⟩ | ⟨hf, ho⟩ := requestStep_cases h <;> cases ho
  · rw [abort_of_singleWire (by obtain hp | hp | hp := hp <;> simp [hp, Phase.singleWire])]
    exact .driveFails hp hf
  · exact hk hf

/-- The end of a data bit. -/
theorem swrdMove_of_dataEnds {s t : State} (hp : s.phase = .datH) (hf : (pinAnswer s).fault = false)
    (hl : (pinAnswer s).level = false) (h : dataEnds (pinSample s) = .next t) : SwrdMove s t := by
  obtain ⟨hb, ho⟩ | ⟨hb, ho⟩ | ⟨-, ho⟩ := dataEnds_cases h <;> cases ho
  · exact .nextBit hp hf hl hb
  · obtain ⟨hk, he⟩ | ⟨hk, he⟩ := finish_cases (shiftBit (pinSample s)) <;> rw [he]
    · exact .publishes hp hf hl hb hk
    · rw [abort_of_singleWire (by simp [hp, Phase.singleWire])]
      exact .mismatches hp hf hl hb hk

/-- The end of a measurement. -/
theorem swrdMove_of_edge {s t : State} {l : Bool} (hp : s.phase.measures = some l) (hf : (pinAnswer s).fault = false)
    (hl : (pinAnswer s).level ≠ l) (h : edge s.phase (pinSample s) = .next t) : SwrdMove s t := by
  obtain ⟨hq | hq, rfl⟩ | ⟨hq | hq, rfl⟩ := measures_eq_some_iff.mp hp <;> rw [hq] at h
  · cases h
    exact .lowEnds (.inl ⟨hq, rfl⟩) hf (by simpa using hl)
  · cases h
    exact .lowEnds (.inr ⟨hq, rfl⟩) hf (by simpa using hl)
  · cases h
    exact .ackEnds hq hf (by simpa using hl)
  · exact swrdMove_of_dataEnds hq hf (by simpa using hl) h

/-- The four measuring phases. -/
theorem swrdMove_of_measures {s t : State} {l : Bool} (hp : s.phase.measures = some l) (h : execSwrd s = .next t) :
    SwrdMove s t := by
  have hw := singleWire_of_measures hp
  rw [execSwrd_measures hp] at h
  obtain ⟨hf, ho⟩ | ⟨hf, hl, ho⟩ | ⟨hf, rfl, hc, ho⟩ | ⟨hf, rfl, hc, ho⟩ | ⟨-, -, -, ho⟩ := measureStep_cases h
  · cases ho
    rw [abort_of_singleWire (by simpa using hw)]
    exact .sampleFails hp hf
  · exact swrdMove_of_edge hp hf hl ho.symm
  · cases ho
    exact .counts hp hf hc
  · cases ho
    rw [abort_of_singleWire (by simpa using hw)]
    exact .timesOut hp hf hc
  · cases ho

theorem swrdMove_of_execSwrd {s t : State} (h : execSwrd s = .next t) : SwrdMove s t := by
  cases hp : s.phase with
  | ackL | ackH | datL | datH => exact swrdMove_of_measures (by rw [hp]; rfl) h
  | idle =>
    simp only [execSwrd, hp] at h
    cases h
    exact .accepts hp
  | rqH1 =>
    simp only [execSwrd, hp] at h
    exact swrdMove_of_request (.inl hp) (by simp [hp]) (.drivesHigh hp) h
  | rqL =>
    simp only [execSwrd, hp] at h
    exact swrdMove_of_request (.inr (.inl hp)) (by simp [hp]) (.drivesLow hp) h
  | rqH2 =>
    simp only [execSwrd, hp] at h
    exact swrdMove_of_request (.inr (.inr hp)) (by simp [hp]) (.releases hp) h
  | rcRd | rcWr =>
    simp only [execSwrd, hp] at h
    cases h

theorem dataEnds_next {s : State} (hb : s.bitcnt.toNat < 39) :
    dataEnds s = .next { shiftBit s with cnt := 0, phase := .datL } := if_pos hb

theorem dataEnds_last {s : State} (hb : s.bitcnt.toNat = 39) : dataEnds s = .next (finish (shiftBit s)) := by
  simp [dataEnds, hb]

theorem finish_match {s : State} (hk : checksumOk s.b = true) : finish s = complete (publish s) := if_pos hk

theorem finish_mismatch {s : State} (hk : checksumOk s.b = false) : finish s = abort .crc s := if_neg (by simp [hk])

theorem execSwrd_of_swrdMove {s t : State} (h : SwrdMove s t) : execSwrd s = .next t := by
  cases h with
  | accepts hp => simp only [execSwrd, hp]
  | driveFails hp hf =>
    rw [← abort_of_singleWire (by obtain hp | hp | hp := hp <;> simp [hp, Phase.singleWire])]
    obtain hp | hp | hp := hp <;> simp [execSwrd, hp, requestStep, hf]
  | drivesHigh hp hf | drivesLow hp hf | releases hp hf => simp [execSwrd, hp, requestStep, hf]
  | sampleFails hp hf =>
    rw [execSwrd_measures hp, measureStep_fault _ hf, abort_of_singleWire (by simpa using singleWire_of_measures hp)]
  | counts hp hf hc => rw [execSwrd_measures hp, measureStep_counts _ hf rfl hc]
  | timesOut hp hf hc =>
    rw [execSwrd_measures hp, measureStep_timeout _ hf rfl hc,
      abort_of_singleWire (by simpa using singleWire_of_measures hp)]
  | lowEnds hp hf hl =>
    obtain ⟨hp, rfl⟩ | ⟨hp, rfl⟩ := hp <;> simp only [execSwrd, hp] <;> exact measureStep_edge _ hf (by simp [hl])
  | ackEnds hp hf hl =>
    simp only [execSwrd, hp]
    exact measureStep_edge _ hf (by simp [hl])
  | nextBit hp hf hl hb =>
    simp only [execSwrd, hp]
    exact (measureStep_edge _ hf (by simp [hl])).trans (dataEnds_next (s := pinSample s) hb)
  | publishes hp hf hl hb hk =>
    simp only [execSwrd, hp]
    rw [measureStep_edge _ hf (by simp [hl]), dataEnds_last (s := pinSample s) hb,
      finish_match (s := shiftBit (pinSample s)) hk]
  | mismatches hp hf hl hb hk =>
    simp only [execSwrd, hp]
    rw [measureStep_edge _ hf (by simp [hl]), dataEnds_last (s := pinSample s) hb,
      finish_mismatch (s := shiftBit (pinSample s)) hk, abort_of_singleWire (by simp [hp, Phase.singleWire])]

/-- The step table of SWRD, read both ways. -/
theorem execSwrd_eq_next_iff {s t : State} : execSwrd s = .next t ↔ SwrdMove s t :=
  ⟨swrdMove_of_execSwrd, execSwrd_of_swrdMove⟩

/-! The engine -/

/-- The request command i has outstanding (rule R44, rule R147). -/
def requestOf (i : Instr) (s : State) : Option Request :=
  match s.phase with
  | .rcRd => readRequestOf i s
  | .rcWr => writeRequestOf i s
  | .idle | .rqH1 | .rqL | .rqH2 | .ackL | .ackH | .datL | .datH => none

/-- What the answer `Ok` to command i's request in phase p does (rule R130 to rule R134). -/
def onOk : Instr → Phase → BitVec 64 → State → State
  | .rdreg _ w _, _, d, u => complete (storeResponse (widthBytes w) d u)
  | .xfer _ nresp, _, d, u => complete (storeResponse nresp.toNat d u)
  | .wrreg _ _, _, _, u => complete u
  | .rmw _ mask bits _, .rcRd, d, u => rmwMerge mask bits d u
  | .rmw _ _ _ slot, _, _, u => complete (recordDivisor slot u)
  | .idchk _ expect, _, d, u => complete (idchkJudge expect d u)
  | .swrd, _, _, u => u
  | .unpk _ _ _ _ _, _, _, u => u

theorem requestOf_reading {s : State} (hp : s.phase = .rcRd) (i : Instr) : requestOf i s = readRequestOf i s := by
  rw [requestOf, hp]

theorem requestOf_writing {s : State} (hp : s.phase = .rcWr) (i : Instr) : requestOf i s = writeRequestOf i s := by
  rw [requestOf, hp]

theorem exec_of_readRequest {i : Instr} {s : State} {r : Request} (hp : s.phase = .rcRd)
    (h : readRequestOf i s = some r) : exec i s = transact r (onOk i .rcRd) s := by
  cases i <;> cases h <;> simp only [exec, execRdreg, execXfer, execRmw, execIdchk, hp] <;> rfl

theorem exec_of_writeRequest {i : Instr} {s : State} {r : Request} (hp : s.phase = .rcWr)
    (h : writeRequestOf i s = some r) : exec i s = transact r (onOk i .rcWr) s := by
  cases i <;> cases h <;> simp only [exec, execWrreg, execRmw, hp] <;> rfl

/-- A command with a request outstanding performs it and does no other thing (rule R147). -/
theorem exec_of_request {i : Instr} {s : State} {r : Request} (h : requestOf i s = some r) :
    exec i s = transact r (onOk i s.phase) s := by
  unfold requestOf at h
  split at h
  case h_1 hp => rw [hp, exec_of_readRequest hp h]
  case h_2 hp => rw [hp, exec_of_writeRequest hp h]
  all_goals cases h

theorem requestOf_isSome_iff {i : Instr} {s : State} :
    (requestOf i s).isSome = true ↔ (s.phase = .rcRd ∨ s.phase = .rcWr) ∧ runsIn i s.phase = true := by
  cases i <;> cases hp : s.phase <;> simp [requestOf, hp, readRequestOf, writeRequestOf, runsIn, Phase.singleWire]

/-- The state once an answer has been taken for request r (rule R51, note 8). -/
def taken (r : Request) (rest : List Config.BusAnswer) (s : State) : State :=
  { s with bus := rest, out := .transport r :: s.out }

/-- What one step of an engine command does: its accept, or the next step of its request (rule R26, rule R147). -/
inductive EngineMove (s : State) : Instr → State → Prop
  | reads {i : Instr} (hp : s.phase = .idle) (hr : runsIn i .rcRd = true) (hi : ∀ reg expect, i ≠ .idchk reg expect) :
      EngineMove s i (beginRead s)
  | checks {reg : RegAddr} {expect : Byte} (hp : s.phase = .idle) :
      EngineMove s (.idchk reg expect) { beginRead s with idok := false }
  | writes {reg : RegAddr} {value : Byte} (hp : s.phase = .idle) :
      EngineMove s (.wrreg reg value) { s with phase := .rcWr }
  | unpacks {off : BitVec 3} {w : Width} {order : ByteOrder} {sign : Signedness} {conv : Conv} (hp : s.phase = .idle) :
      EngineMove s (.unpk off w order sign conv) (unpack off w order sign conv s)
  | refuses {i : Instr} (hp : s.phase = .idle) (hi : i ≠ .swrd) : EngineMove s i (refuse s)
  | waits {i : Instr} {r : Request} (hr : requestOf i s = some r) (hb : s.bus = []) : EngineMove s i s
  | fails {i : Instr} {r : Request} {a : Config.BusAnswer} {rest : List Config.BusAnswer} (hr : requestOf i s = some r)
      (hb : s.bus = a :: rest) (hf : a.fail = true) :
      EngineMove s i { taken r rest s with err := .bus, done := true, phase := .idle }
  | answers {i : Instr} {r : Request} {a : Config.BusAnswer} {rest : List Config.BusAnswer}
      (hr : requestOf i s = some r) (hb : s.bus = a :: rest) (hf : a.fail = false) :
      EngineMove s i (onOk i s.phase a.rdata (taken r rest s))

theorem engineMove_of_request {i : Instr} {s t : State} {r : Request} (hr : requestOf i s = some r)
    (h : exec i s = .next t) : EngineMove s i t := by
  rw [exec_of_request hr] at h
  obtain ⟨hb, ho⟩ | ⟨a, rest, hb, hf, ho⟩ | ⟨a, rest, hb, hf, ho⟩ := transact_cases h
  · cases ho
    exact .waits hr hb
  · have hp : s.phase.singleWire = false := by
      obtain ⟨hp | hp, -⟩ := requestOf_isSome_iff.mp (Option.isSome_of_eq_some hr) <;> rw [hp] <;> rfl
    rw [transact_busError hp hb hf] at h
    cases h
    exact .fails hr hb hf
  · cases ho
    exact .answers hr hb hf

/-- The accept of an engine command: it starts or is refused (rule R26, rule R71). -/
theorem engineMove_of_idle {i : Instr} {s t : State} (hi : i ≠ .swrd) (hp : s.phase = .idle) (h : exec i s = .next t) :
    EngineMove s i t := by
  cases i with
  | swrd => exact absurd rfl hi
  | rdreg reg w inc =>
    rw [execRdreg_idle hp] at h
    cases h
    exact .reads hp rfl (by simp)
  | xfer nreq nresp =>
    simp only [exec, execXfer, hp] at h
    obtain ⟨-, ho⟩ | ⟨-, ho⟩ := startIf_cases h <;> cases ho
    · exact .reads hp rfl (by simp)
    · exact .refuses hp hi
  | wrreg reg value =>
    rw [execWrreg_idle hp] at h
    cases h
    exact .writes hp
  | rmw reg mask bits slot =>
    simp only [exec, execRmw, hp] at h
    obtain ⟨-, ho⟩ | ⟨-, ho⟩ := startIf_cases h <;> cases ho
    · exact .reads hp rfl (by simp)
    · exact .refuses hp hi
  | unpk off w order sign conv =>
    rw [execUnpk_idle hp] at h
    obtain ⟨-, ho⟩ | ⟨-, ho⟩ := startIf_cases h <;> cases ho
    · exact .unpacks hp
    · exact .refuses hp hi
  | idchk reg expect =>
    rw [execIdchk_idle hp] at h
    cases h
    exact .checks hp

/-- Outside IDLE an engine command steps only with a request outstanding (rule R147, note 12). -/
theorem requestOf_of_exec {i : Instr} {s t : State} (hi : i ≠ .swrd) (hp : s.phase ≠ .idle) (h : exec i s = .next t) :
    ∃ r, requestOf i s = some r := by
  cases i with
  | swrd => exact absurd rfl hi
  | rdreg | xfer | idchk =>
    simp only [exec, execRdreg, execXfer, execIdchk] at h
    split at h
    case h_1 hidle => exact absurd hidle hp
    case h_2 hread => exact ⟨_, requestOf_reading hread _⟩
    all_goals cases h
  | wrreg =>
    simp only [exec, execWrreg] at h
    split at h
    case h_1 hidle => exact absurd hidle hp
    case h_2 hwrite => exact ⟨_, requestOf_writing hwrite _⟩
    all_goals cases h
  | rmw =>
    simp only [exec, execRmw] at h
    split at h
    case h_1 hidle => exact absurd hidle hp
    case h_2 hread => exact ⟨_, requestOf_reading hread _⟩
    case h_3 hwrite => exact ⟨_, requestOf_writing hwrite _⟩
    all_goals cases h
  | unpk =>
    simp only [exec, execUnpk] at h
    split at h
    case h_1 hidle => exact absurd hidle hp
    all_goals cases h

/-- What one step of a command does. -/
theorem exec_cases {i : Instr} {s t : State} (h : exec i s = .next t) :
    i = .swrd ∧ SwrdMove s t ∨ i ≠ .swrd ∧ EngineMove s i t := by
  by_cases hi : i = .swrd
  · subst hi
    exact .inl ⟨rfl, swrdMove_of_execSwrd h⟩
  · refine .inr ⟨hi, ?_⟩
    by_cases hp : s.phase = .idle
    · exact engineMove_of_idle hi hp h
    · obtain ⟨r, hr⟩ := requestOf_of_exec hi hp h
      exact engineMove_of_request hr h

/-! The whole machine -/

/-- What one step of the machine does (rule R26, rule R29, rule R64, rule R190, rule R192). -/
inductive StepMove (s : State) : State → Prop
  | resets {rest : List Input} (hi : s.inputs = .reset :: rest) : StepMove s (resetBlock { s with inputs := rest })
  | idles (hi : s.inputs.headD .none = .none) (hp : s.phase = .idle) : StepMove s { s with inputs := s.inputs.tail }
  | runs {i : Instr} {t : State} (hi : s.inputs.headD .none = .none) (hp : s.phase ≠ .idle) (hd : decode s.cmd = .ok i)
      (he : exec i { s with inputs := s.inputs.tail } = .next t) : StepMove s t
  | starts {w : Word} {rest : List Input} {i : Instr} {t : State} (hi : s.inputs = .write 0 w :: rest)
      (hp : s.phase = .idle) (hd : decode w = .ok i) (he : exec i (acceptWord w { s with inputs := rest }) = .next t) :
      StepMove s t
  | refuses {w : Word} {rest : List Input} {e : Illegal} (hi : s.inputs = .write 0 w :: rest) (hp : s.phase = .idle)
      (hd : decode w = .error e) : StepMove s (refuse (acceptWord w { s with inputs := rest }))
  | reads {addr : HostAddr} {rest : List Input} (hi : s.inputs = .read addr :: rest) :
      StepMove s (emit (.hostRead addr (hostRead addr { s with inputs := rest })) { s with inputs := rest })
  | writes {addr : HostAddr} {w : Word} {rest : List Input} {rej : Bool} {arg : Word} {devAddr : BusAddr}
      (hi : s.inputs = .write addr w :: rest) (hp : s.phase ≠ .idle → arg = s.arg ∧ devAddr = s.devAddr) :
      StepMove s { s with inputs := rest, rej := rej, arg := arg, devAddr := devAddr }

theorem stepMove_of_sequencerStep {s t : State} (hi : s.inputs.headD .none = .none)
    (h : sequencerStep { s with inputs := s.inputs.tail } = .next t) : StepMove s t := by
  obtain ⟨hp, hs⟩ | ⟨hp, i, hd, hs⟩ | ⟨-, e, -, hs⟩ := sequencerStep_cases { s with inputs := s.inputs.tail } <;>
    rw [hs] at h
  · cases h
    exact .idles hi hp
  · exact .runs hi hp hd h
  · cases h

theorem stepMove_of_hostWrite {s t : State} {addr : HostAddr} {w : Word} {rest : List Input}
    (hi : s.inputs = .write addr w :: rest) (h : hostWrite addr w { s with inputs := rest } = .next t) :
    StepMove s t := by
  have idle {u : State} (hb : u.busy = false) : u.phase = .idle := (busy_eq_false u).mp hb
  obtain ⟨-, -, hw⟩ | ⟨rfl, hb, hw⟩ | ⟨-, -, hw⟩ | ⟨-, hb, hw⟩ | ⟨-, hw⟩ | ⟨-, -, hw⟩ | ⟨-, hb, hw⟩ | ⟨-, hw⟩ :=
    hostWrite_cases addr w { s with inputs := rest } <;> rw [hw] at h
  case inr.inl =>
    obtain ⟨i, hd, ha⟩ | ⟨e, hd, ha⟩ := accept_cases w { s with inputs := rest } <;> rw [ha] at h
    · exact .starts hi (idle hb) hd h
    · cases h
      exact .refuses hi (idle hb) hd
  case inr.inr.inr.inl | inr.inr.inr.inr.inr.inr.inl =>
    cases h
    exact .writes hi fun hp => absurd (idle hb) hp
  all_goals
    cases h
    exact .writes hi fun _ => ⟨rfl, rfl⟩

theorem step_cases {s t : State} (h : step s = .next t) : StepMove s t := by
  cases hi : s.inputs with
  | nil =>
    rw [step_noInput hi] at h
    refine stepMove_of_sequencerStep (by rw [hi]; rfl) (Eq.trans ?_ h)
    rw [hi, List.tail_nil, ← hi]
  | cons i rest =>
    rw [step_input hi] at h
    cases i with
    | reset =>
      cases h
      exact .resets hi
    | read addr =>
      cases h
      exact .reads hi
    | write addr w => exact stepMove_of_hostWrite hi h
    | none =>
      refine stepMove_of_sequencerStep (by rw [hi]; rfl) (Eq.trans ?_ h)
      rw [hi]
      rfl

end Sys2Proof.Machine
end

section
/-! The invariant (rule R22, rule R25 to rule R28, rule R41, rule R42, rule R103, rule R111, rule R113). Settles O51 and
O52. Its clauses on the registers alone, `RegInv`, are kept operation by operation; the clauses on PHASE are put
together again at the phase a step ends in (`inv_of_idle`, `inv_of_singleWire`, `inv_of_transport`). -/

namespace Sys2Proof.Machine

/-- The clauses of `Inv` that do not speak of PHASE, DONE, ERR or the pin. -/
structure RegInv (s : State) : Prop where
  budget : 1 ≤ s.params.budget
  cnt : s.cnt < s.params.budget
  lowdur : s.lowdur < s.params.budget
  hold : s.hold = 0
  rlen : s.rlen.toNat ≤ 8
  respTail : ∀ (k : Nat) (h : k < 8), s.rlen.toNat ≤ k → s.resp[k] = 0
  bitcnt : s.bitcnt.toNat ≤ 40
  frame : ∀ (k : Nat) (h : k < 5), s.b[k].toNat < 2 ^ min 8 (s.bitcnt.toNat - 8 * k)
  results : s.valid = true → s.bitcnt = 40 ∧ checksumOk s.b = true ∧ s.humT = humidityOf s.b ∧
    s.tempT = temperatureOf s.b ∧ s.neg = negOf s.b
  noResults : s.valid = false → s.humT = 0 ∧ s.tempT = 0 ∧ s.neg = false
  snapshot : s.conv = .raw ∨ s.conv = .tenths → s.ddiv = 0
  noValue : s.dvalid = false → s.data = 0 ∧ s.conv = .raw ∧ s.ddiv = 0

theorem Inv.regs {s : State} (h : Inv s) : RegInv s := { h with }

/-- The pin is not driven outside the request phase (rule R103). -/
theorem Inv.sampling {s : State} (h : Inv s) (hp : s.phase.drives = false) : s.pinmode = .sample := by
  cases hm : s.pinmode with
  | sample => rfl
  | drive => exact absurd (h.pinDriven.mp hm) (by simp [hp])

/-! From the registers to the whole, by the phase -/

theorem inv_of_idle {t : State} (h : RegInv t) (hp : t.phase = .idle) (ho : t.done = false → t.err = .none)
    (hm : t.pinmode = .sample) : Inv t :=
  { h with
    command := fun hn => absurd hp hn
    running := fun hn => absurd hp hn
    outcome := ho
    pinDriven := by simp [hp, hm, Phase.drives]
    beforeData := by simp [hp, Phase.beforeData]
    inData := by simp [hp, Phase.inData]
    noneYet := by simp [hp, Phase.singleWire]
    reading := by simp [hp]
    writing := by simp [hp]
    checking := by simp [hp] }

theorem inv_of_singleWire {t : State} (h : RegInv t) (hd : decode t.cmd = .ok .swrd) (hw : t.phase.singleWire = true)
    (hr : t.done = false) (ho : t.err = .none) (hm : t.pinmode = .drive ↔ t.phase.drives = true)
    (hb : t.phase.beforeData = true → t.bitcnt = 0) (hn : t.phase.inData = true → t.bitcnt.toNat < 40)
    (hv : t.valid = false) : Inv t :=
  { h with
    command := fun _ => ⟨.swrd, hd, hw⟩
    running := fun _ => hr
    outcome := fun _ => ho
    pinDriven := hm
    beforeData := hb
    inData := hn
    noneYet := fun _ => hv
    reading := fun hp => by simp [hp, Phase.singleWire] at hw
    writing := fun _ _ _ _ hp => by simp [hp, Phase.singleWire] at hw
    checking := fun _ _ hp => by simp [hp, Phase.singleWire] at hw }

theorem inv_of_transport {t : State} {i : Instr} (h : RegInv t) (hd : decode t.cmd = .ok i)
    (hp : t.phase = .rcRd ∨ t.phase = .rcWr) (hi : runsIn i t.phase = true) (hr : t.done = false) (ho : t.err = .none)
    (hm : t.pinmode = .sample) (hrd : t.phase = .rcRd → t.rlen = 0)
    (hwr : ∀ reg mask bits slot, t.phase = .rcWr → i = .rmw reg mask bits slot →
      t.rlen = 1 ∧ t.newval = mergeBits t.resp[0] mask bits)
    (hck : ∀ reg expect, i = .idchk reg expect → t.idok = false) : Inv t := by
  have only {j : Instr} (hj : decode t.cmd = .ok j) : i = j := Except.ok.inj (hd.symm.trans hj)
  exact { h with
    command := fun _ => ⟨i, hd, hi⟩
    running := fun _ => hr
    outcome := fun _ => ho
    pinDriven := by obtain hp | hp := hp <;> simp [hp, hm, Phase.drives]
    beforeData := by obtain hp | hp := hp <;> simp [hp, Phase.beforeData]
    inData := by obtain hp | hp := hp <;> simp [hp, Phase.inData]
    noneYet := by obtain hp | hp := hp <;> simp [hp, Phase.singleWire]
    reading := hrd
    writing := fun reg mask bits slot hq hj => hwr reg mask bits slot hq (only hj)
    checking := fun reg expect _ hj => hck reg expect (only hj) }

/-! The frame bytes -/

theorem shiftIn_getElem (b : Vector Byte 5) (k : Nat) (bit : Bool) {j : Nat} (hj : j < 5) :
    (shiftIn b k bit)[j] = if j = k / 8 then (b[j] <<< 1) ||| (BitVec.ofBool bit).setWidth 8 else b[j] := by
  simp [shiftIn]

/-- A byte below 2^m is below 2^(m+1) once a bit is shifted in. -/
theorem toNat_shift_bit_lt {x : Byte} {m : Nat} (hm : m < 8) (hx : x.toNat < 2 ^ m) (bit : Bool) :
    ((x <<< 1) ||| (BitVec.ofBool bit).setWidth 8).toNat < 2 ^ (m + 1) := by
  rw [BitVec.toNat_or]
  refine Nat.or_lt_two_pow ?_ ?_
  · rw [BitVec.toNat_shiftLeft, Nat.shiftLeft_eq]
    exact (Nat.mod_le _ _).trans_lt (by omega)
  · have one : ((BitVec.ofBool bit).setWidth 8 : Byte).toNat < 2 := by cases bit <;> decide
    exact one.trans_le (Nat.le_self_pow (by omega) 2)

/-- B holds the bits shifted so far and nothing else, before and after one more (rule R109). -/
theorem shiftIn_frame {b : Vector Byte 5} {n : Nat} (h : ∀ (k : Nat) (hk : k < 5), b[k].toNat < 2 ^ min 8 (n - 8 * k))
    (bit : Bool) (k : Nat) (hk : k < 5) : (shiftIn b n bit)[k].toNat < 2 ^ min 8 (n + 1 - 8 * k) := by
  rw [shiftIn_getElem b n bit hk]
  have hb := h k hk
  split_ifs with hkn
  · rw [show min 8 (n - 8 * k) = n - 8 * k by omega] at hb
    rw [show min 8 (n + 1 - 8 * k) = n - 8 * k + 1 by omega]
    exact toNat_shift_bit_lt (by omega) hb bit
  · rwa [show min 8 (n + 1 - 8 * k) = min 8 (n - 8 * k) by omega]

/-! The registers, operation by operation -/

theorem RegInv.accepted {s : State} (h : RegInv s) : RegInv (swrdAccept s) :=
  { h with
    cnt := h.budget
    lowdur := h.budget
    bitcnt := Nat.zero_le 40
    frame := by
      intro k hk
      interval_cases k <;> exact Nat.two_pow_pos _
    results := fun hv => by cases hv
    noResults := fun _ => ⟨rfl, rfl, rfl⟩ }

theorem toNat_bitcnt_succ {s : State} (hb : s.bitcnt.toNat < 40) : (shiftBit s).bitcnt.toNat = s.bitcnt.toNat + 1 := by
  rw [shiftBit_bitcnt]
  bv_omega

theorem RegInv.shiftBit {s : State} (h : RegInv s) (hv : s.valid = false) (hb : s.bitcnt.toNat < 40) :
    RegInv (shiftBit s) :=
  { h with
    bitcnt := by
      rw [toNat_bitcnt_succ hb]
      omega
    frame := by
      rw [toNat_bitcnt_succ hb]
      exact shiftIn_frame h.frame _
    results := fun hv' => by
      rw [shiftBit_valid, hv] at hv'
      cases hv' }

theorem RegInv.publish {s : State} (h : RegInv s) (hb : s.bitcnt = 40) (hk : checksumOk s.b = true) :
    RegInv (publish s) :=
  { h with
    results := fun _ => ⟨hb, hk, rfl, rfl, rfl⟩
    noResults := fun hv => by cases hv }

theorem RegInv.readBegun {s : State} (h : RegInv s) : RegInv (beginRead s) :=
  { h with
    rlen := Nat.zero_le 8
    respTail := by
      intro k hk _
      interval_cases k <;> rfl }

theorem fillResp_getElem (m : Nat) (d : BitVec 64) (resp : Vector Byte 8) {k : Nat} (hk : k < 8) :
    (fillResp m d resp)[k] = if k < m then answerByte d k else resp[k] := by
  simp [fillResp]

theorem RegInv.storeResponse {s : State} (h : RegInv s) (h0 : s.rlen = 0) {m : Nat} (hm : m ≤ 8) (d : BitVec 64) :
    RegInv (storeResponse m d s) := by
  have hlen : (BitVec.ofNat 4 m).toNat = m := Nat.mod_eq_of_lt (by omega)
  exact { h with
    rlen := by
      rw [storeResponse_rlen, hlen]
      exact hm
    respTail := by
      intro k hk hmk
      rw [storeResponse_rlen, hlen] at hmk
      rw [storeResponse_resp, fillResp_getElem m d s.resp hk, if_neg (by omega)]
      exact h.respTail k hk (by simp [h0]) }

theorem RegInv.recordDivisor {s : State} (h : RegInv s) (slot : Slot) : RegInv (recordDivisor slot s) := by
  cases slot <;> exact { h with }

theorem RegInv.unpack {s : State} (h : RegInv s) (off : BitVec 3) (w : Width) (order : ByteOrder) (sign : Signedness)
    (conv : Conv) : RegInv (unpack off w order sign conv s) :=
  { h with
    snapshot := by
      rintro (hc | hc) <;> rw [unpack_conv] at hc <;> subst hc <;> rfl
    noValue := fun hv => by cases hv }

/-! SWRD keeps the invariant -/

theorem Inv.shifted {s : State} (h : Inv s) (hp : s.phase = .datH) :
    RegInv (shiftBit (pinSample s)) ∧ (shiftBit (pinSample s)).bitcnt.toNat = s.bitcnt.toNat + 1 := by
  have hb : (pinSample s).bitcnt.toNat < 40 := h.inData (by rw [hp]; rfl)
  exact ⟨RegInv.shiftBit { h.regs with } (h.noneYet (by rw [hp]; rfl)) hb, toNat_bitcnt_succ hb⟩

/-- SWRD's end with an error: the registers are kept and the pin is released (rule R170). -/
theorem inv_swrdFails {s : State} (h : RegInv s) (e : ErrCode) : Inv (swrdFails e s) :=
  inv_of_idle { h with } rfl (fun hd => by cases hd) rfl

/-- What the step of a running SWRD may rely on, and keeps while it runs (rule R118). -/
theorem swrdMove_keeps_inv {s t : State} (h : Inv s) (hd : decode s.cmd = .ok .swrd) (hr : s.done = false)
    (hm : SwrdMove s t) : Inv t := by
  have regs := h.regs
  have ho : s.err = .none := h.outcome hr
  cases hm with
  | accepts hp =>
    exact inv_of_singleWire regs.accepted hd rfl hr ho (by simp [h.sampling, hp, Phase.drives]) (fun _ => rfl)
      (by simp [Phase.inData]) rfl
  | driveFails _ _ => exact inv_swrdFails (s := pinDrive _ s) { regs with } .pin
  | sampleFails _ _ => exact inv_swrdFails (s := pinSample s) { regs with } .pin
  | drivesHigh hp _ =>
    exact inv_of_singleWire { regs with hold := rfl } hd rfl hr ho (by simp [Phase.drives])
      (fun _ => h.beforeData (by rw [hp]; rfl)) (by simp [Phase.inData]) (h.noneYet (by rw [hp]; rfl))
  | drivesLow hp _ =>
    exact inv_of_singleWire { regs with hold := rfl } hd rfl hr ho (by simp [Phase.drives])
      (fun _ => h.beforeData (by rw [hp]; rfl)) (by simp [Phase.inData]) (h.noneYet (by rw [hp]; rfl))
  | releases hp _ =>
    exact inv_of_singleWire { regs with hold := rfl, cnt := regs.budget } hd rfl hr ho (by simp [Phase.drives])
      (fun _ => h.beforeData (by rw [hp]; rfl)) (by simp [Phase.inData]) (h.noneYet (by rw [hp]; rfl))
  | counts hp _ hc =>
    have hw := singleWire_of_measures hp
    have counted : RegInv { wait 1 (pinSample s) with cnt := s.cnt + 1 } := { regs with hold := rfl, cnt := hc }
    exact inv_of_singleWire counted hd hw hr ho h.pinDriven h.beforeData h.inData (h.noneYet hw)
  | timesOut _ _ _ => exact inv_swrdFails (s := wait 1 (pinSample s)) { regs with hold := rfl } .timeout
  | lowEnds hp _ _ =>
    have ended : RegInv { pinSample s with lowdur := s.cnt, cnt := 0 } :=
      { regs with cnt := regs.budget, lowdur := regs.cnt }
    obtain ⟨hp, rfl⟩ | ⟨hp, rfl⟩ := hp
    · exact inv_of_singleWire { ended with } hd rfl hr ho (by simp [h.sampling, hp, Phase.drives])
        (fun _ => h.beforeData (by rw [hp]; rfl)) (by simp [Phase.inData]) (h.noneYet (by rw [hp]; rfl))
    · exact inv_of_singleWire { ended with } hd rfl hr ho (by simp [h.sampling, hp, Phase.drives])
        (by simp [Phase.beforeData]) (fun _ => h.inData (by rw [hp]; rfl)) (h.noneYet (by rw [hp]; rfl))
  | ackEnds hp _ _ =>
    have zero : s.bitcnt = 0 := h.beforeData (by rw [hp]; rfl)
    exact inv_of_singleWire { regs with cnt := regs.budget } hd rfl hr ho (by simp [h.sampling, hp, Phase.drives])
      (by simp [Phase.beforeData]) (by simp [zero]) (h.noneYet (by rw [hp]; rfl))
  | nextBit hp _ _ hb =>
    obtain ⟨shifted, count⟩ := h.shifted hp
    exact inv_of_singleWire { shifted with cnt := regs.budget } hd rfl hr ho (by simp [h.sampling, hp, Phase.drives])
      (by simp [Phase.beforeData]) (fun _ => count.trans_lt (by omega)) (h.noneYet (by rw [hp]; rfl))
  | publishes hp _ _ hb hk =>
    obtain ⟨shifted, count⟩ := h.shifted hp
    have full : (shiftBit (pinSample s)).bitcnt = 40 := BitVec.eq_of_toNat_eq (count.trans (by simp [hb]))
    exact inv_of_idle { shifted.publish full hk with } rfl (fun hd => by cases hd) (h.sampling (by rw [hp]; rfl))
  | mismatches hp _ _ _ _ => exact inv_swrdFails (h.shifted hp).1 .crc

/-! The engine keeps the invariant -/

/-- An engine command that ends keeps the registers as they are just before its end (rule R26, rule R160). -/
theorem Inv.ended {s : State} (h : Inv s) (hp : s.phase.drives = false) {u t : State} (hu : RegInv u)
    (ht : t = { u with err := t.err, done := true, phase := .idle }) (hm : u.pinmode = s.pinmode) : Inv t := by
  rw [ht]
  exact inv_of_idle { hu with } rfl (fun hd => by cases hd) (hm.trans (h.sampling hp))

/-- The answer `Ok` in RC_RD or RC_WR (rule R22, rule R133). -/
theorem inv_onOk {s : State} {i : Instr} (h : Inv s) (hd : decode s.cmd = .ok i) (hr : s.done = false)
    (hp : s.phase = .rcRd ∨ s.phase = .rcWr) (hi : runsIn i s.phase = true) (r : Request)
    (rest : List Config.BusAnswer) (d : BitVec 64) : Inv (onOk i s.phase d (taken r rest s)) := by
  have regs : RegInv (taken r rest s) := { h.regs with }
  have quiet : s.phase.drives = false := by obtain hp | hp := hp <;> rw [hp] <;> rfl
  cases i with
  | swrd => obtain hp | hp := hp <;> rw [hp] at hi <;> cases hi
  | unpk => cases hi
  | rdreg reg w inc =>
    have two : widthBytes w ≤ 8 := by cases w <;> decide
    exact h.ended quiet (regs.storeResponse (h.reading (by simpa [runsIn] using hi)) two d) rfl rfl
  | xfer nreq nresp =>
    obtain ⟨-, -, h8⟩ := wellFormed_xfer_iff.mp (wellFormed_of_decode hd)
    exact h.ended quiet (regs.storeResponse (h.reading (by simpa [runsIn] using hi)) h8 d) rfl rfl
  | wrreg reg value => exact h.ended quiet regs rfl rfl
  | idchk reg expect =>
    have stored := regs.storeResponse (h.reading (by simpa [runsIn] using hi)) (m := 1) (by decide) d
    exact h.ended quiet (u := idchkJudge expect d (taken r rest s)) { stored with } rfl rfl
  | rmw reg mask bits slot =>
    obtain hp | hp := hp <;> rw [hp]
    · have stored := regs.storeResponse (h.reading hp) (m := 1) (by decide) d
      refine inv_of_transport (t := rmwMerge mask bits d (taken r rest s)) { stored with } hd (.inr rfl) rfl hr
        (h.outcome hr) (h.sampling quiet) (fun hq => by cases hq) ?_ (fun _ _ he => by cases he)
      rintro _ _ _ _ - ⟨⟩
      refine ⟨rfl, ?_⟩
      rw [rmwMerge_newval, rmwMerge_resp, fillResp_getElem 1 d _ (by decide)]
      rfl
    · exact h.ended quiet (regs.recordDivisor slot) rfl (recordDivisor_pinmode _ _)

theorem engineMove_keeps_inv {s t : State} {i : Instr} (h : Inv s) (hd : decode s.cmd = .ok i) (hr : s.done = false)
    (hm : EngineMove s i t) : Inv t := by
  have regs := h.regs
  have ho : s.err = .none := h.outcome hr
  cases hm with
  | reads hp hi hnot =>
    exact inv_of_transport regs.readBegun hd (.inl rfl) hi hr ho (h.sampling (by rw [hp]; rfl)) (fun _ => rfl)
      (fun _ _ _ _ hq => by cases hq) (fun reg expect he => absurd he (hnot reg expect))
  | checks hp =>
    exact inv_of_transport { regs.readBegun with } hd (.inl rfl) rfl hr ho (h.sampling (by rw [hp]; rfl)) (fun _ => rfl)
      (fun _ _ _ _ hq => by cases hq) (fun _ _ _ => rfl)
  | writes hp =>
    exact inv_of_transport { regs with } hd (.inr rfl) rfl hr ho (h.sampling (by rw [hp]; rfl))
      (fun hq => by cases hq) (fun _ _ _ _ _ he => by cases he) (fun _ _ he => by cases he)
  | unpacks hp =>
    exact inv_of_idle (regs.unpack _ _ _ _ _) hp (fun hd => by cases hd) (h.sampling (by rw [hp]; rfl))
  | refuses hp _ =>
    exact inv_of_idle { regs with } hp (fun hd => by cases hd) (h.sampling (by rw [hp]; rfl))
  | waits _ _ => exact h
  | fails hq _ _ =>
    obtain ⟨hp, -⟩ := requestOf_isSome_iff.mp (Option.isSome_of_eq_some hq)
    exact h.ended (u := taken _ _ s) (by obtain hp | hp := hp <;> rw [hp] <;> rfl) { regs with } rfl rfl
  | answers hq _ _ =>
    obtain ⟨hp, hi⟩ := requestOf_isSome_iff.mp (Option.isSome_of_eq_some hq)
    exact inv_onOk h hd hr hp hi _ _ _

/-! The whole machine keeps the invariant -/

/-- A step of the command in CMD, be it its accept or a later one. -/
theorem exec_keeps_inv {s t : State} {i : Instr} (h : Inv s) (hd : decode s.cmd = .ok i) (hr : s.done = false)
    (he : exec i s = .next t) : Inv t := by
  obtain ⟨rfl, hm⟩ | ⟨-, hm⟩ := exec_cases he
  · exact swrdMove_keeps_inv h hd hr hm
  · exact engineMove_keeps_inv h hd hr hm

/-- No clause speaks of the host accesses still to come. -/
theorem Inv.served {s : State} (h : Inv s) (rest : List Input) : Inv { s with inputs := rest } := { h with }

/-- The accept clears DONE and ERR, which an idle block may do at any time (rule R26). -/
theorem Inv.acceptWord {s : State} (h : Inv s) (hp : s.phase = .idle) (w : Word) : Inv (acceptWord w s) :=
  inv_of_idle { h.regs with } hp (fun _ => rfl) (h.sampling (by rw [hp]; rfl))

/-- Settles O51. -/
theorem resetMeetsTheInvariant : Obligations.ResetMeetsTheInvariant :=
  inv_of_idle
    { budget := by decide, cnt := by decide, lowdur := by decide, hold := rfl, rlen := by decide, respTail := by decide
      bitcnt := by decide, frame := by decide, results := fun hv => (by cases hv)
      noResults := fun _ => ⟨rfl, rfl, rfl⟩, snapshot := fun _ => rfl, noValue := fun _ => ⟨rfl, rfl, rfl⟩ }
    rfl (fun _ => rfl) rfl

theorem Inv.resetBlock {s : State} (h : Inv s) : Inv (resetBlock s) :=
  { resetMeetsTheInvariant with budget := h.budget, cnt := h.budget, lowdur := h.budget }

/-- Settles O52: a step is a step of the command in CMD, an accept, or an access that leaves what `Inv` speaks of alone.
-/
theorem stepKeepsTheInvariant : Obligations.StepKeepsTheInvariant := by
  intro s t h hs
  cases step_cases hs with
  | resets _ => exact (h.served _).resetBlock
  | idles _ _ => exact h.served _
  | runs _ hp hd he => exact exec_keeps_inv (h.served s.inputs.tail) hd (h.running hp) he
  | @starts w rest _ _ _ hp hd he => exact exec_keeps_inv ((h.served rest).acceptWord hp w) hd rfl he
  | refuses _ hp _ => exact inv_of_idle { h.regs with } hp (fun hd => by cases hd) (h.sampling (by rw [hp]; rfl))
  | reads _ => exact { h with }
  | writes _ _ => exact { h with }

end Sys2Proof.Machine
end

section
/-! Frames and owners: what each command leaves alone, and which command writes which register (rule R22, rule R23, rule
R27, rule R67, rule R118, rule R146). Settles O25, O40 to O45 and O55. -/

namespace Sys2Proof.Machine

/-! What SWRD leaves alone, and what the engine leaves alone -/

/-- The registers of the engine and the transport answers (rule R22, rule R23, rule R35, rule R44). -/
structure EngineSide where
  resp : Vector Byte 8
  rlen : BitVec 4
  data : Word
  conv : Conv
  ddiv : Byte
  dvalid : Bool
  s1 : Byte
  s2 : Byte
  idok : Bool
  newval : Byte
  bus : List Config.BusAnswer

/-- The engine's side of a state; `swrdMove_engineSide` says that SWRD does not change it. -/
def State.engineSide (s : State) : EngineSide :=
  ⟨s.resp, s.rlen, s.data, s.conv, s.ddiv, s.dvalid, s.s1, s.s2, s.idok, s.newval, s.bus⟩

/-- The registers of the single-wire unit, the pin and its answers (rule R21, rule R38, rule R41 to rule R43). -/
structure WireSide where
  b : Vector Byte 5
  bitcnt : BitVec 6
  humT : BitVec 12
  tempT : BitVec 16
  neg : Bool
  valid : Bool
  cnt : Nat
  lowdur : Nat
  hold : Nat
  pinmode : PinMode
  pinout : Bool
  pin : List Config.PinAnswer
  pinIndex : Nat

/-- The single-wire side of a state; `engineMove_wireSide` says that the engine does not change it. -/
def State.wireSide (s : State) : WireSide :=
  ⟨s.b, s.bitcnt, s.humT, s.tempT, s.neg, s.valid, s.cnt, s.lowdur, s.hold, s.pinmode, s.pinout, s.pin, s.pinIndex⟩

theorem swrdMove_engineSide {s t : State} (h : SwrdMove s t) : t.engineSide = s.engineSide := by
  cases h <;> simp [State.engineSide, swrdFails]

/-- Settles O25. -/
theorem swrdFrame : Obligations.SwrdFrame := by
  intro s t h
  have hh := exec_hostSide h
  have he := swrdMove_engineSide (swrdMove_of_execSwrd h)
  simp only [State.hostSide, State.engineSide, HostSide.mk.injEq, EngineSide.mk.injEq] at hh he
  tauto

theorem onOk_wireSide (i : Instr) (p : Phase) (d : BitVec 64) (s : State) : (onOk i p d s).wireSide = s.wireSide := by
  unfold onOk
  split <;> simp [State.wireSide]

theorem engineMove_wireSide {s t : State} {i : Instr} (h : EngineMove s i t) : t.wireSide = s.wireSide := by
  cases h with
  | answers _ _ _ => exact onOk_wireSide i s.phase _ _
  | reads | checks | writes | unpacks | refuses | waits | fails => rfl

/-- Settles O45. -/
theorem engineFrame : Obligations.EngineFrame := by
  intro i s t hi h
  have hh := exec_hostSide h
  obtain ⟨rfl, -⟩ | ⟨-, hm⟩ := exec_cases h
  · exact absurd rfl hi
  · have hw := engineMove_wireSide hm
    simp only [State.hostSide, State.wireSide, HostSide.mk.injEq, WireSide.mk.injEq] at hh hw
    tauto

/-! What only the host side writes -/

/-- Settles O55: no command's step writes the parameters, and neither does an access or reset. -/
theorem stepKeepsTheParameters : Obligations.StepKeepsTheParameters := by
  intro s t h
  cases step_cases h with
  | runs _ _ _ he | starts _ _ _ he => exact congrArg HostSide.params (exec_hostSide he)
  | resets | idles | refuses | reads | writes => rfl

theorem exec_operands {i : Instr} {s t : State} (h : exec i s = .next t) :
    t.cmd = s.cmd ∧ t.arg = s.arg ∧ t.devAddr = s.devAddr := by
  have hh := exec_hostSide h
  exact ⟨congrArg HostSide.cmd hh, congrArg HostSide.arg hh, congrArg HostSide.devAddr hh⟩

/-- Settles O44. -/
theorem operandsCannotChangeUnderACommand : Obligations.OperandsCannotChangeUnderACommand := by
  refine ⟨fun s t hp h => ?_, fun i s t => exec_operands⟩
  cases step_cases h with
  | resets hi => exact .inr ⟨_, hi⟩
  | runs _ _ _ he =>
    have kept := exec_operands he
    exact .inl kept
  | starts _ hidle | refuses _ hidle => exact absurd hidle hp
  | idles | reads => exact .inl ⟨rfl, rfl, rfl⟩
  | writes _ hkept => exact .inl ⟨rfl, hkept hp⟩

/-! The owner of SCALE -/

/-- What the write of RMW, answered `Ok`, does to SCALE (rule R146). -/
theorem recordDivisor_scale (slot : Slot) (s : State) :
    ((recordDivisor slot s).s1 = s.s1 ∧ (recordDivisor slot s).s2 = s.s2) ∨
    (slot = .s1 ∧ (recordDivisor slot s).s1 = s.arg.extractLsb' 0 8 ∧ (recordDivisor slot s).s2 = s.s2 ∨
      slot = .s2 ∧ (recordDivisor slot s).s1 = s.s1 ∧ (recordDivisor slot s).s2 = s.arg.extractLsb' 0 8) := by
  cases slot with
  | none => exact .inl ⟨rfl, rfl⟩
  | s1 => exact .inr (.inl ⟨rfl, rfl, rfl⟩)
  | s2 => exact .inr (.inr ⟨rfl, rfl, rfl⟩)

theorem onOk_scale {s : State} {i : Instr} {r : Request} (hr : requestOf i s = some r) (d : BitVec 64)
    (rest : List Config.BusAnswer) :
    ((onOk i s.phase d (taken r rest s)).s1 = s.s1 ∧ (onOk i s.phase d (taken r rest s)).s2 = s.s2) ∨
    ∃ reg mask bits slot, s.phase = .rcWr ∧ i = .rmw reg mask bits slot ∧
      (slot = .s1 ∧ (onOk i s.phase d (taken r rest s)).s1 = s.arg.extractLsb' 0 8 ∧
          (onOk i s.phase d (taken r rest s)).s2 = s.s2 ∨
        slot = .s2 ∧ (onOk i s.phase d (taken r rest s)).s1 = s.s1 ∧
          (onOk i s.phase d (taken r rest s)).s2 = s.arg.extractLsb' 0 8) := by
  obtain ⟨hp | hp, -⟩ := requestOf_isSome_iff.mp (Option.isSome_of_eq_some hr) <;> rw [hp]
  · cases i <;> exact .inl ⟨rfl, rfl⟩
  · cases i with
    | rmw reg mask bits slot =>
      obtain h | h := recordDivisor_scale slot (taken r rest s)
      · exact .inl h
      · exact .inr ⟨reg, mask, bits, slot, rfl, rfl, h⟩
    | swrd | rdreg | xfer | wrreg | unpk | idchk => exact .inl ⟨rfl, rfl⟩

/-- SCALE under one step of a command. -/
theorem exec_scale {i : Instr} {s t : State} (h : exec i s = .next t) :
    (t.s1 = s.s1 ∧ t.s2 = s.s2) ∨
    ∃ reg mask bits slot a rest, s.phase = .rcWr ∧ i = .rmw reg mask bits slot ∧ s.bus = a :: rest ∧ a.fail = false ∧
      (slot = .s1 ∧ t.s1 = s.arg.extractLsb' 0 8 ∧ t.s2 = s.s2 ∨
        slot = .s2 ∧ t.s1 = s.s1 ∧ t.s2 = s.arg.extractLsb' 0 8) := by
  obtain ⟨-, hm⟩ | ⟨-, hm⟩ := exec_cases h
  · have he := swrdMove_engineSide hm
    exact .inl ⟨congrArg EngineSide.s1 he, congrArg EngineSide.s2 he⟩
  · cases hm with
    | @answers _ r a rest hr hb hf =>
      obtain hs | ⟨reg, mask, bits, slot, hp, hi, hs⟩ := onOk_scale hr a.rdata rest
      · exact .inl hs
      · exact .inr ⟨reg, mask, bits, slot, a, rest, hp, hi, hb, hf, hs⟩
    | reads | checks | writes | unpacks | refuses | waits | fails => exact .inl ⟨rfl, rfl⟩

/-- Settles O40. -/
theorem scaleIsWrittenOnlyByRmw : Obligations.ScaleIsWrittenOnlyByRmw := by
  intro s t h
  cases step_cases h with
  | resets hi => exact .inr (.inl ⟨_, hi⟩)
  | runs _ _ hd he =>
    obtain hs | ⟨reg, mask, bits, slot, a, rest, hp, rfl, hb, hf, hs⟩ := exec_scale he
    · exact .inl hs
    · exact .inr (.inr ⟨reg, mask, bits, slot, a, rest, hp, hd, hb, hf, hs⟩)
  | starts _ hidle _ he =>
    obtain hs | ⟨_, _, _, _, _, _, hp, -⟩ := exec_scale he
    · exact .inl hs
    · rw [acceptWord_phase] at hp
      cases hidle.symm.trans hp
  | idles | refuses | reads | writes => exact .inl ⟨rfl, rfl⟩

/-! The owner of DATA, CONV, DDIV and DVALID -/

theorem onOk_snapshot (i : Instr) (p : Phase) (d : BitVec 64) (s : State) :
    (onOk i p d s).data = s.data ∧ (onOk i p d s).conv = s.conv ∧ (onOk i p d s).ddiv = s.ddiv ∧
    (onOk i p d s).dvalid = s.dvalid := by
  unfold onOk
  split <;> simp

/-- The Measurement under one step of a command (rule R23). -/
theorem exec_snapshot {i : Instr} {s t : State} (h : exec i s = .next t) :
    (t.data = s.data ∧ t.conv = s.conv ∧ t.ddiv = s.ddiv ∧ t.dvalid = s.dvalid) ∨
    s.phase = .idle ∧ ∃ off w order sign conv, i = .unpk off w order sign conv := by
  obtain ⟨-, hm⟩ | ⟨-, hm⟩ := exec_cases h
  · have he := swrdMove_engineSide hm
    exact .inl ⟨congrArg EngineSide.data he, congrArg EngineSide.conv he, congrArg EngineSide.ddiv he,
      congrArg EngineSide.dvalid he⟩
  · cases hm with
    | unpacks hp => exact .inr ⟨hp, _, _, _, _, _, rfl⟩
    | answers _ _ _ => exact .inl (onOk_snapshot i s.phase _ _)
    | reads | checks | writes | refuses | waits | fails => exact .inl ⟨rfl, rfl, rfl, rfl⟩

/-- Settles O41. -/
theorem measurementSnapshotIsStable : Obligations.MeasurementSnapshotIsStable := by
  intro s t h
  cases step_cases h with
  | resets hi => exact .inr (.inl ⟨_, hi⟩)
  | runs _ hp _ he => exact .inl ((exec_snapshot he).resolve_right fun hu => hp hu.1)
  | starts hi hp hd he =>
    obtain hs | ⟨-, off, w, order, sign, conv, rfl⟩ := exec_snapshot he
    · exact .inl hs
    · exact .inr (.inr ⟨_, _, off, w, order, sign, conv, hi, hp, hd⟩)
  | idles | refuses | reads | writes => exact .inl ⟨rfl, rfl, rfl, rfl⟩

/-! The writers of RESP and RLEN -/

theorem onOk_bus (i : Instr) (p : Phase) (d : BitVec 64) (s : State) : (onOk i p d s).bus = s.bus := by
  unfold onOk
  split <;> simp

theorem onOk_out (i : Instr) (p : Phase) (d : BitVec 64) (s : State) : (onOk i p d s).out = s.out := by
  unfold onOk
  split <;> simp

/-- The response buffer under one step of a command (rule R22). -/
theorem exec_response {i : Instr} {s t : State} (h : exec i s = .next t) :
    (t.resp = s.resp ∧ t.rlen = s.rlen) ∨
    (s.phase = .rcRd ∧ ∃ a rest, s.bus = a :: rest ∧ a.fail = false ∧ t.bus = rest) ∨
    (s.phase = .idle ∧ runsIn i .rcRd = true ∧ t.resp = Vector.replicate 8 0 ∧ t.rlen = 0 ∧ t.phase = .rcRd) := by
  obtain ⟨-, hm⟩ | ⟨-, hm⟩ := exec_cases h
  · have he := swrdMove_engineSide hm
    exact .inl ⟨congrArg EngineSide.resp he, congrArg EngineSide.rlen he⟩
  · cases hm with
    | reads hp hi _ => exact .inr (.inr ⟨hp, hi, rfl, rfl, rfl⟩)
    | checks hp => exact .inr (.inr ⟨hp, rfl, rfl, rfl, rfl⟩)
    | @answers _ r a rest hr hb hf =>
      obtain ⟨hp | hp, -⟩ := requestOf_isSome_iff.mp (Option.isSome_of_eq_some hr)
      · exact .inr (.inl ⟨hp, a, rest, hb, hf, onOk_bus i s.phase _ _⟩)
      · left
        rw [hp]
        cases i with
        | rmw => exact ⟨recordDivisor_resp _ _, recordDivisor_rlen _ _⟩
        | wrreg => exact ⟨rfl, rfl⟩
        | swrd | rdreg | xfer | unpk | idchk => simp [requestOf, hp, writeRequestOf] at hr
    | writes | unpacks | refuses | waits | fails => exact .inl ⟨rfl, rfl⟩

/-- Settles O42. -/
theorem responseBufferWriters : Obligations.ResponseBufferWriters := by
  intro s t h
  cases step_cases h with
  | resets hi => exact .inr (.inl ⟨_, hi⟩)
  | runs _ hp _ he =>
    obtain hs | hs | ⟨hidle, -⟩ := exec_response he
    · exact .inl hs
    · exact .inr (.inr (.inl hs))
    · exact absurd hidle hp
  | starts hi hp hd he =>
    obtain hs | hs | ⟨-, hread, hresp, hrlen, hphase⟩ := exec_response he
    · exact .inl hs
    · exact .inr (.inr (.inl hs))
    · exact .inr (.inr (.inr ⟨hresp, hrlen, hphase, _, _, _, hi, hp, hd, hread⟩))
  | idles | refuses | reads | writes => exact .inl ⟨rfl, rfl⟩

/-! The owners of VALID and IDOK -/

/-- VALID under one step of a command (rule R27, rule R118). -/
theorem exec_valid {i : Instr} {s t : State} (h : exec i s = .next t) :
    t.valid = s.valid ∨ i = .swrd ∧ (s.phase = .idle ∧ t.valid = false ∨ s.phase = .datH ∧ t.valid = true) := by
  obtain ⟨rfl, hm⟩ | ⟨-, hm⟩ := exec_cases h
  · cases hm with
    | accepts hp => exact .inr ⟨rfl, .inl ⟨hp, rfl⟩⟩
    | publishes hp => exact .inr ⟨rfl, .inr ⟨hp, rfl⟩⟩
    | driveFails | drivesHigh | drivesLow | releases | sampleFails | counts | timesOut | lowEnds | ackEnds | nextBit
    | mismatches => exact .inl rfl
  · exact .inl (congrArg WireSide.valid (engineMove_wireSide hm))

theorem onOk_idok (i : Instr) (p : Phase) (d : BitVec 64) (s : State) :
    (onOk i p d s).idok = s.idok ∨ ∃ reg expect, i = .idchk reg expect := by
  unfold onOk
  split
  case h_6 reg expect => exact .inr ⟨reg, expect, rfl⟩
  all_goals exact .inl (by simp)

/-- IDOK under one step of a command (rule R27, rule R134). -/
theorem exec_idok {i : Instr} {s t : State} (h : exec i s = .next t) :
    t.idok = s.idok ∨
    ∃ reg expect, i = .idchk reg expect ∧ (s.phase = .idle ∧ t.idok = false ∨ s.phase = .rcRd) := by
  obtain ⟨-, hm⟩ | ⟨-, hm⟩ := exec_cases h
  · exact .inl (congrArg EngineSide.idok (swrdMove_engineSide hm))
  · cases hm with
    | checks hp => exact .inr ⟨_, _, rfl, .inl ⟨hp, rfl⟩⟩
    | answers hr _ _ =>
      obtain hk | ⟨reg, expect, rfl⟩ := onOk_idok i s.phase _ _
      · exact .inl hk
      · obtain ⟨-, hp⟩ := requestOf_isSome_iff.mp (Option.isSome_of_eq_some hr)
        exact .inr ⟨reg, expect, rfl, .inr (beq_iff_eq.mp hp)⟩
    | reads | writes | unpacks | refuses | waits | fails => exact .inl rfl

/-- Settles O43. -/
theorem flagOwners : Obligations.FlagOwners := by
  intro s t h
  cases step_cases h with
  | resets hi => exact ⟨.inr (.inl ⟨_, hi⟩), .inr (.inl ⟨_, hi⟩)⟩
  | runs _ hp hd he =>
    refine ⟨?_, ?_⟩
    · obtain hs | ⟨rfl, ⟨hidle, -⟩ | ⟨hdat, hv⟩⟩ := exec_valid he
      · exact .inl hs
      · exact absurd hidle hp
      · exact .inr (.inr (.inr ⟨hv, hdat, hd⟩))
    · obtain hs | ⟨reg, expect, rfl, ⟨hidle, -⟩ | hread⟩ := exec_idok he
      · exact .inl hs
      · exact absurd hidle hp
      · exact .inr (.inr (.inr ⟨hread, reg, expect, hd⟩))
  | starts hi hp hd he =>
    refine ⟨?_, ?_⟩
    · obtain hs | ⟨rfl, ⟨-, hv⟩ | ⟨hdat, -⟩⟩ := exec_valid he
      · exact .inl hs
      · exact .inr (.inr (.inl ⟨hv, _, _, hi, hp, hd⟩))
      · rw [acceptWord_phase] at hdat
        cases hp.symm.trans hdat
    · obtain hs | ⟨reg, expect, rfl, ⟨-, hv⟩ | hread⟩ := exec_idok he
      · exact .inl hs
      · exact .inr (.inr (.inl ⟨hv, _, _, reg, expect, hi, hp, hd⟩))
      · rw [acceptWord_phase] at hread
        cases hp.symm.trans hread
  | idles | refuses | reads | writes => exact ⟨.inl rfl, .inl rfl⟩

end Sys2Proof.Machine
end

section
/-! The machine goes on: one step of a command, of the sequencer and of the host port, and runs of them (rule R64, rule
R120, rule R147, rule R192). Settles O7, O10, O14, O15, O38, O53 and O54. -/

namespace Sys2Proof.Machine

/-! Single steps -/

/-- The input `none` lets the sequencer move. -/
theorem step_sequencer {s : State} {rest : List Input} (hi : s.inputs = .none :: rest) :
    step s = sequencerStep { s with inputs := rest } := step_input hi

/-- Settles O7: the accept by `step_legalWord`, the sequencer by `step_running` and `step_sequencer`. -/
theorem stepRunsTheDecodedCommand : Obligations.StepRunsTheDecodedCommand := by
  refine ⟨fun s w i rest hi hp hd => step_legalWord hd hp hi, fun s i hi hp hd => step_running hd hp hi, ?_⟩
  intro s i rest hi hp hd
  rw [step_sequencer hi]
  simp only [sequencerStep, if_neg hp, hd]

/-- Settles O10. -/
theorem operandRegisterWrites : Obligations.OperandRegisterWrites := by
  intro s w rest hp
  have idle : ({ s with inputs := rest } : State).busy = false := (busy_eq_false _).mpr hp
  refine ⟨fun hi => ?_, fun hi => ?_⟩
  · rw [step_input hi]
    simp [takeInput, hostWrite, writeArg, idle]
  · rw [step_input hi]
    simp [takeInput, hostWrite, writeDevAddr, idle]

/-- The port presents the request of the command in CMD (rule R44). -/
theorem request_of_decode {s : State} {i : Instr} (hd : decode s.cmd = .ok i) : s.request = requestOf i s := by
  rw [State.request, hd]
  rfl

/-- A request is presented in RC_RD and RC_WR only (rule R147). -/
theorem trReq_phase {s : State} (h : s.trReq = true) : s.phase = .rcRd ∨ s.phase = .rcWr := by
  cases hd : decode s.cmd with
  | error e =>
    rw [State.trReq, State.request, hd] at h
    cases h
  | ok i =>
    rw [State.trReq, request_of_decode hd] at h
    exact (requestOf_isSome_iff.mp h).1

/-- Settles O14: the block is idle after reset, so no request is presented. -/
theorem resetAtAnyTime : Obligations.ResetAtAnyTime := by
  intro s rest hi
  refine ⟨resetBlock { s with inputs := rest }, step_input hi, rfl, ?_, rfl⟩
  refine Bool.eq_false_iff.mpr fun h => ?_
  obtain hp | hp := trReq_phase h <;> cases hp

/-! Runs -/

theorem run_of_fixed {s : State} (h : step s = .next s) (n : Nat) : run n s = .next s := by
  induction n with
  | zero => exact run_zero s
  | succ n ih => rw [run_succ_of_next h, ih]

theorem step_idle {s : State} (hp : s.phase = .idle) (hi : s.inputs = []) : step s = .next s := by
  rw [step_noInput hi]
  exact if_pos hp

/-- Settles O15. -/
theorem idleBlockDoesNothing : Obligations.IdleBlockDoesNothing :=
  fun _ n hp hi => run_of_fixed (step_idle hp hi) n

/-- With a request outstanding CMD holds the command that makes it (rule R44, rule R147). -/
theorem Inv.requests {s : State} (h : Inv s) (hp : s.phase = .rcRd ∨ s.phase = .rcWr) :
    ∃ i r, decode s.cmd = .ok i ∧ requestOf i s = some r := by
  obtain ⟨i, hd, hi⟩ := h.command (by obtain hp | hp := hp <;> simp [hp])
  obtain ⟨r, hr⟩ := Option.isSome_iff_exists.mp (requestOf_isSome_iff.mpr ⟨hp, hi⟩)
  exact ⟨i, r, hd, hr⟩

/-- In RC_RD and RC_WR a silent host lets the command perform its request. -/
theorem step_of_request {s : State} {i : Instr} {r : Request} (hd : decode s.cmd = .ok i) (hr : requestOf i s = some r)
    (hi : s.inputs = []) : step s = transact r (onOk i s.phase) s := by
  obtain ⟨hp, -⟩ := requestOf_isSome_iff.mp (Option.isSome_of_eq_some hr)
  rw [step_running hd (by obtain hp | hp := hp <;> simp [hp]) hi, exec_of_request hr]

/-- Settles O38. -/
theorem unansweredTransportIsStuck : Obligations.UnansweredTransportIsStuck := by
  intro s h hp hb
  refine ⟨fun hi => run_of_fixed ?_, fun rest hi => ⟨_, step_input hi, rfl⟩⟩
  obtain ⟨i, r, hd, hr⟩ := h.requests hp
  rw [step_of_request hd hr hi, transact_waits hb]

/-! No step stops (note 12) -/

theorem requestStep_next (l : Bool) (k : State → State) (s : State) : ∃ t, requestStep l k s = .next t := by
  unfold requestStep
  split <;> exact ⟨_, rfl⟩

theorem transact_next (r : Request) (k : BitVec 64 → State → State) (s : State) : ∃ t, transact r k s = .next t := by
  unfold transact
  split
  · exact ⟨_, rfl⟩
  · split <;> exact ⟨_, rfl⟩

theorem startIf_next (legal : Bool) (k : State → State) (s : State) : ∃ t, startIf legal k s = .next t := by
  cases legal <;> exact ⟨_, rfl⟩

theorem dataEnds_goes_on {s : State} (hb : s.bitcnt.toNat < 40) : ∃ t, dataEnds s = .next t := by
  obtain ⟨-, ho⟩ | ⟨-, ho⟩ | ⟨h39, -⟩ := dataEnds_cases (rfl : dataEnds s = _)
  · exact ⟨_, ho⟩
  · exact ⟨_, ho⟩
  · omega

theorem edge_goes_on {s : State} {l : Bool} (hp : s.phase.measures = some l)
    (hb : s.phase.inData = true → s.bitcnt.toNat < 40) : ∃ t, edge s.phase (pinSample s) = .next t := by
  obtain ⟨hp | hp, -⟩ | ⟨hp | hp, -⟩ := measures_eq_some_iff.mp hp <;> rw [hp]
  · exact ⟨_, rfl⟩
  · exact ⟨_, rfl⟩
  · exact ⟨_, rfl⟩
  · exact dataEnds_goes_on (s := pinSample s) (hb (by rw [hp]; rfl))

theorem measures_goes_on {s : State} {l : Bool} (hp : s.phase.measures = some l) (hc : s.cnt < s.params.budget)
    (hb : s.phase.inData = true → s.bitcnt.toNat < 40) : ∃ t, execSwrd s = .next t := by
  obtain ⟨t, he⟩ := edge_goes_on hp hb
  rw [execSwrd_measures hp]
  obtain ⟨-, ho⟩ | ⟨-, -, ho⟩ | ⟨-, -, -, ho⟩ | ⟨-, -, -, ho⟩ | ⟨-, -, hc', -⟩ :=
    measureStep_cases (rfl : measureStep l (edge s.phase) s = _)
  · exact ⟨_, ho⟩
  · exact ⟨t, ho.trans he⟩
  · exact ⟨_, ho⟩
  · exact ⟨_, ho⟩
  · omega

/-- SWRD has a row for every state with CNT below BUDGET and a data bit to read (rule R120). -/
theorem execSwrd_goes_on {s : State} (hw : s.phase.singleWire = true) (hc : s.cnt < s.params.budget)
    (hb : s.phase.inData = true → s.bitcnt.toNat < 40) : ∃ t, execSwrd s = .next t := by
  cases hp : s.phase with
  | ackL | ackH | datL | datH => exact measures_goes_on (by rw [hp]; rfl) hc hb
  | rqH1 | rqL | rqH2 =>
    simp only [execSwrd, hp]
    exact requestStep_next _ _ s
  | idle | rcRd | rcWr =>
    rw [hp] at hw
    cases hw

theorem exec_idle_next {s : State} (hp : s.phase = .idle) (i : Instr) : ∃ t, exec i s = .next t := by
  cases i with
  | swrd => exact ⟨_, execSwrd_eq_next_iff.mpr (.accepts hp)⟩
  | rdreg reg w inc => exact ⟨_, execRdreg_idle hp reg w inc⟩
  | wrreg reg value => exact ⟨_, execWrreg_idle hp reg value⟩
  | idchk reg expect => exact ⟨_, execIdchk_idle hp reg expect⟩
  | xfer | rmw | unpk =>
    simp only [exec, execXfer, execRmw, execUnpk, hp]
    exact startIf_next _ _ s

/-- A command that runs is SWRD in a phase of its own, or has a request outstanding (rule R25). -/
theorem runsIn_cases {i : Instr} {p : Phase} (h : runsIn i p = true) :
    i = .swrd ∧ p.singleWire = true ∨ p = .rcRd ∨ p = .rcWr := by
  cases i with
  | swrd => exact .inl ⟨rfl, h⟩
  | unpk => cases h
  | rdreg | xfer | idchk => exact .inr (.inl (beq_iff_eq.mp h))
  | wrreg => exact .inr (.inr (beq_iff_eq.mp h))
  | rmw => exact .inr (by simpa [runsIn] using h)

theorem Inv.exec_goes_on {s : State} (h : Inv s) {i : Instr} (hd : decode s.cmd = .ok i) (hp : s.phase ≠ .idle) :
    ∃ t, exec i s = .next t := by
  obtain ⟨j, hj, hi⟩ := h.command hp
  obtain rfl : j = i := Except.ok.inj (hj.symm.trans hd)
  obtain ⟨rfl, hw⟩ | hw := runsIn_cases hi
  · exact execSwrd_goes_on hw h.cnt h.inData
  · obtain ⟨r, hr⟩ := Option.isSome_iff_exists.mp (requestOf_isSome_iff.mpr ⟨hw, hi⟩)
    rw [exec_of_request hr]
    exact transact_next r _ s

theorem Inv.sequencer_goes_on {s : State} (h : Inv s) : ∃ t, sequencerStep s = .next t := by
  obtain ⟨-, hs⟩ | ⟨hp, i, hd, hs⟩ | ⟨hp, e, hd, -⟩ := sequencerStep_cases s
  · exact ⟨s, hs⟩
  · rw [hs]
    exact h.exec_goes_on hd hp
  · obtain ⟨i, hi, -⟩ := h.command hp
    cases hd.symm.trans hi

theorem accept_next {s : State} (hp : s.phase = .idle) (w : Word) : ∃ t, accept w s = .next t := by
  obtain ⟨i, -, ha⟩ | ⟨e, -, ha⟩ := accept_cases w s <;> rw [ha]
  · exact exec_idle_next (s := acceptWord w s) hp i
  · exact ⟨_, rfl⟩

theorem hostWrite_next (addr : HostAddr) (w : Word) (s : State) : ∃ t, hostWrite addr w s = .next t := by
  obtain ⟨-, -, hw⟩ | ⟨-, hb, hw⟩ | ⟨-, -, hw⟩ | ⟨-, -, hw⟩ | ⟨-, hw⟩ | ⟨-, -, hw⟩ | ⟨-, -, hw⟩ | ⟨-, hw⟩ :=
    hostWrite_cases addr w s <;> rw [hw]
  case inr.inl => exact accept_next ((busy_eq_false s).mp hb) w
  all_goals exact ⟨_, rfl⟩

/-- Settles O53. -/
theorem invariantStatesNeverStop : Obligations.InvariantStatesNeverStop := by
  intro s h
  cases hi : s.inputs with
  | nil =>
    rw [step_noInput hi]
    exact h.sequencer_goes_on
  | cons i rest =>
    rw [step_input hi]
    cases i with
    | reset | read => exact ⟨_, rfl⟩
    | write addr w => exact hostWrite_next addr w _
    | none => exact (h.served rest).sequencer_goes_on

/-- From a state that meets the invariant every run goes on and keeps it (O52, O53). -/
theorem Inv.run {s : State} (h : Inv s) (n : Nat) : ∃ t, run n s = .next t ∧ Inv t ∧ t.params = s.params := by
  induction n generalizing s with
  | zero => exact ⟨s, run_zero s, h, rfl⟩
  | succ n ih =>
    obtain ⟨t, ht⟩ := invariantStatesNeverStop s h
    obtain ⟨u, hu, inv, params⟩ := ih (stepKeepsTheInvariant s t h ht)
    exact ⟨u, (run_succ_of_next ht).trans hu, inv, params.trans (stepKeepsTheParameters s t ht)⟩

/-- Settles O54: no clause of `Inv` but those on the counters depends on what is set beside the reset values. -/
theorem everyRunFromResetGoesOn : Obligations.EveryRunFromResetGoesOn := by
  intro params inputs pin bus n hb
  have start : Inv { State.reset with params := params, inputs := inputs, pin := pin, bus := bus } :=
    { resetMeetsTheInvariant with budget := hb, cnt := hb, lowdur := hb }
  exact start.run n

end Sys2Proof.Machine
end

section
/-! What the outside sees: the transport port and the record of outputs (rule R44, rule R53, note 8). Settles O46 and
O47. -/

namespace Sys2Proof.Machine

/-- Taking an answer records the request performed and no other output, whatever the answer is (note 8). -/
theorem transact_taken {i : Instr} {s t : State} {r : Request} {a : Config.BusAnswer} {rest : List Config.BusAnswer}
    (hr : requestOf i s = some r) (hb : s.bus = a :: rest) (h : exec i s = .next t) :
    t.bus = rest ∧ t.out = .transport r :: s.out := by
  cases engineMove_of_request hr h with
  | reads hp | checks hp | writes hp | unpacks hp | refuses hp => simp [requestOf, hp] at hr
  | waits _ hn => cases hn.symm.trans hb
  | fails hr' hb' _ =>
    cases hr'.symm.trans hr
    cases hb'.symm.trans hb
    exact ⟨rfl, rfl⟩
  | answers hr' hb' _ =>
    cases hr'.symm.trans hr
    cases hb'.symm.trans hb
    exact ⟨onOk_bus i s.phase _ _, onOk_out i s.phase _ _⟩

/-- Settles O46. -/
theorem portShowsTheRequestPerformed : Obligations.PortShowsTheRequestPerformed := by
  intro s h
  refine ⟨⟨trReq_phase, fun hp => ?_⟩, fun t a rest hp hi hb hs => ?_⟩
  · obtain ⟨i, r, hd, hr⟩ := h.requests hp
    rw [State.trReq, request_of_decode hd, hr]
    rfl
  · obtain ⟨i, r, hd, hr⟩ := h.requests hp
    rw [step_running hd (by obtain hp | hp := hp <;> simp [hp]) hi] at hs
    obtain ⟨hbus, hout⟩ := transact_taken hr hb hs
    exact ⟨hbus, r, (request_of_decode hd).trans hr, hout⟩

/-- The outputs of one step of SWRD, newest first: the most is the drive, its hold and the release (rule R120). -/
theorem swrdMove_out {s t : State} (h : SwrdMove s t) : ∃ new, t.out = new ++ s.out ∧ new.length ≤ 3 := by
  cases h with
  | accepts => exact ⟨[], rfl, by decide⟩
  | driveFails => exact ⟨[.release, .drive _], rfl, by simp⟩
  | drivesHigh => exact ⟨[.wait s.params.holdIdle, .drive true], rfl, by simp⟩
  | drivesLow => exact ⟨[.wait s.params.holdLow, .drive false], rfl, by simp⟩
  | releases => exact ⟨[.release, .wait s.params.holdGo, .drive true], rfl, by simp⟩
  | counts => exact ⟨[.wait 1, .sample], rfl, by simp⟩
  | timesOut => exact ⟨[.release, .wait 1, .sample], rfl, by simp⟩
  | sampleFails | mismatches => exact ⟨[.release, .sample], rfl, by simp⟩
  | lowEnds | ackEnds | nextBit | publishes => exact ⟨[.sample], rfl, by simp⟩

theorem exec_out {i : Instr} {s t : State} (h : exec i s = .next t) : ∃ new, t.out = new ++ s.out ∧ new.length ≤ 3 := by
  obtain ⟨-, hm⟩ | ⟨-, hm⟩ := exec_cases h
  · exact swrdMove_out hm
  · cases hm with
    | reads | checks | writes | unpacks | refuses | waits => exact ⟨[], rfl, by simp⟩
    | fails => exact ⟨[.transport _], rfl, by simp⟩
    | answers => exact ⟨[.transport _], onOk_out i s.phase _ _, by simp⟩

/-- An accept uses no primitive (rule R26). -/
theorem exec_idle_out {i : Instr} {s t : State} (hp : s.phase = .idle) (h : exec i s = .next t) : t.out = s.out := by
  obtain ⟨rfl, -⟩ | ⟨-, hm⟩ := exec_cases h
  · cases (execSwrd_of_swrdMove (.accepts hp)).symm.trans h
    rfl
  · cases hm with
    | reads | checks | writes | unpacks | refuses | waits => rfl
    | fails hr | answers hr => simp [requestOf, hp] at hr

/-- Settles O47. -/
theorem outputsOnlyGrow : Obligations.OutputsOnlyGrow := by
  intro s t h
  cases step_cases h with
  | runs _ hp _ he =>
    have grows := exec_out he
    exact ⟨grows, fun idle => absurd idle hp, fun idle => absurd idle hp⟩
  | @starts w rest _ _ _ hp _ he =>
    have grows := exec_out he
    have quiet : t.out = s.out := exec_idle_out (s := acceptWord w { s with inputs := rest }) hp he
    exact ⟨grows, fun _ _ => quiet, fun _ _ _ _ _ => quiet⟩
  | reads hi =>
    refine ⟨⟨[_], rfl, by simp⟩, fun _ hi' => ?_, fun _ a w rest hi' => ?_⟩ <;> cases hi'.symm.trans hi
  | resets | idles | refuses | writes => exact ⟨⟨[], rfl, by simp⟩, fun _ _ => rfl, fun _ _ _ _ _ => rfl⟩

end Sys2Proof.Machine
end

section
/-! The step table of SWRD and what follows from it (rule R113, rule R118, rule R120). Settles O16, O17, O26 and O27. -/

namespace Sys2Proof.Machine

/-- Settles O16. -/
theorem swrdAccept_whole : Obligations.SwrdAccept := by
  intro s hp
  refine ⟨execSwrd_of_swrdMove (.accepts hp), fun rest hi => ?_⟩
  rw [step_legalWord ((decode_eq_swrd_iff _).mpr rfl) hp hi]
  exact execSwrd_of_swrdMove (s := acceptWord 0x10000000 { s with inputs := rest }) (.accepts hp)

theorem checksumOk_iff (b : Vector Byte 5) :
    checksumOk b = true ↔ (b[0].toNat + b[1].toNat + b[2].toNat + b[3].toNat) % 256 = b[4].toNat := by
  rw [checksumOk, beq_iff_eq, ← BitVec.toNat_inj, checksum, BitVec.toNat_ofNat]

/-- The fortieth bit completes the frame. -/
theorem shiftBit_last {s : State} (hb : s.bitcnt.toNat = 39) :
    shiftBit s = { s with b := shiftIn s.b 39 (decide (s.lowdur < s.cnt)), bitcnt := 40 } := by
  have full : s.bitcnt + 1 = 40 := by bv_omega
  rw [shiftBit, hb, full, pulseBit]

/-- Settles O17: each row is one constructor of `SwrdMove`. -/
theorem swrdStepTable : Obligations.SwrdStepTable := by
  intro s
  refine ⟨fun hp hf => ?_, fun hp hf => ?_, fun hp hf => ?_, fun hp hf => ?_, fun hp hf => ?_, fun hp hf hl => ?_,
    fun hp hf hc => ?_, fun hp hf hc => ?_, fun hp hf hl => ?_, fun hp hf hl hb => ?_, fun hp hf hl hb => ?_⟩
  · exact execSwrd_of_swrdMove (.drivesHigh hp hf)
  · exact execSwrd_of_swrdMove (.drivesLow hp hf)
  · refine (execSwrd_of_swrdMove (.releases hp hf)).trans ?_
    simp only [pinRelease, wait, pinDrive]
  · exact execSwrd_of_swrdMove (.driveFails hp hf)
  · have measuring : ∃ l, s.phase.measures = some l := by obtain hp | hp | hp | hp := hp <;> exact ⟨_, by rw [hp]; rfl⟩
    obtain ⟨l, hm⟩ := measuring
    exact execSwrd_of_swrdMove (.sampleFails hm hf)
  · have next : s.phase = .ackL ∧ (if s.phase = .ackL then Phase.ackH else .datH) = .ackH ∨
        s.phase = .datL ∧ (if s.phase = .ackL then Phase.ackH else .datH) = .datH := by
      obtain hp | hp := hp <;> simp [hp]
    exact execSwrd_of_swrdMove (.lowEnds next hf hl)
  · exact execSwrd_of_swrdMove (.counts (measures_eq_some_iff.mpr hp) hf hc)
  · refine (execSwrd_of_swrdMove (.timesOut (measures_eq_some_iff.mpr hp) hf hc)).trans ?_
    simp only [swrdFails, wait, pinSample]
  · exact execSwrd_of_swrdMove (.ackEnds hp hf hl)
  · exact execSwrd_of_swrdMove (.nextBit hp hf hl hb)
  · have last := shiftBit_last (s := pinSample s) hb
    have frame : (shiftBit s).b = shiftIn s.b 39 (decide (s.lowdur < s.cnt)) := congrArg State.b (shiftBit_last hb)
    simp only [← checksumOk_iff]
    split_ifs with hk
    · refine (execSwrd_of_swrdMove (.publishes hp hf hl hb (frame ▸ hk))).trans ?_
      rw [last]
      rfl
    · refine (execSwrd_of_swrdMove (.mismatches hp hf hl hb (frame ▸ Bool.eq_false_iff.mpr hk))).trans ?_
      rw [last]
      rfl

/-- SWRD's step is the same whatever ARG and DEV_ADDR hold (rule R118). -/
theorem swrdMove_operands {s t : State} (h : SwrdMove s t) (arg : Word) (addr : BusAddr) :
    SwrdMove { s with arg := arg, devAddr := addr } { t with arg := arg, devAddr := addr } := by
  cases h with
  | accepts hp => exact .accepts hp
  | driveFails hp hf => exact .driveFails hp hf
  | drivesHigh hp hf => exact .drivesHigh hp hf
  | drivesLow hp hf => exact .drivesLow hp hf
  | releases hp hf => exact .releases hp hf
  | sampleFails hp hf => exact .sampleFails hp hf
  | counts hp hf hc => exact .counts hp hf hc
  | timesOut hp hf hc => exact .timesOut hp hf hc
  | lowEnds hp hf hl => exact .lowEnds hp hf hl
  | ackEnds hp hf hl => exact .ackEnds hp hf hl
  | nextBit hp hf hl hb => exact .nextBit hp hf hl hb
  | publishes hp hf hl hb hk => exact .publishes hp hf hl hb hk
  | mismatches hp hf hl hb hk => exact .mismatches hp hf hl hb hk

/-- Settles O26. -/
theorem swrdIgnoresOperandRegisters : Obligations.SwrdIgnoresOperandRegisters :=
  fun _ _ arg addr h => execSwrd_of_swrdMove (swrdMove_operands (swrdMove_of_execSwrd h) arg addr)

/-- Settles O27: of the moves of SWRD only the accept and `publishes` touch VALID and the results. -/
theorem checksumGatesResults : Obligations.ChecksumGatesResults := by
  intro s t h
  cases swrdMove_of_execSwrd h with
  | accepts hp => exact .inl ⟨hp, rfl, rfl, rfl, rfl⟩
  | publishes hp _ _ hb hk =>
    have full : (shiftBit s).bitcnt = 40 := congrArg State.bitcnt (shiftBit_last hb)
    exact .inr (.inr ⟨hp, full, beq_iff_eq.mp hk, rfl, rfl, rfl, rfl⟩)
  | driveFails hp => exact .inr (.inl ⟨by obtain hp | hp | hp := hp <;> simp [hp], rfl, rfl, rfl, rfl⟩)
  | sampleFails hp | counts hp | timesOut hp =>
    have running : s.phase ≠ .idle := fun hi => by
      rw [hi] at hp
      cases hp
    exact .inr (.inl ⟨running, rfl, rfl, rfl, rfl⟩)
  | lowEnds hp => exact .inr (.inl ⟨by obtain ⟨hp, -⟩ | ⟨hp, -⟩ := hp <;> simp [hp], rfl, rfl, rfl, rfl⟩)
  | drivesHigh hp | drivesLow hp | releases hp | ackEnds hp | nextBit hp | mismatches hp =>
    exact .inr (.inl ⟨by simp [hp], rfl, rfl, rfl, rfl⟩)

end Sys2Proof.Machine
end

section
/-! The frame bytes as integers and as bits (rule R109 to rule R111, rule R119). Settles O19 and O20. -/

namespace Sys2Proof.Machine

theorem toNat_humidityOf (b : Vector Byte 5) : (humidityOf b).toNat = 10 * b[0].toNat + b[1].toNat := by
  rw [humidityOf, BitVec.toNat_ofNat]
  omega

theorem magnitudeOf_eq (b : Vector Byte 5) : magnitudeOf b = 10 * (b[2].toNat % 128) + b[3].toNat := by
  have low : (b[2] &&& 0x7F).toNat = b[2].toNat % 128 := by
    rw [BitVec.toNat_and]
    exact Nat.and_two_pow_sub_one_eq_mod _ 7
  rw [magnitudeOf, low]

theorem magnitudeOf_le (b : Vector Byte 5) : magnitudeOf b ≤ 1525 := by
  rw [magnitudeOf_eq]
  omega

/-- TEMP_T holds the signed magnitude without wrapping. -/
theorem toInt_temperatureOf (b : Vector Byte 5) :
    (temperatureOf b).toInt = if b[2].getLsbD 7 then -(magnitudeOf b : Int) else (magnitudeOf b : Int) := by
  have hm := magnitudeOf_le b
  rw [temperatureOf, BitVec.toInt_ofInt, negOf]
  refine Int.bmod_eq_of_le ?_ ?_ <;> split_ifs <;> omega

theorem checksum_eq_add (b : Vector Byte 5) : checksum b = b[0] + b[1] + b[2] + b[3] := by
  apply BitVec.eq_of_toNat_eq
  simp [checksum, BitVec.toNat_add]

/-- Settles O19. -/
theorem frameArithmeticIsExact : Obligations.FrameArithmeticIsExact := by
  intro b
  have hm := magnitudeOf_le b
  have ht := toInt_temperatureOf b
  refine ⟨toNat_humidityOf b, ?_, ?_, ?_, ?_, BitVec.toNat_ofNat _ 8, checksum_eq_add b⟩
  · rw [toNat_humidityOf]
    omega
  · rw [ht, magnitudeOf_eq]
  · rw [ht]
    split_ifs <;> omega
  · rw [ht]
    split_ifs <;> omega

/-- One bit shifted into a byte: it stands at bit 0 and the others move up. -/
theorem getLsbD_shift_bit (x : Byte) (bit : Bool) {i : Nat} (hi : i < 8) :
    ((x <<< 1) ||| (BitVec.ofBool bit).setWidth 8).getLsbD i = if i = 0 then bit else x.getLsbD (i - 1) := by
  rw [BitVec.getLsbD_or, BitVec.getLsbD_shiftLeft, BitVec.getLsbD_setWidth, BitVec.getLsbD_ofBool]
  by_cases h0 : i = 0 <;> simp [h0, hi]

/-- The bytes after the first n bits. -/
def shiftedBits (f : Nat → Bool) (n : Nat) : Vector Byte 5 :=
  (List.range n).foldl (fun b j => shiftIn b j (f j)) (Vector.replicate 5 0)

theorem shiftedBits_succ (f : Nat → Bool) (n : Nat) : shiftedBits f (n + 1) = shiftIn (shiftedBits f n) n (f n) := by
  simp [shiftedBits, List.range_succ]

/-- While byte k / 8 holds m bits, bit k is the m - 1 - (k mod 8)th from below (rule R109). -/
theorem getLsbD_shiftedBits (f : Nat → Bool) {n : Nat} (hn : n ≤ 40) {k : Nat} (hk : k < n) :
    ((shiftedBits f n)[k / 8]'(by omega)).getLsbD (min 8 (n - 8 * (k / 8)) - 1 - k % 8) = f k := by
  induction n with
  | zero => omega
  | succ n ih =>
    simp only [shiftedBits_succ]
    rw [shiftIn_getElem _ _ _ (by omega)]
    by_cases hb : k / 8 = n / 8
    · rw [if_pos hb, getLsbD_shift_bit _ _ (by omega)]
      obtain rfl | hlt := Nat.lt_succ_iff_lt_or_eq.mp hk |>.symm
      · rw [if_pos (by omega)]
      · rw [if_neg (by omega), ← ih (by omega) hlt]
        congr 1
        omega
    · rw [if_neg hb, ← ih (by omega) (by omega)]
      congr 1
      omega

/-- Settles O20: after forty bits every byte holds eight. -/
theorem bitsStandMostSignificantFirst : Obligations.BitsStandMostSignificantFirst := by
  intro f k h
  have bit := getLsbD_shiftedBits f (le_refl 40) h
  rwa [show min 8 (40 - 8 * (k / 8)) - 1 - k % 8 = 7 - k % 8 by omega] at bit

end Sys2Proof.Machine
end

section
/-! `Measure` and `ReadBit` of the pseudocode (rule R105, rule R106, rule R114). Settles O21 and O22. -/

namespace Sys2Proof.Machine

section
variable {stream : Nat → Config.PinAnswer} {l : Bool}

/-- Sample p shows level l, without a fault. -/
def Shows (stream : Nat → Config.PinAnswer) (l : Bool) (p : Nat) : Prop :=
  (stream p).fault = false ∧ (stream p).level = l

theorem measureFrom_shows {fuel c p : Nat} (h : Shows stream l p) :
    measureFrom stream l (fuel + 1) c p = measureFrom stream l fuel (c + 1) (p + 1) := by
  obtain ⟨hf, hl⟩ := h
  simp [measureFrom, hf, hl]

/-- Samples at the level are counted and passed over. -/
theorem measureFrom_skips {j : Nat} (fuel : Nat) {c p : Nat} (h : ∀ k < j, Shows stream l (p + k)) :
    measureFrom stream l (fuel + j) c p = measureFrom stream l fuel (c + j) (p + j) := by
  induction j generalizing c p with
  | zero => rfl
  | succ j ih =>
    have rest : ∀ k < j, Shows stream l (p + 1 + k) := fun k hk => by
      rw [Nat.add_right_comm]
      exact h (k + 1) (by omega)
    rw [← Nat.add_assoc, measureFrom_shows (p := p) (h 0 (by omega)), ih rest, Nat.add_right_comm c,
      Nat.add_right_comm p]
    rfl

variable {budget c p : Nat}

/-- `Measure` past the samples at the level. -/
theorem measure_skips (hc : c < budget) (h : ∀ k < c, Shows stream l (p + k)) :
    measure budget stream l p = measureFrom stream l (budget - c - 1 + 1) c (p + c) := by
  have skip := measureFrom_skips (budget - c - 1 + 1) (c := 0) h
  rwa [show budget - c - 1 + 1 + c = budget by omega, Nat.zero_add] at skip

theorem measure_edge (hc : c < budget) (h : ∀ k < c, Shows stream l (p + k)) (hf : (stream (p + c)).fault = false)
    (hl : (stream (p + c)).level ≠ l) : measure budget stream l p = (.ok c, p + c + 1) := by
  simp [measure_skips hc h, measureFrom, hf, hl]

theorem measure_fault (hc : c < budget) (h : ∀ k < c, Shows stream l (p + k)) (hf : (stream (p + c)).fault = true) :
    measure budget stream l p = (.error .pin, p + c + 1) := by
  simp [measure_skips hc h, measureFrom, hf]

theorem measure_timeout (h : ∀ k < budget, Shows stream l (p + k)) :
    measure budget stream l p = (.error .timeout, p + budget) := by
  have skip := measureFrom_skips 0 (c := 0) h
  rwa [Nat.zero_add] at skip

variable (stream l budget p)

/-- Either every sample within the budget shows the level, or there is a first that does not. -/
theorem shows_or_first :
    (∀ k < budget, Shows stream l (p + k)) ∨
    ∃ c < budget, (∀ k < c, Shows stream l (p + k)) ∧ ¬Shows stream l (p + c) := by
  induction budget with
  | zero => exact .inl fun k hk => absurd hk (Nat.not_lt_zero k)
  | succ n ih =>
    obtain all | ⟨c, hc, first⟩ := ih
    · by_cases hn : Shows stream l (p + n)
      · refine .inl fun k hk => ?_
        obtain hk | rfl := Nat.lt_succ_iff_lt_or_eq.mp hk
        · exact all k hk
        · exact hn
      · exact .inr ⟨n, Nat.lt_succ_self n, all, hn⟩
    · exact .inr ⟨c, Nat.lt_succ_of_lt hc, first⟩

/-- What `Measure` answers, in its three cases (rule R105). -/
theorem measure_cases :
    ((∀ k < budget, Shows stream l (p + k)) ∧ measure budget stream l p = (.error .timeout, p + budget)) ∨
    (∃ c < budget, (∀ k < c, Shows stream l (p + k)) ∧ (stream (p + c)).fault = true ∧
      measure budget stream l p = (.error .pin, p + c + 1)) ∨
    (∃ c < budget, (∀ k < c, Shows stream l (p + k)) ∧ (stream (p + c)).fault = false ∧ (stream (p + c)).level ≠ l ∧
      measure budget stream l p = (.ok c, p + c + 1)) := by
  obtain all | ⟨c, hc, before, hn⟩ := shows_or_first stream l budget p
  · exact .inl ⟨all, measure_timeout all⟩
  · cases hf : (stream (p + c)).fault with
    | true => exact .inr (.inl ⟨c, hc, before, hf, measure_fault hc before hf⟩)
    | false =>
      have hl : (stream (p + c)).level ≠ l := fun hl => hn ⟨hf, hl⟩
      exact .inr (.inr ⟨c, hc, before, hf, hl, measure_edge hc before hf hl⟩)

end

/-- Settles O21: each answer comes from its own case of `measure_cases`. -/
theorem measureReturnsTheFirstEdge : Obligations.MeasureReturnsTheFirstEdge := by
  intro budget stream l p q
  refine ⟨fun c => ⟨fun h => ?_, ?_⟩, ⟨fun h => ?_, ?_⟩, ⟨fun h => ?_, ?_⟩⟩
  · obtain ⟨-, hm⟩ | ⟨_, -, -, -, hm⟩ | ⟨c', hc, before, hf, hl, hm⟩ := measure_cases stream l budget p <;>
      cases h.symm.trans hm
    exact ⟨hc, before, hf, hl, rfl⟩
  · rintro ⟨hc, before, hf, hl, rfl⟩
    exact measure_edge hc before hf hl
  · obtain ⟨all, hm⟩ | ⟨_, -, -, -, hm⟩ | ⟨_, -, -, -, -, hm⟩ := measure_cases stream l budget p <;>
      cases h.symm.trans hm
    exact ⟨all, rfl⟩
  · rintro ⟨all, rfl⟩
    exact measure_timeout all
  · obtain ⟨-, hm⟩ | ⟨c, hc, before, hf, hm⟩ | ⟨_, -, -, -, -, hm⟩ := measure_cases stream l budget p <;>
      cases h.symm.trans hm
    exact ⟨c, hc, before, hf, rfl⟩
  · rintro ⟨c, hc, before, hf, rfl⟩
    exact measure_fault hc before hf

/-- Settles O22: both durations are one less than the samples at that level. -/
theorem pulseWidthsDecideTheBit : Obligations.PulseWidthsDecideTheBit := by
  intro budget stream p m n hm hn ok low high ends
  have okAt {k q : Nat} (hk : k ≤ m + n + 1) (hq : q = p + k) : (stream q).fault = false := hq ▸ ok k hk
  have lowDuration : measure budget stream false p = (.ok m, p + m + 1) := by
    refine measure_edge hm (fun k hk => ⟨ok k (by omega), low k hk⟩) (ok m (by omega)) ?_
    simpa using high 0 (Nat.zero_le n)
  have highDuration : measure budget stream true (p + m + 1) = (.ok n, p + m + n + 2) := by
    have hq : p + m + n + 2 = p + m + 1 + n + 1 := by omega
    rw [hq]
    refine measure_edge hn (fun k hk => ⟨okAt (k := m + 1 + k) (by omega) (by omega), ?_⟩)
      (okAt (k := m + 1 + n) (by omega) (by omega)) ?_
    · rw [show p + m + 1 + k = p + m + (k + 1) by omega]
      exact high (k + 1) (by omega)
    · rw [show p + m + 1 + n = p + m + n + 1 by omega, ends]
      simp
  refine ⟨lowDuration, highDuration, ?_⟩
  simp [readBit, lowDuration, highDuration, pulseBit]

end Sys2Proof.Machine
end

section
/-! The transport commands step by step and as whole commands (rule R130 to rule R134, rule R146, rule R147). Settles
O30, O31, O35, O36 and O39. -/

namespace Sys2Proof.Machine

/-! Step by step -/

/-- Settles O35. -/
theorem transportCommandsStart : Obligations.TransportCommandsStart := by
  intro s hp
  exact ⟨execRdreg_idle hp, fun _ _ hq hr h8 => execXfer_idle hp (wellFormed_xfer_iff.mpr ⟨hq, hr, h8⟩),
    execWrreg_idle hp, fun _ _ _ _ hbits => execRmw_idle hp (beq_iff_eq.mpr hbits), execIdchk_idle hp⟩

/-- The answer `Ok` to the request outstanding. -/
theorem exec_answered {i : Instr} {s : State} {r : Request} {a : Config.BusAnswer} {rest : List Config.BusAnswer}
    (hr : requestOf i s = some r) (hb : s.bus = a :: rest) (hf : a.fail = false) :
    exec i s = .next (onOk i s.phase a.rdata (taken r rest s)) := by
  rw [exec_of_request hr, transact_answers hb hf]
  rfl

/-- The answer `Fail` to the request outstanding (rule R160). -/
theorem exec_failed {i : Instr} {s : State} {r : Request} {a : Config.BusAnswer} {rest : List Config.BusAnswer}
    (hr : requestOf i s = some r) (hb : s.bus = a :: rest) (hf : a.fail = true) :
    exec i s = .next { taken r rest s with err := .bus, done := true, phase := .idle } := by
  obtain ⟨hp, -⟩ := requestOf_isSome_iff.mp (Option.isSome_of_eq_some hr)
  rw [exec_of_request hr]
  exact transact_busError (by obtain hp | hp := hp <;> rw [hp] <;> rfl) hb hf _ _

theorem recordDivisor_eq (slot : Slot) (s : State) :
    recordDivisor slot s =
      { s with
        s1 := if slot = .s1 then s.arg.extractLsb' 0 8 else s.s1
        s2 := if slot = .s2 then s.arg.extractLsb' 0 8 else s.s2 } := by
  cases slot <;> rfl

/-- Settles O36, by `exec_answered`. -/
theorem transportCommandsComplete : Obligations.TransportCommandsComplete := by
  intro s a rest hb hf
  refine ⟨fun hp => ⟨fun reg v inc => ?_, fun nreq nresp => ?_, fun reg mask bits slot => ?_, fun reg expect => ?_⟩,
    fun hp => ⟨fun reg value => ?_, fun reg mask bits slot => ?_⟩⟩
  · rw [exec_answered (requestOf_reading hp (.rdreg reg v inc)) hb hf]
    rfl
  · have count : BitVec.ofNat 4 nresp.toNat = nresp := by simp
    rw [exec_answered (requestOf_reading hp (.xfer nreq nresp)) hb hf, onOk, storeResponse, count]
    rfl
  · rw [exec_answered (requestOf_reading hp (.rmw reg mask bits slot)) hb hf, hp]
    rfl
  · rw [exec_answered (requestOf_reading hp (.idchk reg expect)) hb hf]
    rfl
  · rw [exec_answered (requestOf_writing hp (.wrreg reg value)) hb hf]
    rfl
  · rw [exec_answered (requestOf_writing hp (.rmw reg mask bits slot)) hb hf, hp]
    exact congrArg (fun u => Host.Outcome.next (complete u)) (recordDivisor_eq slot (taken _ rest s))

theorem getLsbD_mergeBits {mask bits : Byte} (h : bits &&& ~~~mask = 0) (old : Byte) {k : Nat} (hk : k < 8) :
    (mergeBits old mask bits).getLsbD k = if mask.getLsbD k then bits.getLsbD k else old.getLsbD k := by
  have inside : (bits &&& ~~~mask).getLsbD k = false := by simp [h]
  rw [BitVec.getLsbD_and, BitVec.getLsbD_not] at inside
  rw [mergeBits, BitVec.getLsbD_or, BitVec.getLsbD_and, BitVec.getLsbD_not]
  cases hm : mask.getLsbD k
  · rw [hm] at inside
    simp_all
  · simp

/-- Settles O39. -/
theorem rmwKeepsBitsOutsideMask : Obligations.RmwKeepsBitsOutsideMask := by
  intro s t reg mask bits slot a rest hbits hp hb hf h k hk
  rw [exec_answered (requestOf_reading hp (.rmw reg mask bits slot)) hb hf, hp] at h
  cases h
  rw [onOk, rmwMerge_newval, getLsbD_mergeBits hbits _ hk]
  simp [answerByte, hk]

/-! Whole commands -/

/-- The step that takes the answer to a command's last request (rule R26, rule R160). -/
theorem exec_lastRequest {i : Instr} {s : State} {r : Request} {k : BitVec 64 → State → State} {a : Config.BusAnswer}
    {rest : List Config.BusAnswer} (hr : requestOf i s = some r) (hk : onOk i s.phase = fun d u => complete (k d u))
    (hb : s.bus = a :: rest) :
    exec i s =
      .next (if a.fail then { taken r rest s with err := .bus, done := true, phase := .idle }
        else complete (k a.rdata (taken r rest s))) := by
  cases hf : a.fail with
  | true => exact exec_failed hr hb hf
  | false => rw [exec_answered hr hb hf, hk]; rfl

theorem writeRequest_eq (addr : BusAddr) (reg : RegAddr) (value : Byte) :
    writeRequest addr reg value = .write addr [reg.setWidth 8, value] := by
  rw [writeRequest, requestByte_eq]
  rfl

theorem readRequest_eq (addr : BusAddr) (reg : RegAddr) :
    readRequest addr reg = .writeThenRead addr [reg.setWidth 8] 1 := by
  rw [readRequest, requestByte_eq]
  rfl

/-- Settles O30. -/
theorem wrregWholeCommand : Obligations.WrregWholeCommand := by
  intro s reg value a rest hp hi hb
  have hd := decode_encode_wrreg reg value
  have start := execWrreg_idle (s := acceptWord (encode (.wrreg reg value)) { s with inputs := [] }) hp reg value
  have finish := exec_lastRequest (k := fun _ u => u)
    (s := { acceptWord (encode (.wrreg reg value)) { s with inputs := [] } with phase := .rcWr })
    (requestOf_writing rfl (.wrreg reg value)) rfl hb
  refine ⟨run_accept hd hp hi start, (run_accept_next hd hp hi start (by simp) finish).trans ?_⟩
  rw [← writeRequest_eq, hp]
  cases a.fail <;> rfl

/-- A command that ends before the last step of a run leaves an idle block, which stays put (rule R192). -/
theorem run_ended {m n : Nat} {s t : State} (h : run m s = .next t) (hp : t.phase = .idle) (hi : t.inputs = []) :
    run (m + n) s = .next t := (run_add h).trans (run_of_fixed (step_idle hp hi) n)

/-- The accept of RMW and a failed read: no write follows (rule R160). -/
theorem run_rmw_readFails {s : State} {reg : RegAddr} {mask bits : Byte} {slot : Slot} {a : Config.BusAnswer}
    {rest : List Config.BusAnswer} (hbits : bits &&& ~~~mask = 0) (hp : s.phase = .idle)
    (hi : s.inputs = [.write 0 (encode (.rmw reg mask bits slot))]) (hb : s.bus = a :: rest) (hf : a.fail = true) :
    run 2 s = .next
      { s with
        inputs := [], bus := rest, cmd := encode (.rmw reg mask bits slot), done := true, err := .bus
        resp := Vector.replicate 8 0, rlen := 0
        out := .transport (.writeThenRead s.devAddr [reg.setWidth 8] 1) :: s.out } := by
  have hd := (decode_encode_rmw reg mask bits slot).trans (if_pos hbits)
  have start := execRmw_idle (s := acceptWord (encode (.rmw reg mask bits slot)) { s with inputs := [] }) hp
    (wellFormed_of_decode hd)
  have read := requestOf_reading rfl (.rmw reg mask bits slot)
    (s := beginRead (acceptWord (encode (.rmw reg mask bits slot)) { s with inputs := [] }))
  have answered := exec_failed read hb hf
  refine (run_accept_next hd hp hi start (by simp) answered).trans ?_
  rw [← readRequest_eq, hp]
  rfl

/-- The accept of RMW and the answer `Ok` to its read (rule R133 step 2). -/
theorem run_rmw_reads {s : State} {reg : RegAddr} {mask bits : Byte} {slot : Slot} {a : Config.BusAnswer}
    {rest : List Config.BusAnswer} (hbits : bits &&& ~~~mask = 0) (hp : s.phase = .idle)
    (hi : s.inputs = [.write 0 (encode (.rmw reg mask bits slot))]) (hb : s.bus = a :: rest) (hf : a.fail = false) :
    run 2 s = .next
      { s with
        inputs := [], bus := rest, cmd := encode (.rmw reg mask bits slot), done := false, err := .none
        resp := #v[a.rdata.extractLsb' 0 8, 0, 0, 0, 0, 0, 0, 0], rlen := 1
        newval := (a.rdata.extractLsb' 0 8 &&& ~~~mask) ||| bits, phase := .rcWr
        out := .transport (.writeThenRead s.devAddr [reg.setWidth 8] 1) :: s.out } := by
  have hd := (decode_encode_rmw reg mask bits slot).trans (if_pos hbits)
  have start := execRmw_idle (s := acceptWord (encode (.rmw reg mask bits slot)) { s with inputs := [] }) hp
    (wellFormed_of_decode hd)
  have read := requestOf_reading rfl (.rmw reg mask bits slot)
    (s := beginRead (acceptWord (encode (.rmw reg mask bits slot)) { s with inputs := [] }))
  have answered := exec_answered read hb hf
  refine (run_accept_next hd hp hi start (by simp) answered).trans ?_
  rw [← readRequest_eq]
  rfl

/-- The answer to the write of RMW ends it (rule R133 step 3). -/
theorem step_rmw_write {u : State} {reg : RegAddr} {mask bits : Byte} {slot : Slot} {b : Config.BusAnswer}
    {rest : List Config.BusAnswer} (hd : decode u.cmd = .ok (.rmw reg mask bits slot)) (hp : u.phase = .rcWr)
    (hi : u.inputs = []) (hb : u.bus = b :: rest) :
    step u = .next
      { u with
        bus := rest, done := true, phase := .idle, err := if b.fail then .bus else .none
        s1 := if b.fail = false ∧ slot = .s1 then u.arg.extractLsb' 0 8 else u.s1
        s2 := if b.fail = false ∧ slot = .s2 then u.arg.extractLsb' 0 8 else u.s2
        out := .transport (.write u.devAddr [reg.setWidth 8, u.newval]) :: u.out } := by
  have request := requestOf_writing hp (.rmw reg mask bits slot)
  rw [step_running hd (by simp [hp]) hi,
    exec_lastRequest (k := fun _ => recordDivisor slot) request (by rw [hp]; rfl) hb, ← writeRequest_eq]
  cases b.fail
  · simp only [recordDivisor_eq, true_and]
    rfl
  · rfl

/-- Settles O31: the read by `run_rmw_reads`, the write by `step_rmw_write`; a command that ended earlier stays put. -/
theorem rmwWholeCommand : Obligations.RmwWholeCommand := by
  intro s reg mask bits slot hp hi
  have decoded := decode_encode_rmw reg mask bits slot
  refine ⟨fun hbits a b rest hb hf => ?_, fun hbits a rest hb hf => ?_, fun hbits => ?_⟩
  · rw [if_pos hbits] at decoded
    refine (run_add (m := 2) (n := 1) (run_rmw_reads hbits hp hi hb hf)).trans (run_succ_of_next ?_)
    refine Eq.trans (step_rmw_write decoded rfl rfl rfl) ?_
    rw [hp]
  · exact run_ended (m := 2) (n := 1) (run_rmw_readFails hbits hp hi hb hf) hp rfl
  · rw [if_neg hbits] at decoded
    exact run_ended (m := 1) (n := 2) (run_succ_of_next (step_illegalWord decoded hp hi)) hp rfl

end Sys2Proof.Machine
end

section
/-! Words, port signals and physical values (rule R53, rule R72 to rule R78, rule R85, rule R143 to rule R145). Settles
O6, O48, O49 and O50. -/

namespace Sys2Proof.Machine

/-- Settles O6. -/
theorem sampleWordsDecode : Obligations.SampleWordsDecode := by
  unfold Obligations.SampleWordsDecode
  decide

/-- Settles O49. -/
theorem assemblerExamples : Obligations.AssemblerExamples := by
  unfold Obligations.AssemblerExamples
  decide

/-- TR_WDATA shows byte k of the request at bits 8k+7:8k (rule R53). -/
theorem writeData_byte {r : Request} {k : Nat} {x : Byte} (hx : r.bytes[k]? = some x) (hk : k < 3) :
    r.writeData.extractLsb' (8 * k) 8 = x := by
  interval_cases k <;>
    simp [Request.writeData, BitVec.extractLsb'_append_eq_of_le, BitVec.extractLsb'_append_eq_of_add_le, hx,
      -Nat.reduceAdd]

theorem readLength_writeThenRead (addr : BusAddr) (bytes : List Byte) {m : Nat} (hm : m ≤ 8) :
    (Request.writeThenRead addr bytes m).readLength.toNat = m := Nat.mod_eq_of_lt (by omega)

/-- Settles O48. -/
theorem portSignalsSpellTheRequest : Obligations.PortSignalsSpellTheRequest := by
  intro addr x y z m hm
  have rlen (bytes : List Byte) := readLength_writeThenRead addr bytes hm
  refine ⟨⟨rfl, rfl, rfl, ?_, rlen _⟩, ⟨rfl, rfl, rfl, ?_, ?_, ?_, rlen _⟩, rfl, rfl, rfl, ?_, ?_, rfl⟩
  · exact writeData_byte (k := 0) rfl (by decide)
  · exact writeData_byte (k := 0) rfl (by decide)
  · exact writeData_byte (k := 1) rfl (by decide)
  · exact writeData_byte (k := 2) rfl (by decide)
  · exact writeData_byte (k := 0) rfl (by decide)
  · exact writeData_byte (k := 1) rfl (by decide)

theorem fsConst_value_ne_zero (fs : Config.FsConst) : (fs.value : Rat) ≠ 0 := by
  cases fs <;> decide

/-- Settles O50. -/
theorem physicalValues : Obligations.PhysicalValues := by
  have negative : (0xFFFFF800 : Word).toInt = -2048 := by decide
  have positive : (0x00000101 : Word).toInt = 257 := by decide
  have divisor : (16 : Byte).toNat = 16 := rfl
  refine ⟨fun fs data ddiv => ⟨rfl, ?_, ?_, ?_, ?_⟩, ?_, ?_, ?_⟩
  · exact div_mul_cancel₀ _ (by norm_num [Config.tenthsDiv])
  · exact div_mul_cancel₀ _ (fsConst_value_ne_zero fs)
  · exact div_mul_cancel₀ _ (fsConst_value_ne_zero fs)
  · simp [physicalValue]
  · norm_num [physicalValue, Config.tenthsDiv, positive]
  · norm_num [physicalValue, Config.FsConst.value, negative, divisor]
  · norm_num [physicalValue, Config.FsConst.value, negative, divisor]

end Sys2Proof.Machine
end

section
/-! Every SWRD ends within its bound (rule R114, rule R121). Settles O24. Each step of a running SWRD uses up one of the
steps `stepsLeft` counts. -/

namespace Sys2Proof.Machine

/-- Measurements of the current one on that SWRD may still make (rule R120). -/
def measuresLeft (p : Phase) (bits : Nat) : Nat :=
  match p with
  | .ackL => 82
  | .ackH => 81
  | .datL => 80 - 2 * bits
  | .datH => 79 - 2 * bits
  | .idle | .rqH1 | .rqL | .rqH2 | .rcRd | .rcWr => 0

/-- The most steps SWRD still takes (rule R121). -/
def stepsLeft (s : State) : Nat :=
  match s.phase with
  | .rqH1 => 3 + 82 * s.params.budget
  | .rqL => 2 + 82 * s.params.budget
  | .rqH2 => 1 + 82 * s.params.budget
  | .idle | .ackL | .ackH | .datL | .datH | .rcRd | .rcWr =>
    measuresLeft s.phase s.bitcnt.toNat * s.params.budget - s.cnt

theorem stepsLeft_measuring {s : State} {l : Bool} (h : s.phase.measures = some l) :
    stepsLeft s = measuresLeft s.phase s.bitcnt.toNat * s.params.budget - s.cnt := by
  obtain ⟨hp | hp, -⟩ | ⟨hp | hp, -⟩ := measures_eq_some_iff.mp h <;> rw [stepsLeft, hp]

theorem stepsLeft_le (s : State) : stepsLeft s ≤ readBound s.params.budget := by
  have most : measuresLeft s.phase s.bitcnt.toNat ≤ 82 := by
    cases s.phase <;> rw [measuresLeft] <;> omega
  have product := Nat.mul_le_mul_right s.params.budget most
  unfold stepsLeft readBound
  split <;> omega

/-- What SWRD's steps need to go on, with a silent host. -/
structure Reading (s : State) : Prop where
  word : decode s.cmd = .ok .swrd
  silent : s.inputs = []
  cnt : s.cnt < s.params.budget
  beforeData : s.phase.beforeData = true → s.bitcnt = 0
  inData : s.phase.inData = true → s.bitcnt.toNat < 40

theorem Reading.measuresLeft_pos {s : State} (h : Reading s) {l : Bool} (hp : s.phase.measures = some l) :
    0 < measuresLeft s.phase s.bitcnt.toNat := by
  obtain ⟨hp | hp, -⟩ | ⟨hp | hp, -⟩ := measures_eq_some_iff.mp hp <;> rw [hp, measuresLeft]
  · decide
  · have := h.inData (by rw [hp]; rfl)
    omega
  · decide
  · have := h.inData (by rw [hp]; rfl)
    omega

/-- The end of a measurement leaves the steps of the next one and no more. -/
theorem stepsLeft_edge {s t : State} {l l' : Bool} (hs : s.phase.measures = some l) (hc : s.cnt < s.params.budget)
    (ht : t.phase.measures = some l') (hb : t.params = s.params)
    (hm : measuresLeft s.phase s.bitcnt.toNat = measuresLeft t.phase t.bitcnt.toNat + 1) :
    stepsLeft t < stepsLeft s := by
  rw [stepsLeft_measuring hs, stepsLeft_measuring ht, hb, hm, Nat.succ_mul]
  omega

/-- One more sample at the level uses up one step. -/
theorem Reading.stepsLeft_counts {s : State} (h : Reading s) {l : Bool} (hp : s.phase.measures = some l) :
    stepsLeft { wait 1 (pinSample s) with cnt := s.cnt + 1 } < stepsLeft s := by
  have least := Nat.le_mul_of_pos_left s.params.budget (h.measuresLeft_pos hp)
  have room := h.cnt
  have after : stepsLeft { wait 1 (pinSample s) with cnt := s.cnt + 1 } =
      measuresLeft s.phase s.bitcnt.toNat * s.params.budget - (s.cnt + 1) := stepsLeft_measuring (l := l) hp
  rw [after, stepsLeft_measuring hp]
  omega

theorem Reading.stepsLeft_pos {s : State} (h : Reading s) (hw : s.phase.singleWire = true) : 0 < stepsLeft s := by
  cases hp : s.phase with
  | ackL | ackH | datL | datH =>
    obtain ⟨l, hm⟩ : ∃ l, s.phase.measures = some l := ⟨_, by rw [hp]; rfl⟩
    exact Nat.zero_lt_of_lt (h.stepsLeft_counts hm)
  | rqH1 | rqL | rqH2 =>
    simp only [stepsLeft, hp]
    omega
  | idle | rcRd | rcWr =>
    rw [hp] at hw
    cases hw

/-- One step of SWRD: it ends, or goes on with fewer steps left. -/
theorem swrdMove_progress {s t : State} (h : Reading s) (hw : s.phase.singleWire = true) (hm : SwrdMove s t) :
    (t.phase = .idle ∧ t.done = true) ∨ (t.phase.singleWire = true ∧ Reading t ∧ stepsLeft t < stepsLeft s) := by
  have budget : 0 < s.params.budget := Nat.zero_lt_of_lt h.cnt
  cases hm with
  | accepts hp =>
    rw [hp] at hw
    cases hw
  | driveFails | sampleFails | timesOut | publishes | mismatches => exact .inl ⟨rfl, rfl⟩
  | drivesHigh hp | drivesLow hp =>
    refine .inr ⟨rfl, { h with
      beforeData := fun _ => h.beforeData (by rw [hp]; rfl)
      inData := by simp [Phase.inData] }, ?_⟩
    simp [stepsLeft, hp]
  | releases hp =>
    refine .inr ⟨rfl, { h with
      cnt := budget
      beforeData := fun _ => h.beforeData (by rw [hp]; rfl)
      inData := by simp [Phase.inData] }, ?_⟩
    simp [stepsLeft, measuresLeft, hp]
  | counts hp _ hc => exact .inr ⟨singleWire_of_measures hp, { h with cnt := hc }, h.stepsLeft_counts hp⟩
  | lowEnds hp =>
    obtain ⟨hp, rfl⟩ | ⟨hp, rfl⟩ := hp
    · refine .inr ⟨rfl, { h with
        cnt := budget
        beforeData := fun _ => h.beforeData (by rw [hp]; rfl)
        inData := by simp [Phase.inData] }, ?_⟩
      exact stepsLeft_edge (by rw [hp]; rfl) h.cnt rfl rfl (by rw [hp]; rfl)
    · have bits := h.inData (by rw [hp]; rfl)
      refine .inr ⟨rfl, { h with cnt := budget, beforeData := by simp [Phase.beforeData], inData := fun _ => bits }, ?_⟩
      exact stepsLeft_edge (by rw [hp]; rfl) h.cnt rfl rfl (by simp [hp, measuresLeft]; omega)
  | ackEnds hp =>
    have zero : s.bitcnt = 0 := h.beforeData (by rw [hp]; rfl)
    refine .inr ⟨rfl, { h with cnt := budget, beforeData := by simp [Phase.beforeData], inData := by simp [zero] }, ?_⟩
    exact stepsLeft_edge (by rw [hp]; rfl) h.cnt rfl rfl (by simp [hp, zero, measuresLeft])
  | nextBit hp _ _ hb =>
    have count := toNat_bitcnt_succ (s := pinSample s) (by rw [pinSample_bitcnt]; omega)
    refine .inr ⟨rfl, { h with
      cnt := budget
      beforeData := by simp [Phase.beforeData]
      inData := fun _ => count.trans_lt (by rw [pinSample_bitcnt]; omega) }, ?_⟩
    refine stepsLeft_edge (by rw [hp]; rfl) h.cnt rfl rfl ?_
    rw [count, hp, pinSample_bitcnt, measuresLeft, measuresLeft]
    omega

/-- A step of a running SWRD with a silent host. -/
theorem Reading.step {s : State} (h : Reading s) (hw : s.phase.singleWire = true) :
    ∃ t, step s = .next t ∧ SwrdMove s t := by
  obtain ⟨t, ht⟩ := execSwrd_goes_on hw h.cnt h.inData
  refine ⟨t, (step_running h.word ?_ h.silent).trans ht, swrdMove_of_execSwrd ht⟩
  rintro hp
  rw [hp] at hw
  cases hw

/-- SWRD ends within the steps left, and the host is still silent then. -/
theorem Reading.ends {s : State} (h : Reading s) (hw : s.phase.singleWire = true) :
    ∃ n ≤ stepsLeft s, ∃ t, run n s = .next t ∧ t.phase = .idle ∧ t.done = true ∧ t.inputs = [] := by
  induction hn : stepsLeft s using Nat.strong_induction_on generalizing s with
  | _ n ih =>
    obtain ⟨t, ht, hm⟩ := h.step hw
    obtain ⟨hp, hd⟩ | ⟨hw', h', hlt⟩ := swrdMove_progress h hw hm
    · have host : t.inputs = s.inputs := congrArg HostSide.inputs (execSwrd_hostSide (execSwrd_of_swrdMove hm))
      have left := h.stepsLeft_pos hw
      exact ⟨1, by omega, t, run_succ_of_next ht, hp, hd, host.trans h.silent⟩
    · obtain ⟨m, hm, u, hu, done⟩ := ih _ (hn ▸ hlt) h' hw' rfl
      exact ⟨m + 1, by omega, u, (run_succ_of_next ht).trans hu, done⟩

theorem reading_of_inv {s : State} (h : Inv s) (hw : s.phase.singleWire = true) (hi : s.inputs = []) : Reading s := by
  have running : s.phase ≠ .idle := fun hp => by
    rw [hp] at hw
    cases hw
  obtain ⟨i, hd, hrun⟩ := h.command running
  obtain ⟨rfl, -⟩ | hp | hp := runsIn_cases hrun
  · exact ⟨hd, hi, h.cnt, h.beforeData, h.inData⟩
  all_goals
    rw [hp] at hw
    cases hw

/-- Settles O24. -/
theorem swrdTerminates : Obligations.SwrdTerminates := by
  intro s h hw hi
  obtain ⟨n, hn, t, ht, idle, done, silent⟩ := (reading_of_inv h hw hi).ends hw
  refine ⟨t, fun m hm => ?_, idle, done, ?_⟩
  · obtain ⟨k, rfl⟩ := Nat.exists_eq_add_of_le (hn.trans ((stepsLeft_le s).trans hm))
    exact run_ended ht idle silent
  · obtain ⟨t', ht', inv, -⟩ := h.run n
    cases ht.symm.trans ht'
    exact inv.sampling (by rw [idle]; rfl)

end Sys2Proof.Machine
end

section
/-! The step table and the pseudocode of SWRD are the same behaviour (rule R105 to rule R109, rule R118, rule R120).
Settles O23. `s₀` is the state the accept leaves; a state reached from it is known by how far the pseudocode has come
(`Agrees`), and each part of the pseudocode is followed to the end that its result says (`ends_of_measure`,
`ends_of_readBit`, `ends_of_dataPhase`). -/

namespace Sys2Proof.Machine

/-! The pin stream -/

theorem pinAnswer_eq (s : State) : pinAnswer s = s.pin.head?.getD (Config.pinStream s.pinIndex) := by
  unfold pinAnswer
  cases s.pin <;> rfl

/-! How far the pseudocode has come -/

/-- `u` is where the pseudocode is with `r`: it has taken these answers and shifted these bits, and has touched nothing
beyond the single-wire unit. -/
structure Agrees (s₀ : State) (r : ReadSoFar) (u : State) : Prop where
  engine : u.engineSide = s₀.engineSide
  host : u.hostSide = s₀.hostSide
  pin : u.pin = s₀.pin.drop r.taken
  pinIndex : u.pinIndex = s₀.pinIndex + r.taken
  b : u.b = r.b
  bits : u.bitcnt.toNat = r.bits

/-- No Measurement, as the accept leaves it (rule R118). -/
def NoMeasurement (s : State) : Prop := s.valid = false ∧ s.humT = 0 ∧ s.tempT = 0 ∧ s.neg = false

/-- The read goes on, with a silent host: no result has been written yet. -/
structure Pending (s₀ : State) (r : ReadSoFar) (u : State) : Prop extends Agrees s₀ r u where
  word : decode u.cmd = .ok .swrd
  silent : u.inputs = []
  noResults : NoMeasurement u

/-- The read has ended as the pseudocode ends with `r`. -/
structure Ended (s₀ : State) (r : ReadSoFar) (t : State) : Prop extends Agrees s₀ r t where
  idle : t.phase = .idle
  done : t.done = true
  err : t.err = r.err
  good : r.err = .none → t.valid = true ∧ t.humT = humidityOf r.b ∧ t.tempT = temperatureOf r.b ∧ t.neg = negOf r.b
  bad : r.err ≠ .none → NoMeasurement t ∧ t.pinmode = .sample

/-- Some run from `u` ends as the pseudocode ends with `r`. -/
def Ends (s₀ : State) (r : ReadSoFar) (u : State) : Prop := ∃ n t, run n u = .next t ∧ Ended s₀ r t

theorem Ends.now {s₀ t : State} {r : ReadSoFar} (h : Ended s₀ r t) : Ends s₀ r t := ⟨0, t, run_zero t, h⟩

theorem Ends.step {s₀ u v : State} {r : ReadSoFar} (hs : step u = .next v) (h : Ends s₀ r v) : Ends s₀ r u := by
  obtain ⟨n, t, ht, ended⟩ := h
  exact ⟨n + 1, t, (run_succ_of_next hs).trans ht, ended⟩

section
variable {s₀ u : State} {b : Vector Byte 5} {k p : Nat}

/-- The next answer is the stream's. -/
theorem Agrees.answer {r : ReadSoFar} (h : Agrees s₀ r u) : pinAnswer u = s₀.stream r.taken := by
  rw [pinAnswer_eq, h.pin, h.pinIndex, State.stream, List.head?_drop]

theorem Agrees.params {r : ReadSoFar} (h : Agrees s₀ r u) : u.params = s₀.params := congrArg HostSide.params h.host

theorem Pending.sampled (h : Pending s₀ ⟨b, k, p, .none⟩ u) : Pending s₀ ⟨b, k, p + 1, .none⟩ (pinSample u) :=
  { h with
    pin := by rw [pinSample_pin, h.pin, List.tail_drop]
    pinIndex := by rw [pinSample_pinIndex, h.pinIndex, Nat.add_assoc] }

theorem Pending.driven (h : Pending s₀ ⟨b, k, p, .none⟩ u) (l : Bool) :
    Pending s₀ ⟨b, k, p + 1, .none⟩ (pinDrive l u) :=
  { h with
    pin := by rw [pinDrive_pin, h.pin, List.tail_drop]
    pinIndex := by rw [pinDrive_pinIndex, h.pinIndex, Nat.add_assoc] }

theorem Pending.waited (h : Pending s₀ ⟨b, k, p, .none⟩ u) (n : Nat) : Pending s₀ ⟨b, k, p, .none⟩ (wait n u) :=
  { h with }

theorem Pending.shifted (h : Pending s₀ ⟨b, k, p, .none⟩ u) (hk : k < 40) :
    Pending s₀ ⟨shiftIn b k (pulseBit u.lowdur u.cnt), k + 1, p, .none⟩ (shiftBit u) :=
  { h with
    b := by rw [shiftBit_b, h.b, h.bits]
    bits := by rw [toNat_bitcnt_succ (by rw [h.bits]; exact hk), h.bits] }

/-- An error ends the read as it does in the pseudocode (rule R170). -/
theorem Pending.fails (h : Pending s₀ ⟨b, k, p, .none⟩ u) {e : ErrCode} (he : e ≠ .none) :
    Ended s₀ ⟨b, k, p, e⟩ (swrdFails e u) :=
  { h with
    idle := rfl
    done := rfl
    err := rfl
    good := fun hn => absurd hn he
    bad := fun _ => ⟨h.noResults, rfl⟩ }

theorem Pending.moves {r : ReadSoFar} {v : State} (h : Pending s₀ r u) (hp : u.phase ≠ .idle)
    (hm : execSwrd u = .next v) : step u = .next v := (step_running h.word hp h.silent).trans hm

/-! `Measure` -/

variable {r : ReadSoFar} {l : Bool} {fuel : Nat}

/-- What follows the end of a measurement at a duration c, with the answers up to position q taken. -/
def Continues (s₀ : State) (r : ReadSoFar) (b : Vector Byte 5) (k : Nat) (p : Phase) (low c q : Nat) : Prop :=
  ∀ w, w.phase = p → w.lowdur = low → w.cnt = c → Pending s₀ ⟨b, k, q, .none⟩ w →
    ∃ v, edge p w = .next v ∧ Ends s₀ r v

/-- One sample of a measurement: the fault and the edge are done with, the level is left to the next samples. -/
theorem ends_of_sample (h : Pending s₀ ⟨b, k, p, .none⟩ u) (hp : u.phase.measures = some l)
    (herr : ∀ e q, measureFrom s₀.stream l (fuel + 1) u.cnt p = (.error e, q) → r = ⟨b, k, q, e⟩)
    (hok : ∀ c q, measureFrom s₀.stream l (fuel + 1) u.cnt p = (.ok c, q) → Continues s₀ r b k u.phase u.lowdur c q)
    (hsame : (pinAnswer u).fault = false → (pinAnswer u).level = l → Ends s₀ r u) : Ends s₀ r u := by
  have running : u.phase ≠ .idle := fun hi => by
    rw [hi] at hp
    cases hp
  have answer := h.answer
  cases hf : (pinAnswer u).fault with
  | true =>
    obtain rfl := herr .pin (p + 1) (by simp [measureFrom, ← answer, hf])
    have fails := h.moves running (execSwrd_of_swrdMove (.sampleFails hp hf))
    exact .step fails (.now (h.sampled.fails (by decide)))
  | false =>
    by_cases hl : (pinAnswer u).level = l
    · exact hsame hf hl
    · have found : measureFrom s₀.stream l (fuel + 1) u.cnt p = (.ok u.cnt, p + 1) := by
        simp [measureFrom, ← answer, hf, hl]
      obtain ⟨v, hv, ends⟩ := hok u.cnt (p + 1) found (pinSample u) rfl rfl rfl h.sampled
      have edge := h.moves running ((execSwrd_measures hp).trans ((measureStep_edge _ hf hl).trans hv))
      exact .step edge ends

/-- A measurement follows the loop of `Measure` (rule R105). -/
theorem ends_of_measureFrom (h : Pending s₀ ⟨b, k, p, .none⟩ u) (hp : u.phase.measures = some l)
    (hc : u.cnt + (fuel + 1) = s₀.params.budget)
    (herr : ∀ e q, measureFrom s₀.stream l (fuel + 1) u.cnt p = (.error e, q) → r = ⟨b, k, q, e⟩)
    (hok : ∀ c q, measureFrom s₀.stream l (fuel + 1) u.cnt p = (.ok c, q) → Continues s₀ r b k u.phase u.lowdur c q) :
    Ends s₀ r u := by
  have running {v : State} (hv : v.phase.measures = some l) : v.phase ≠ .idle := fun hi => by
    rw [hi] at hv
    cases hv
  induction fuel generalizing u p with
  | zero =>
    refine ends_of_sample h hp herr hok fun hf hl => ?_
    subst hl
    have shows : Shows s₀.stream (pinAnswer u).level p := by
      rw [h.answer] at hf ⊢
      exact ⟨hf, rfl⟩
    obtain rfl := herr .timeout (p + 1) (measureFrom_shows shows)
    have last : u.cnt + 1 = u.params.budget := by rw [h.params, ← hc]
    have fails := h.moves (running hp) (execSwrd_of_swrdMove (.timesOut hp hf last))
    exact .step fails (.now ((h.sampled.waited 1).fails (by decide)))
  | succ fuel ih =>
    refine ends_of_sample h hp herr hok fun hf hl => ?_
    subst hl
    have shows : Shows s₀.stream (pinAnswer u).level p := by
      rw [h.answer] at hf ⊢
      exact ⟨hf, rfl⟩
    have room : u.cnt + 1 < u.params.budget := by
      rw [h.params]
      omega
    have counts := h.moves (running hp) (execSwrd_of_swrdMove (.counts hp hf room))
    have next : Pending s₀ ⟨b, k, p + 1, .none⟩ { wait 1 (pinSample u) with cnt := u.cnt + 1 } :=
      { h.sampled.waited 1 with }
    have passes := measureFrom_shows (fuel := fuel + 1) (c := u.cnt) shows
    refine .step counts (ih next hp (by simp only; omega) (fun e q hm => herr e q (passes.trans hm)) fun c q hm => ?_)
    exact hok c q (passes.trans hm)

theorem ends_of_measure (h : Pending s₀ ⟨b, k, p, .none⟩ u) (hb : 1 ≤ s₀.params.budget) (hp : u.phase.measures = some l)
    (hc : u.cnt = 0) (herr : ∀ e q, measure s₀.params.budget s₀.stream l p = (.error e, q) → r = ⟨b, k, q, e⟩)
    (hok : ∀ c q, measure s₀.params.budget s₀.stream l p = (.ok c, q) → Continues s₀ r b k u.phase u.lowdur c q) :
    Ends s₀ r u := by
  obtain ⟨fuel, hfuel⟩ := Nat.exists_eq_add_of_le' hb
  rw [measure, hfuel, ← hc] at herr hok
  exact ends_of_measureFrom h hp (by omega) herr hok

/-! `ReadBit` -/

/-- A bit follows `ReadBit`: the low measurement, then the high one (rule R106). -/
theorem ends_of_readBit {low high : Phase} (h : Pending s₀ ⟨b, k, p, .none⟩ u) (hb : 1 ≤ s₀.params.budget)
    (hlow : low.measures = some false) (hhigh : high.measures = some true) (hedge : edge low = lowEnds high)
    (hp : u.phase = low) (hc : u.cnt = 0)
    (herr : ∀ e q, readBit s₀.params.budget s₀.stream p = (.error e, q) → r = ⟨b, k, q, e⟩)
    (hok : ∀ bit q, readBit s₀.params.budget s₀.stream p = (.ok bit, q) →
      ∀ w, w.phase = high → pulseBit w.lowdur w.cnt = bit → Pending s₀ ⟨b, k, q, .none⟩ w →
        ∃ v, edge high w = .next v ∧ Ends s₀ r v) : Ends s₀ r u := by
  refine ends_of_measure h hb (hp ▸ hlow) hc (fun e q hm => herr e q (by simp [readBit, hm])) ?_
  intro c q hm w _ _ hwc hw
  refine ⟨_, by rw [hp, hedge]; rfl, ?_⟩
  have started : Pending s₀ ⟨b, k, q, .none⟩ { w with lowdur := w.cnt, cnt := 0, phase := high } := { hw with }
  refine ends_of_measure started hb hhigh rfl (fun e q' hm' => herr e q' (by simp [readBit, hm, hm'])) ?_
  intro c' q' hm' w' hwp hwl hwc' hw'
  exact hok (pulseBit c c') q' (by simp [readBit, hm, hm']) w' hwp (by rw [hwl, hwc, hwc']) hw'

theorem readBit_error {budget : Nat} {stream : Nat → Config.PinAnswer} {e : ErrCode} {q : Nat}
    (h : readBit budget stream p = (.error e, q)) : e ≠ .none := by
  have measured {l : Bool} {p q : Nat} (hm : measure budget stream l p = (.error e, q)) : e ≠ .none := by
    obtain ⟨-, hm'⟩ | ⟨_, -, -, -, hm'⟩ | ⟨_, -, -, -, -, hm'⟩ := measure_cases stream l budget p <;>
      cases hm.symm.trans hm' <;> decide
  unfold readBit at h
  split at h
  case h_1 hm =>
    cases h
    exact measured hm
  case h_2 =>
    split at h
    case h_1 hm =>
      cases h
      exact measured hm
    case h_2 => cases h

/-! The data phase and the whole read -/

/-- Step 7 of the pseudocode, the checksum's verdict (rule R110, rule R118). -/
def judge (r : ReadSoFar) : ReadSoFar := if r.err = .none ∧ checksumOk r.b = false then { r with err := .crc } else r

theorem judge_error {e : ErrCode} (he : e ≠ .none) : judge ⟨b, k, p, e⟩ = ⟨b, k, p, e⟩ := if_neg fun h => he h.1

/-- The last bit: the frame is judged as in the pseudocode (rule R113). -/
theorem ended_of_finish (h : Pending s₀ ⟨b, k, p, .none⟩ u) (hw : u.phase.singleWire = true) :
    Ended s₀ (judge ⟨b, k, p, .none⟩) (finish u) := by
  cases hk : checksumOk b with
  | true =>
    rw [finish_match (by rw [h.b, hk]), judge, if_neg (by simp [hk])]
    exact { h with
      idle := rfl
      done := rfl
      err := rfl
      good := fun _ => by simp [h.b]
      bad := fun hn => absurd rfl hn }
  | false =>
    rw [finish_mismatch (by rw [h.b, hk]), abort_of_singleWire hw, judge, if_pos ⟨rfl, hk⟩]
    exact h.fails (by decide)

/-- One data bit, up to its end (rule R109). -/
theorem ends_of_dataBit (h : Pending s₀ ⟨b, k, p, .none⟩ u) (hb : 1 ≤ s₀.params.budget) (hp : u.phase = .datL)
    (hc : u.cnt = 0)
    (hok : ∀ w q, w.phase = .datH → Pending s₀ ⟨b, k, q, .none⟩ w → ∃ v, dataEnds w = .next v ∧
      Ends s₀ (judge (dataPhase s₀.params.budget s₀.stream fuel (k + 1) (shiftIn b k (pulseBit w.lowdur w.cnt)) q)) v) :
    Ends s₀ (judge (dataPhase s₀.params.budget s₀.stream (fuel + 1) k b p)) u := by
  refine ends_of_readBit h hb rfl rfl rfl hp hc (fun e q hm => ?_) fun bit q hm w hw hbit pending => ?_
  · rw [dataPhase, hm]
    exact judge_error (readBit_error hm)
  · rw [dataPhase, hm, ← hbit]
    exact hok w q hw pending

/-- The data bits follow the pseudocode's data phase (rule R109). -/
theorem ends_of_dataPhase (h : Pending s₀ ⟨b, k, p, .none⟩ u) (hb : 1 ≤ s₀.params.budget) (hk : k + (fuel + 1) = 40)
    (hp : u.phase = .datL) (hc : u.cnt = 0) :
    Ends s₀ (judge (dataPhase s₀.params.budget s₀.stream (fuel + 1) k b p)) u := by
  induction fuel generalizing u b k p with
  | zero =>
    refine ends_of_dataBit h hb hp hc fun w q hw pending => ?_
    refine ⟨_, dataEnds_last (by rw [pending.bits]; simpa using hk), .now ?_⟩
    exact ended_of_finish (pending.shifted (by omega)) (by rw [shiftBit_phase, hw]; rfl)
  | succ fuel ih =>
    refine ends_of_dataBit h hb hp hc fun w q hw pending => ?_
    refine ⟨_, dataEnds_next (by rw [pending.bits]; simp only; omega), ?_⟩
    exact ih { pending.shifted (by omega) with } (by omega) rfl rfl

/-- From the acknowledgement on: its bit is discarded, then the data phase (rule R108). -/
theorem ends_of_acknowledgement (h : Pending s₀ ⟨b, 0, p, .none⟩ u) (hb : 1 ≤ s₀.params.budget) (hp : u.phase = .ackL)
    (hc : u.cnt = 0) (herr : ∀ e q, readBit s₀.params.budget s₀.stream p = (.error e, q) → r = ⟨b, 0, q, e⟩)
    (hok : ∀ bit q, readBit s₀.params.budget s₀.stream p = (.ok bit, q) →
      r = judge (dataPhase s₀.params.budget s₀.stream 40 0 b q)) : Ends s₀ r u := by
  refine ends_of_readBit h hb rfl rfl rfl hp hc herr fun bit q hm w _ _ pending => ?_
  refine ⟨{ w with cnt := 0, phase := .datL }, rfl, ?_⟩
  rw [hok bit q hm]
  exact ends_of_dataPhase (fuel := 39) { pending with } hb rfl rfl rfl

/-- One drive of the request phase (rule R107). -/
theorem ends_of_drive (h : Pending s₀ ⟨b, k, p, .none⟩ u) (hp : u.phase = .rqH1 ∨ u.phase = .rqL ∨ u.phase = .rqH2)
    (hfault : (s₀.stream p).fault = true → r = ⟨b, k, p + 1, .pin⟩)
    (hok : (s₀.stream p).fault = false → ∃ v, execSwrd u = .next v ∧ Ends s₀ r v) : Ends s₀ r u := by
  have running : u.phase ≠ .idle := by obtain hp | hp | hp := hp <;> simp [hp]
  have answer := h.answer
  cases hf : (s₀.stream p).fault with
  | true =>
    obtain rfl := hfault hf
    have fails := h.moves running (execSwrd_of_swrdMove (.driveFails hp (by rw [answer, hf])))
    exact .step fails (.now ((h.driven _).fails (by decide)))
  | false =>
    obtain ⟨v, hv, ends⟩ := hok hf
    exact .step (h.moves running hv) ends

theorem Pending.drivesHigh (h : Pending s₀ ⟨b, k, p, .none⟩ u) (hp : u.phase = .rqH1)
    (hf : (s₀.stream p).fault = false) :
    ∃ v, execSwrd u = .next v ∧ v.phase = .rqL ∧ Pending s₀ ⟨b, k, p + 1, .none⟩ v :=
  ⟨_, execSwrd_of_swrdMove (.drivesHigh hp (by rw [h.answer, hf])), rfl,
    { (h.driven true).waited u.params.holdIdle with }⟩

theorem Pending.drivesLow (h : Pending s₀ ⟨b, k, p, .none⟩ u) (hp : u.phase = .rqL) (hf : (s₀.stream p).fault = false) :
    ∃ v, execSwrd u = .next v ∧ v.phase = .rqH2 ∧ Pending s₀ ⟨b, k, p + 1, .none⟩ v :=
  ⟨_, execSwrd_of_swrdMove (.drivesLow hp (by rw [h.answer, hf])), rfl,
    { (h.driven false).waited u.params.holdLow with }⟩

theorem Pending.releases (h : Pending s₀ ⟨b, k, p, .none⟩ u) (hp : u.phase = .rqH2) (hf : (s₀.stream p).fault = false) :
    ∃ v, execSwrd u = .next v ∧ v.phase = .ackL ∧ v.cnt = 0 ∧ Pending s₀ ⟨b, k, p + 1, .none⟩ v :=
  ⟨_, execSwrd_of_swrdMove (.releases hp (by rw [h.answer, hf])), rfl, rfl,
    { (h.driven true).waited u.params.holdGo with }⟩

end

/-- The whole read, from the state the accept leaves (rule R118). -/
theorem ends_of_readOutcome {s₀ : State} (h : Pending s₀ ⟨#v[0, 0, 0, 0, 0], 0, 0, .none⟩ s₀)
    (hb : 1 ≤ s₀.params.budget) (hp : s₀.phase = .rqH1) : Ends s₀ (readOutcome s₀.params.budget s₀.stream) s₀ := by
  change Ends s₀ (judge (readFrame s₀.params.budget s₀.stream)) s₀
  refine ends_of_drive h (.inl hp) (fun hf => ?_) fun ok0 => ?_
  · rw [readFrame, if_pos hf]
    exact judge_error (by decide)
  obtain ⟨v, hv, hvp, first⟩ := h.drivesHigh hp ok0
  refine ⟨v, hv, ends_of_drive first (.inr (.inl hvp)) (fun hf => ?_) fun ok1 => ?_⟩
  · rw [readFrame, if_neg (by simp [ok0]), if_pos hf]
    exact judge_error (by decide)
  obtain ⟨v, hv, hvp, second⟩ := first.drivesLow hvp ok1
  refine ⟨v, hv, ends_of_drive second (.inr (.inr hvp)) (fun hf => ?_) fun ok2 => ?_⟩
  · rw [readFrame, if_neg (by simp [ok0]), if_neg (by simp [ok1]), if_pos hf]
    exact judge_error (by decide)
  obtain ⟨v, hv, hvp, hvc, third⟩ := second.releases hvp ok2
  rw [readFrame, if_neg (by simp [ok0]), if_neg (by simp [ok1]), if_neg (by simp [ok2])]
  refine ⟨v, hv, ends_of_acknowledgement third hb hvp hvc (fun e q hm => ?_) fun bit q hm => ?_⟩
  · rw [hm]
    exact judge_error (readBit_error hm)
  · rw [hm]
    rfl

/-- Two runs from one state that end in a silent idle block end in the same (rule R192). -/
theorem run_ends_once {m n : Nat} {s t t' : State} (h : run m s = .next t) (hp : t.phase = .idle) (hi : t.inputs = [])
    (h' : run n s = .next t') (hp' : t'.phase = .idle) (hi' : t'.inputs = []) : t = t' := by
  have first := run_ended (n := n) h hp hi
  rw [Nat.add_comm, run_ended (n := m) h' hp' hi'] at first
  cases first
  rfl

/-- SWRD accepted with nothing else to come (rule R118 step 1). -/
theorem pending_of_accept {s : State} (hd : decode s.cmd = .ok .swrd) (hi : s.inputs = []) :
    Pending (swrdAccept s) ⟨#v[0, 0, 0, 0, 0], 0, 0, .none⟩ (swrdAccept s) where
  engine := rfl
  host := rfl
  pin := rfl
  pinIndex := rfl
  b := rfl
  bits := rfl
  word := hd
  silent := hi
  noResults := ⟨rfl, rfl, rfl, rfl⟩

/-- Settles O23: the run ends as the pseudocode does (`ends_of_readOutcome`), and within the bound (`Reading.ends`). -/
theorem swrdRefinesPseudocode : Obligations.SwrdRefinesPseudocode := by
  intro s hp hb hi
  have hd : decode 0x10000000 = .ok .swrd := (decode_eq_swrd_iff _).mpr rfl
  have accepted := run_accept hd hp hi
    (execSwrd_of_swrdMove (s := acceptWord 0x10000000 { s with inputs := [] }) (.accepts hp))
  have pending := pending_of_accept (s := acceptWord 0x10000000 { s with inputs := [] }) hd rfl
  have reading : Reading (swrdAccept (acceptWord 0x10000000 { s with inputs := [] })) :=
    ⟨hd, rfl, hb, fun _ => rfl, by simp⟩
  obtain ⟨n, t, ht, ended⟩ := ends_of_readOutcome pending hb rfl
  obtain ⟨m, hm, t', ht', idle, -, silent⟩ := reading.ends rfl
  have silent' : t.inputs = [] := congrArg HostSide.inputs ended.host
  obtain rfl := run_ends_once ht ended.idle silent' ht' idle silent
  obtain ⟨k, hk⟩ := Nat.exists_eq_add_of_le (hm.trans (stepsLeft_le _))
  have bound : readBound s.params.budget = m + k := hk
  refine ⟨t, ?_, ended.idle, ended.done, ended.err, ended.b, ended.bits, ended.pinIndex, ended.pin, ended.good,
    fun he => (ended.bad he).1, fun he => (ended.bad he).2, congrArg HostSide.cmd ended.host, ?_⟩
  · rw [bound, run_add accepted, run_ended ht' idle silent]
  have engine := ended.engine
  have host := ended.host
  exact ⟨congrArg EngineSide.resp engine, congrArg EngineSide.rlen engine, congrArg EngineSide.data engine,
    congrArg EngineSide.conv engine, congrArg EngineSide.ddiv engine, congrArg EngineSide.dvalid engine,
    congrArg EngineSide.s1 engine, congrArg EngineSide.s2 engine, congrArg EngineSide.idok engine,
    congrArg HostSide.rej host, congrArg HostSide.arg host, congrArg HostSide.devAddr host,
    congrArg EngineSide.newval engine, congrArg EngineSide.bus engine⟩

end Sys2Proof.Machine
end
